-- ==== Sys2Proof/Word.lean ====
section
/-! DEFINITION. The bit strings of the machine: words, bytes, register numbers and the immediate fields
(spec/00_scope.md R5, spec/30_encoding.md R51). -/

namespace Sys2Proof

/-- A 32-bit word: register contents, addresses, instruction words (R5). Arithmetic wraps modulo 2^32. -/
abbrev Word := BitVec 32

/-- An 8-bit byte (R5). -/
abbrev Byte := BitVec 8

/-- A 4-bit register field; all sixteen values are legal (R51). -/
abbrev RegNum := BitVec 4

/-- A 20-bit field: `imm20`, `abs20` or `target20` (R51). -/
abbrev Imm20 := BitVec 20

/-- A 16-bit field: `imm16` or `off16` (R51). -/
abbrev Imm16 := BitVec 16

end Sys2Proof
end

