-- ==== Sys2Proof/Config.lean ====
section
/-! DEFINITION. The implementation parameters of spec/00_scope.md R3 and R4, in one table, so that a corrected
literal changes one line here (D35; assumption log 16). The spec leaves no value free after the
first reset, so there is no opaque constant (spec/93_implementation_defined.md section 1; assumption log 2). -/

namespace Sys2Proof.Config

/-- `CODE_BASE` (R3). -/
abbrev codeBase : Nat := 0x00010000

/-- `STACK_BASE` (R3). -/
abbrev stackBase : Nat := 0x00020000

/-- `DATA_BASE` (R3). -/
abbrev dataBase : Nat := 0x00030000

/-- `CODE_WORDS` (R3). -/
abbrev codeWords : Nat := 1024

/-- `STACK_WORDS` (R3). -/
abbrev stackWords : Nat := 1024

/-- `DATA_WORDS` (R3). -/
abbrev dataWords : Nat := 1024

/-- `WORD_BYTES` (R4). -/
abbrev wordBytes : Nat := 4

/-- `CODE_BYTES` (R4). -/
abbrev codeBytes : Nat := codeWords * wordBytes

/-- `STACK_BYTES` (R4). -/
abbrev stackBytes : Nat := stackWords * wordBytes

/-- `DATA_BYTES` (R4). -/
abbrev dataBytes : Nat := dataWords * wordBytes

/-- `RESET_PC` = `CODE_BASE` (R4, D11). -/
def resetPc : Word := BitVec.ofNat 32 codeBase

/-- `MAILBOX_ADDR`: the data region's first word (R3, R152). -/
abbrev mailboxAddr : Nat := dataBase

/-- `NREGS` (R4, D2). -/
abbrev nregs : Nat := 16

/-- `DATA_IMAGE`: what the host writes with `writeMemory` before the first step (R4, D29); the default is empty. -/
def dataImage : List (Nat × List Byte) := []

end Sys2Proof.Config
end

