-- ==== Sys2Proof/Syntax.lean ====
section
/-! DEFINITION. The instructions: one constructor for each of the 28 rows of spec/opcode_table.json
(spec/30_encoding.md R54), the condition names of R55, and the source statements of R59. -/

namespace Sys2Proof

/-- The condition of a branch (R55). Number 15 is reserved and is no condition. -/
inductive Cond where
  | eq | ne | cs | cc | mi | pl | vs | vc | hi | ls | ge | lt | gt | le | al
deriving DecidableEq, Repr

/-- One instruction with its field values (R54). The fields have exactly the widths of R51, and every
value of every field is legal, so no term of this type is ill formed. -/
inductive Instr where
  /-- `HLT` (R135). -/
  | hlt
  /-- `MOV Rd, #imm20` (R85). -/
  | movImm (d : RegNum) (imm : Imm20)
  /-- `MOV Rd, Rm` (R86). -/
  | movReg (d m : RegNum)
  /-- `ADD Rd, Rn, Rm` (R91). -/
  | addReg (d n m : RegNum)
  /-- `ADD Rd, Rn, #imm16` (R92). -/
  | addImm (d n : RegNum) (imm : Imm16)
  /-- `SUB Rd, Rn, Rm` (R93). -/
  | subReg (d n m : RegNum)
  /-- `SUB Rd, Rn, #imm16` (R94). -/
  | subImm (d n : RegNum) (imm : Imm16)
  /-- `CMP Rn, Rm` (R95). -/
  | cmpReg (n m : RegNum)
  /-- `CMP Rn, #imm16` (R96). -/
  | cmpImm (n : RegNum) (imm : Imm16)
  /-- `LDR Rt, [#abs20]` (R106). -/
  | ldrAbs (t : RegNum) (abs : Imm20)
  /-- `LDR Rt, [Rn, #off16]` (R107). -/
  | ldrOff (t n : RegNum) (off : Imm16)
  /-- `STR Rt, [#abs20]` (R108). -/
  | strAbs (t : RegNum) (abs : Imm20)
  /-- `STR Rt, [Rn, #off16]` (R109). -/
  | strOff (t n : RegNum) (off : Imm16)
  /-- `BEQ target` (R117). -/
  | beq (target : Imm20)
  /-- `BNE target` (R118). -/
  | bne (target : Imm20)
  /-- `BCS target`, also spelled `BHS` (R119). -/
  | bcs (target : Imm20)
  /-- `BCC target`, also spelled `BLO` (R120). -/
  | bcc (target : Imm20)
  /-- `BMI target` (R121). -/
  | bmi (target : Imm20)
  /-- `BPL target` (R122). -/
  | bpl (target : Imm20)
  /-- `BVS target` (R123). -/
  | bvs (target : Imm20)
  /-- `BVC target` (R124). -/
  | bvc (target : Imm20)
  /-- `BHI target` (R125). -/
  | bhi (target : Imm20)
  /-- `BLS target` (R126). -/
  | bls (target : Imm20)
  /-- `BGE target` (R127). -/
  | bge (target : Imm20)
  /-- `BLT target` (R128). -/
  | blt (target : Imm20)
  /-- `BGT target` (R129). -/
  | bgt (target : Imm20)
  /-- `BLE target` (R130). -/
  | ble (target : Imm20)
  /-- `B target` (R116). -/
  | b (target : Imm20)
deriving DecidableEq, Repr

/-- The two arithmetic operations that have a destination (R91 to R94). -/
inductive AluOp where
  | add | sub
deriving DecidableEq, Repr

/-- The direction of a data access (R106 to R109). -/
inductive MemDir where
  | load | store
deriving DecidableEq, Repr

/-- A branch target as written: a label or a number (R59). -/
inductive Target where
  | label (name : List Char)
  | addr (v : Int)
deriving DecidableEq, Repr

/-- One source statement as written, before the range checks of R61: register numbers and immediates are
unbounded numbers here, and `Stmt.wellFormed` says which of them a field can hold (R53). -/
inductive Stmt where
  | hlt
  | movImm (d : Nat) (imm : Int)
  | movReg (d m : Nat)
  | alu (op : AluOp) (d n m : Nat)
  | aluImm (op : AluOp) (d n : Nat) (imm : Int)
  | cmpReg (n m : Nat)
  | cmpImm (n : Nat) (imm : Int)
  | memAbs (dir : MemDir) (t : Nat) (abs : Int)
  | memOff (dir : MemDir) (t n : Nat) (off : Int)
  | branch (c : Cond) (target : Target)
deriving DecidableEq, Repr

end Sys2Proof
end

