-- ==== Sys2Proof/Machine/State.lean ====
section
/-! DEFINITION. Everything the spec gives the machine, as plain data (spec/10_state.md), and the state right after
reset (R26). -/

namespace Sys2Proof.Machine

/-- Why a step could stop WITHOUT a next state. There is no such reason: every fault of the spec is entered
as a state, with `run_state` = Faulted and the fault record set (R145), so no step of this model answers
`.fault` (safe; assumption log 1). The two faults of the spec are `FaultRecord` below. -/
inductive Fault where
deriving DecidableEq, Repr

/-- Why an operation is refused. A refused operation changes nothing (R149). -/
inductive Refusal where
  /-- An instruction this model gives no meaning; raised only by an arm of `exec`. No arm raises it (safe). -/
  | notModelled (mnemonic : String)
  /-- `NotReadyError`: raised by `step` and by a host operation in a run state where it is not valid (R149,
  R157). Safe: the spec refuses there too. -/
  | notReady
  /-- `NothingToUndoError`: raised by `stepBack` when the history is empty (R149, R154). Safe: the spec refuses there too. -/
  | nothingToUndo
  /-- `LoadRangeError`: raised by `loadCode` with more than 1024 words (R173). Safe: the spec refuses there too. -/
  | loadRange
  /-- The host error of kind `MemoryFault`: raised by `readMemory` and `writeMemory` on a range not wholly inside
  one region; it is not a fault of a step (R45). Safe: the spec refuses there too. -/
  | memoryRange
deriving DecidableEq, Repr

/-- The flags register: four independent bits (R16). -/
structure Flags where
  n : Bool
  z : Bool
  c : Bool
  v : Bool
deriving DecidableEq, Repr

/-- The run state (R19). -/
inductive RunState where
  | uninitialized | ready | running | halted | faulted
deriving DecidableEq, Repr

/-- The two kinds of fault (R140). -/
inductive FaultKind where
  | decodeFault | memoryFault
deriving DecidableEq, Repr

/-- The cause sub-codes of the two faults (R20, R140). -/
inductive FaultCause where
  | absent | invalid | misaligned | outOfRange
deriving DecidableEq, Repr

/-- The two causes of a `MemoryFault` (R33). -/
inductive MemCause where
  | misaligned | outOfRange
deriving DecidableEq, Repr

/-- The fault record (R20): one constructor for each shape, so that a field the rule calls absent is absent. -/
inductive FaultRecord where
  /-- `DecodeFault(absent)`: no instruction stands at `pc` (R41). -/
  | decodeAbsent (pc : Word)
  /-- `DecodeFault(invalid)`: the fetched word is no instruction (R56). -/
  | decodeInvalid (pc word : Word)
  /-- `MemoryFault`: the data access was not admitted (R33). -/
  | memory (cause : MemCause) (pc word addr : Word) (isStore : Bool)
deriving DecidableEq, Repr

/-- The three memories of one address space as one list of (address, byte), addresses rising, holding only
the bytes that are not the reset byte 0x00 (R23, R26, R30; assumption log 6). -/
abbrev Memory := List Host.Cell

/-- A step record: what a committed step wrote, with the values before it (R76). -/
structure StepRecord where
  oldPc : Word
  oldRunState : RunState
  oldReg : Option (RegNum × Word)
  oldFlags : Option Flags
  oldBytes : Option (Word × List Byte)
deriving DecidableEq, Repr

/-- One committed store, as an observer sees it (R39). -/
structure StoreEvent where
  addr : Word
  value : Word
deriving DecidableEq, Repr

/-- The whole machine (10_state.md sections 1 to 7). -/
structure State where
  /-- `R0` .. `R15` (R10). -/
  regs : Vector Word 16
  /-- The program counter (R13). -/
  pc : Word
  /-- `N Z C V` (R16). -/
  flags : Flags
  /-- `code`, `stack` and `data` (R23). -/
  mem : Memory
  /-- `run_state` (R19). -/
  runState : RunState
  /-- The fault record; `none` is empty (R20). -/
  faultRecord : Option FaultRecord
  /-- `code_len`, the number of words of the last `loadCode` (R21). -/
  codeLen : Nat
  /-- The history, newest record first, without a limit (R24, R153; assumption log 8). -/
  history : List StepRecord
  /-- The store-event trace, in program order (R25, R39; assumption log 7). -/
  storeEvents : List StoreEvent
deriving DecidableEq, Repr

/-- All four flags clear (R26). -/
def Flags.clear : Flags := ⟨false, false, false, false⟩

/-- The machine right after `reset()` (R26, R170). -/
def State.reset : State where
  regs := Vector.replicate 16 0
  pc := Config.resetPc
  flags := Flags.clear
  mem := []
  runState := .ready
  faultRecord := none
  codeLen := 0
  history := []
  storeEvents := []

end Sys2Proof.Machine
end

