-- ==== Sys2Proof/Machine/Flags.lean ====
section
/-! DEFINITION. The ALU with its four flags (spec/42_arithmetic.md R90), the conditions over them (spec/44_branch.md
R115) and their packed form (spec/10_state.md R18). -/

namespace Sys2Proof.Machine

/-- `AddWithCarry(a, b, cin)`: the 32-bit result and the flags, from the unbounded sums (R90). -/
def addWithCarry (a b : Word) (cin : Bool) : Word × Flags :=
  let usum : Nat := a.toNat + b.toNat + cin.toNat
  let ssum : Int := a.toInt + b.toInt + cin.toNat
  let result : Word := BitVec.ofNat 32 usum
  (result,
   { n := result.msb
     z := decide (result = 0)
     c := decide (2 ^ 32 ≤ usum)
     v := decide (ssum < -2 ^ 31 ∨ 2 ^ 31 - 1 < ssum) })

/-- Addition is `AddWithCarry(a, b, 0)` (R90). -/
def aluAdd (a b : Word) : Word × Flags := addWithCarry a b false

/-- Subtraction `a - b` is `AddWithCarry(a, NOT b, 1)`; the carry means no borrow (R90, D7). -/
def aluSub (a b : Word) : Word × Flags := addWithCarry a (~~~b) true

/-- `CondHolds(cond)` over the flags before the step (R115). -/
def condHolds : Cond → Flags → Bool
  | .eq, f => f.z
  | .ne, f => !f.z
  | .cs, f => f.c
  | .cc, f => !f.c
  | .mi, f => f.n
  | .pl, f => !f.n
  | .vs, f => f.v
  | .vc, f => !f.v
  | .hi, f => f.c && !f.z
  | .ls, f => !f.c || f.z
  | .ge, f => f.n == f.v
  | .lt, f => f.n != f.v
  | .gt, f => !f.z && f.n == f.v
  | .le, f => f.z || f.n != f.v
  | .al, _ => true

/-- The flags packed into one number, `N ++ Z ++ C ++ V` with `N` in bit 3, the upper bits zero (R18). -/
def Flags.pack (f : Flags) : Word :=
  (BitVec.ofBool f.n).setWidth 32 <<< 3 ||| (BitVec.ofBool f.z).setWidth 32 <<< 2 |||
    (BitVec.ofBool f.c).setWidth 32 <<< 1 ||| (BitVec.ofBool f.v).setWidth 32

end Sys2Proof.Machine
end

