-- ==== Sys2Proof/WellFormed.lean ====
section
/-! DEFINITION. What is well formed: a source statement whose numbers fit their fields (spec/30_encoding.md R53,
R61), and a word that is an instruction (R54, R56, by the table's match and mask). A term of `Instr` has
fields of exactly R51's widths and needs no check. -/

namespace Sys2Proof

/-- A register number that exists: `R0` .. `R15` (R10, R61). -/
def regInRange (n : Nat) : Bool := decide (n < Config.nregs)

/-- The range of `imm20`, `abs20` and `target20` as written (R53). -/
def fitsU20 (v : Int) : Bool := decide (0 ≤ v ∧ v ≤ 0xFFFFF)

/-- The range of `imm16` as written (R53). -/
def fitsU16 (v : Int) : Bool := decide (0 ≤ v ∧ v ≤ 0xFFFF)

/-- The range of `off16` as written (R53). -/
def fitsS16 (v : Int) : Bool := decide (-32768 ≤ v ∧ v ≤ 32767)

/-- A target that can be encoded; a label is checked when it has been resolved (R60, R61). -/
def Target.inRange : Target → Bool
  | .label _ => true
  | .addr v => fitsU20 v

/-- Every number of the statement is in its field's range (R53, R61). -/
def Stmt.wellFormed : Stmt → Bool
  | .hlt => true
  | .movImm d imm => regInRange d && fitsU20 imm
  | .movReg d m => regInRange d && regInRange m
  | .alu _ d n m => regInRange d && regInRange n && regInRange m
  | .aluImm _ d n imm => regInRange d && regInRange n && fitsU16 imm
  | .cmpReg n m => regInRange n && regInRange m
  | .cmpImm n imm => regInRange n && fitsU16 imm
  | .memAbs _ t abs => regInRange t && fitsU20 abs
  | .memOff _ t n off => regInRange t && regInRange n && fitsS16 off
  | .branch _ target => target.inRange

/-- One row of the opcode map: a word is this instruction iff `w AND mask = pattern` (R54, columns match and mask). -/
structure OpRow where
  pattern : Word
  mask : Word
deriving DecidableEq, Repr

/-- The opcode map of R54, in the table's order: 13 rows with a fixed opcode, then the 15 branches. -/
def opcodeRows : List OpRow :=
  [⟨0x01000000, 0xFFFFFFFF⟩, ⟨0x10000000, 0xFF000000⟩, ⟨0x11000000, 0xFF0F0FFF⟩,
   ⟨0x20000000, 0xFF000FFF⟩, ⟨0x21000000, 0xFF000000⟩, ⟨0x22000000, 0xFF000FFF⟩,
   ⟨0x23000000, 0xFF000000⟩, ⟨0x24000000, 0xFFF00FFF⟩, ⟨0x25000000, 0xFFF00000⟩,
   ⟨0x30000000, 0xFF000000⟩, ⟨0x31000000, 0xFF000000⟩, ⟨0x32000000, 0xFF000000⟩,
   ⟨0x33000000, 0xFF000000⟩] ++
  [⟨0x40000000, 0xFFF00000⟩, ⟨0x40100000, 0xFFF00000⟩, ⟨0x40200000, 0xFFF00000⟩,
   ⟨0x40300000, 0xFFF00000⟩, ⟨0x40400000, 0xFFF00000⟩, ⟨0x40500000, 0xFFF00000⟩,
   ⟨0x40600000, 0xFFF00000⟩, ⟨0x40700000, 0xFFF00000⟩, ⟨0x40800000, 0xFFF00000⟩,
   ⟨0x40900000, 0xFFF00000⟩, ⟨0x40A00000, 0xFFF00000⟩, ⟨0x40B00000, 0xFFF00000⟩,
   ⟨0x40C00000, 0xFFF00000⟩, ⟨0x40D00000, 0xFFF00000⟩, ⟨0x40E00000, 0xFFF00000⟩]

/-- The row of the opcode map that an instruction stands in (R54). -/
def Instr.row : Instr → OpRow
  | .hlt => ⟨0x01000000, 0xFFFFFFFF⟩
  | .movImm _ _ => ⟨0x10000000, 0xFF000000⟩
  | .movReg _ _ => ⟨0x11000000, 0xFF0F0FFF⟩
  | .addReg _ _ _ => ⟨0x20000000, 0xFF000FFF⟩
  | .addImm _ _ _ => ⟨0x21000000, 0xFF000000⟩
  | .subReg _ _ _ => ⟨0x22000000, 0xFF000FFF⟩
  | .subImm _ _ _ => ⟨0x23000000, 0xFF000000⟩
  | .cmpReg _ _ => ⟨0x24000000, 0xFFF00FFF⟩
  | .cmpImm _ _ => ⟨0x25000000, 0xFFF00000⟩
  | .ldrAbs _ _ => ⟨0x30000000, 0xFF000000⟩
  | .ldrOff _ _ _ => ⟨0x31000000, 0xFF000000⟩
  | .strAbs _ _ => ⟨0x32000000, 0xFF000000⟩
  | .strOff _ _ _ => ⟨0x33000000, 0xFF000000⟩
  | .beq _ => ⟨0x40000000, 0xFFF00000⟩
  | .bne _ => ⟨0x40100000, 0xFFF00000⟩
  | .bcs _ => ⟨0x40200000, 0xFFF00000⟩
  | .bcc _ => ⟨0x40300000, 0xFFF00000⟩
  | .bmi _ => ⟨0x40400000, 0xFFF00000⟩
  | .bpl _ => ⟨0x40500000, 0xFFF00000⟩
  | .bvs _ => ⟨0x40600000, 0xFFF00000⟩
  | .bvc _ => ⟨0x40700000, 0xFFF00000⟩
  | .bhi _ => ⟨0x40800000, 0xFFF00000⟩
  | .bls _ => ⟨0x40900000, 0xFFF00000⟩
  | .bge _ => ⟨0x40A00000, 0xFFF00000⟩
  | .blt _ => ⟨0x40B00000, 0xFFF00000⟩
  | .bgt _ => ⟨0x40C00000, 0xFFF00000⟩
  | .ble _ => ⟨0x40D00000, 0xFFF00000⟩
  | .b _ => ⟨0x40E00000, 0xFFF00000⟩

/-- The word is the row's instruction (R54). -/
def OpRow.covers (r : OpRow) (w : Word) : Bool := (w &&& r.mask) == r.pattern

/-- The word matches some row; a word that matches none is invalid (R56). -/
def validWord (w : Word) : Bool := opcodeRows.any (fun r => r.covers w)

end Sys2Proof
end

