-- ==== Sys2Proof/Decode.lean ====
section
/-! DEFINITION. The decoder (spec/30_encoding.md R51, R52, R54 to R58), total on any word and on any bytes, and after
it the encoder (R63). -/

namespace Sys2Proof

/-! ## Fields of a word (R51) -/

/-- `op` = `W[31:24]` (R51). -/
def opField (w : Word) : BitVec 8 := w.extractLsb' 24 8

/-- `ra` = `W[23:20]`: `Rd`, `Rt` or the condition (R51). -/
def raField (w : Word) : BitVec 4 := w.extractLsb' 20 4

/-- `rb` = `W[19:16]`: `Rn` (R51). -/
def rbField (w : Word) : BitVec 4 := w.extractLsb' 16 4

/-- `rc` = `W[15:12]`: `Rm` (R51). -/
def rcField (w : Word) : BitVec 4 := w.extractLsb' 12 4

/-- `z12` = `W[11:0]`: must be zero where a format names it (R51). -/
def z12Field (w : Word) : BitVec 12 := w.extractLsb' 0 12

/-- `imm16` / `off16` = `W[15:0]` (R51). -/
def imm16Field (w : Word) : Imm16 := w.extractLsb' 0 16

/-- `imm20` / `abs20` / `target20` = `W[19:0]` (R51). -/
def imm20Field (w : Word) : Imm20 := w.extractLsb' 0 20

/-- `z24` = `W[23:0]`: must be zero in format N (R51). -/
def z24Field (w : Word) : BitVec 24 := w.extractLsb' 0 24

/-! ## Conditions (R55) -/

/-- The number of a condition (R55). -/
def Cond.code : Cond → BitVec 4
  | .eq => 0 | .ne => 1 | .cs => 2 | .cc => 3 | .mi => 4 | .pl => 5 | .vs => 6 | .vc => 7
  | .hi => 8 | .ls => 9 | .ge => 10 | .lt => 11 | .gt => 12 | .le => 13 | .al => 14

/-- The condition with a number; 15 is reserved (R55, R56). -/
def Cond.ofCode (k : BitVec 4) : Option Cond :=
  match k.toNat with
  | 0 => some .eq | 1 => some .ne | 2 => some .cs | 3 => some .cc
  | 4 => some .mi | 5 => some .pl | 6 => some .vs | 7 => some .vc
  | 8 => some .hi | 9 => some .ls | 10 => some .ge | 11 => some .lt
  | 12 => some .gt | 13 => some .le | 14 => some .al
  | _ => none

/-- The branch instruction with a given condition (R116 to R130). -/
def branchInstr : Cond → Imm20 → Instr
  | .eq, t => .beq t | .ne, t => .bne t | .cs, t => .bcs t | .cc, t => .bcc t
  | .mi, t => .bmi t | .pl, t => .bpl t | .vs, t => .bvs t | .vc, t => .bvc t
  | .hi, t => .bhi t | .ls, t => .bls t | .ge, t => .bge t | .lt, t => .blt t
  | .gt, t => .bgt t | .le, t => .ble t | .al, t => .b t

/-! ## Decode -/

/-- Decode one word; `none` is an invalid word (R54, R56, R58). A must-be-zero field that is not zero is
invalid (D13). -/
def decode (w : Word) : Option Instr :=
  match (opField w).toNat with
  | 0x01 => if z24Field w = 0 then some .hlt else none
  | 0x10 => some (.movImm (raField w) (imm20Field w))
  | 0x11 => if rbField w = 0 ∧ z12Field w = 0 then some (.movReg (raField w) (rcField w)) else none
  | 0x20 => if z12Field w = 0 then some (.addReg (raField w) (rbField w) (rcField w)) else none
  | 0x21 => some (.addImm (raField w) (rbField w) (imm16Field w))
  | 0x22 => if z12Field w = 0 then some (.subReg (raField w) (rbField w) (rcField w)) else none
  | 0x23 => some (.subImm (raField w) (rbField w) (imm16Field w))
  | 0x24 => if raField w = 0 ∧ z12Field w = 0 then some (.cmpReg (rbField w) (rcField w)) else none
  | 0x25 => if raField w = 0 then some (.cmpImm (rbField w) (imm16Field w)) else none
  | 0x30 => some (.ldrAbs (raField w) (imm20Field w))
  | 0x31 => some (.ldrOff (raField w) (rbField w) (imm16Field w))
  | 0x32 => some (.strAbs (raField w) (imm20Field w))
  | 0x33 => some (.strOff (raField w) (rbField w) (imm16Field w))
  | 0x40 => (Cond.ofCode (raField w)).map (fun c => branchInstr c (imm20Field w))
  | _ => none

/-! ## Byte order (R34) -/

/-- Byte `k` of a word: bits `8k+7 : 8k` (R34). -/
def byteOfWord (w : Word) (k : Nat) : Byte := w.extractLsb' (8 * k) 8

/-- The four bytes of a word, the one at the lowest address first: little-endian (R34). -/
def bytesOfWord (w : Word) : List Byte := [byteOfWord w 0, byteOfWord w 1, byteOfWord w 2, byteOfWord w 3]

/-- The word whose bytes stand at `addr` .. `addr+3` in this order: little-endian (R34). -/
def wordOfBytes (b0 b1 b2 b3 : Byte) : Word :=
  b3.setWidth 32 <<< 24 ||| b2.setWidth 32 <<< 16 ||| b1.setWidth 32 <<< 8 ||| b0.setWidth 32

/-- Decode the instruction that stands at the head of a sequence of bytes, with the bytes after it. Every
instruction is four bytes (R50); fewer bytes, or an invalid word, give `none`. -/
def decodeBytes : List Byte → Option (Instr × List Byte)
  | b0 :: b1 :: b2 :: b3 :: rest => (decode (wordOfBytes b0 b1 b2 b3)).map (fun i => (i, rest))
  | _ => none

/-! ## Encode (R63) -/

/-- Formats A and B: `op | ra<<20 | imm20` (R52, R63). -/
def packA (op : BitVec 8) (ra : BitVec 4) (imm : Imm20) : Word :=
  op.setWidth 32 <<< 24 ||| ra.setWidth 32 <<< 20 ||| imm.setWidth 32

/-- Formats R3, R2D and R2N: `op | ra<<20 | rb<<16 | rc<<12` (R52, R63). -/
def packR (op : BitVec 8) (ra rb rc : BitVec 4) : Word :=
  op.setWidth 32 <<< 24 ||| ra.setWidth 32 <<< 20 ||| rb.setWidth 32 <<< 16 ||| rc.setWidth 32 <<< 12

/-- Formats I and IN: `op | ra<<20 | rb<<16 | imm16` (R52, R63). -/
def packI (op : BitVec 8) (ra rb : BitVec 4) (imm : Imm16) : Word :=
  op.setWidth 32 <<< 24 ||| ra.setWidth 32 <<< 20 ||| rb.setWidth 32 <<< 16 ||| imm.setWidth 32

/-- A branch word: `0x40000000 | cond<<20 | target` (R63). -/
def encodeBranch (c : Cond) (target : Imm20) : Word := packA 0x40 c.code target

/-- The word of an instruction (R63). -/
def encode : Instr → Word
  | .hlt => 0x01000000
  | .movImm d imm => packA 0x10 d imm
  | .movReg d m => packR 0x11 d 0 m
  | .addReg d n m => packR 0x20 d n m
  | .addImm d n imm => packI 0x21 d n imm
  | .subReg d n m => packR 0x22 d n m
  | .subImm d n imm => packI 0x23 d n imm
  | .cmpReg n m => packR 0x24 0 n m
  | .cmpImm n imm => packI 0x25 0 n imm
  | .ldrAbs t abs => packA 0x30 t abs
  | .ldrOff t n off => packI 0x31 t n off
  | .strAbs t abs => packA 0x32 t abs
  | .strOff t n off => packI 0x33 t n off
  | .beq t => encodeBranch .eq t
  | .bne t => encodeBranch .ne t
  | .bcs t => encodeBranch .cs t
  | .bcc t => encodeBranch .cc t
  | .bmi t => encodeBranch .mi t
  | .bpl t => encodeBranch .pl t
  | .bvs t => encodeBranch .vs t
  | .bvc t => encodeBranch .vc t
  | .bhi t => encodeBranch .hi t
  | .bls t => encodeBranch .ls t
  | .bge t => encodeBranch .ge t
  | .blt t => encodeBranch .lt t
  | .bgt t => encodeBranch .gt t
  | .ble t => encodeBranch .le t
  | .b t => encodeBranch .al t

/-- The bytes of an instruction as they stand in memory, lowest address first (R50). -/
def encodeBytes (i : Instr) : List Byte := bytesOfWord (encode i)

/-! ## The opcode table's numbering -/

/-- The word of `nbits` bits that spec/opcode_table.json numbers with bit 0 the least significant; the bits above are zero. -/
def tableWord (nbits w : Nat) : Word := BitVec.ofNat 32 (w % 2 ^ nbits)

/-- What the decoder reads from an instruction word of the table, laid out as the hardware stores it (R50). -/
def decodeTableWord (nbits w : Nat) : Option Instr :=
  (decodeBytes (bytesOfWord (tableWord nbits w))).map Prod.fst

end Sys2Proof
end

