-- ==== Sys2Proof/Machine/Ops.lean ====
section
/-! DEFINITION. The named operations over registers and memory, the commit of a step, and fault entry: the
primitives of spec/00_scope.md R6, by which alone an instruction touches state. -/

namespace Sys2Proof.Machine

/-! ## General registers (R10, R12) -/

/-- `x[i]` (R6, R10). -/
def getReg (s : State) (r : RegNum) : Word := s.regs[r.toNat]'r.isLt

/-- The register file after `x[i] <- v`; all 32 bits are written (R12). -/
def setReg (regs : Vector Word 16) (r : RegNum) (v : Word) : Vector Word 16 := regs.set r.toNat v r.isLt

/-! ## The address map (R31, R32) -/

/-- The three backed regions (R31). -/
inductive Region where
  | code | stack | data
deriving DecidableEq, Repr

/-- The base address of a region (R31). -/
def Region.base : Region → Nat
  | .code => Config.codeBase
  | .stack => Config.stackBase
  | .data => Config.dataBase

/-- The size of a region in bytes (R31). -/
def Region.bytes : Region → Nat
  | .code => Config.codeBytes
  | .stack => Config.stackBytes
  | .data => Config.dataBytes

/-- `InRegion`: the `n` bytes at `addr` lie wholly inside the region, in unbounded arithmetic (R32). -/
def inRegion (addr n : Nat) (r : Region) : Bool := decide (r.base ≤ addr ∧ addr + n ≤ r.base + r.bytes)

/-- `Region(addr, n)`; `none` is unmapped (R32). -/
def regionOf (addr n : Nat) : Option Region :=
  if inRegion addr n .code then some .code
  else if inRegion addr n .stack then some .stack
  else if inRegion addr n .data then some .data
  else none

/-- The byte address is backed by a region (R30, R47). -/
def backed (a : Nat) : Bool := (regionOf a 1).isSome

/-! ## Bytes of memory (R23, R34, R38) -/

/-- The byte listed at an address, or the reset byte 0x00 (R26). -/
def Memory.byte : Memory → Nat → Byte
  | [], _ => 0
  | (a, b) :: m, x => if a = x then b else Memory.byte m x

/-- Store one byte, keeping the canonical form: the reset byte is not listed (assumption log 6). -/
def Memory.setByte : Memory → Nat → Byte → Memory
  | [], x, v => if v = 0 then [] else [(x, v)]
  | (a, b) :: m, x, v =>
    if x < a then (if v = 0 then (a, b) :: m else (x, v) :: (a, b) :: m)
    else if x = a then (if v = 0 then m else (x, v) :: m)
    else (a, b) :: Memory.setByte m x v

/-- Store bytes at rising addresses from `x`. -/
def Memory.writeBytes (m : Memory) (x : Nat) : List Byte → Memory
  | [] => m
  | v :: vs => Memory.writeBytes (m.setByte x v) (x + 1) vs

/-- The `n` bytes from address `x` up. -/
def Memory.readBytes (m : Memory) (x : Nat) : Nat → List Byte
  | 0 => []
  | n + 1 => m.byte x :: Memory.readBytes m (x + 1) n

/-- Zero the `n` bytes from `x` (used by `loadCode`, R173). -/
def Memory.zeroRange (m : Memory) (x n : Nat) : Memory := m.filter (fun c => !decide (x ≤ c.1 ∧ c.1 < x + n))

/-- The little-endian word at `x` .. `x+3` (R34). -/
def Memory.wordAt (m : Memory) (x : Nat) : Word :=
  wordOfBytes (m.byte x) (m.byte (x + 1)) (m.byte (x + 2)) (m.byte (x + 3))

/-- Store a word little-endian at `x` .. `x+3` (R34). -/
def Memory.setWord (m : Memory) (x : Nat) (w : Word) : Memory := m.writeBytes x (bytesOfWord w)

/-- The canonical form: addresses strictly rising, no listed byte is the reset byte, every listed address is
backed (R23, R47; assumption log 6). -/
abbrev Memory.wf (m : Memory) : Prop :=
  m.Pairwise (fun c d => c.1 < d.1) ∧ ∀ c ∈ m, c.2 ≠ 0 ∧ backed c.1 = true

/-- The model's read of one byte: nothing stands at an unmapped address (R23, R47). -/
def byteAt (s : State) (a : Nat) : Option Byte := if backed a then some (s.mem.byte a) else none

/-! ## The admission check and the access primitives (R33, R34) -/

/-- `Admit(addr, n, _)`: the cause of the `MemoryFault`, alignment first, or `none` when the access is admitted (R33). -/
def admission (addr : Word) (n : Nat) : Option MemCause :=
  if addr.toNat % n ≠ 0 then some .misaligned
  else if regionOf addr.toNat n = none then some .outOfRange
  else none

/-- `MemRead(addr, 4)` (R34, R36). -/
def memRead (addr : Word) (s : State) : Except MemCause Word :=
  match admission addr Config.wordBytes with
  | some c => .error c
  | none => .ok (s.mem.wordAt addr.toNat)

/-! ## Effects and commit (R71, R73) -/

/-- The effect `E` of an instruction: what its step will write (R71 line 4, R74). -/
structure Effect where
  /-- At most one general register (R12). -/
  reg : Option (RegNum × Word) := none
  /-- All four flags, or none (R17). -/
  flags : Option Flags := none
  /-- The address and word of an admitted store (R34). -/
  store : Option (Word × Word) := none
  /-- The next program counter (R14). -/
  nextPc : Word
  /-- The instruction is `HLT` (R135). -/
  halts : Bool := false
deriving DecidableEq, Repr

/-- The program counter of a sequential instruction: `(pc + 4) mod 2^32` (R14). -/
def seqPc (s : State) : Word := s.pc + 4

/-- The step record of an effect: every location it writes, with the value before the step (R76). -/
def stepRecord (e : Effect) (s : State) : StepRecord where
  oldPc := s.pc
  oldRunState := s.runState
  oldReg := e.reg.map (fun rv => (rv.1, getReg s rv.1))
  oldFlags := e.flags.map (fun _ => s.flags)
  oldBytes := e.store.map (fun av => (av.1, s.mem.readBytes av.1.toNat Config.wordBytes))

/-- The general registers after an effect (R12). -/
def regsAfter (e : Effect) (s : State) : Vector Word 16 :=
  match e.reg with
  | some (r, v) => setReg s.regs r v
  | none => s.regs

/-- The memory after an effect (R34). -/
def memAfter (e : Effect) (s : State) : Memory :=
  match e.store with
  | some (a, v) => s.mem.setWord a.toNat v
  | none => s.mem

/-- The store events after an effect: one more for a store, whether or not the bytes differ (R39). -/
def eventsAfter (e : Effect) (s : State) : List StoreEvent :=
  match e.store with
  | some (a, v) => s.storeEvents ++ [⟨a, v⟩]
  | none => s.storeEvents

/-- The run state after an effect (R75). -/
def runStateAfter (e : Effect) : RunState := if e.halts then .halted else .running

/-- Commit: push the step record and apply every write of the effect together, all computed from the
state before the step (R71 lines 5 and 6, R73, R153). -/
def commit (e : Effect) (s : State) : State where
  regs := regsAfter e s
  pc := e.nextPc
  flags := e.flags.getD s.flags
  mem := memAfter e s
  runState := runStateAfter e
  faultRecord := s.faultRecord
  codeLen := s.codeLen
  history := stepRecord e s :: s.history
  storeEvents := eventsAfter e s

/-! ## Faults (R20, R140, R145) -/

/-- `kind` of a fault record (R20). -/
def FaultRecord.kind : FaultRecord → FaultKind
  | .decodeAbsent _ => .decodeFault
  | .decodeInvalid _ _ => .decodeFault
  | .memory _ _ _ _ _ => .memoryFault

/-- `cause` of a fault record (R20). -/
def FaultRecord.cause : FaultRecord → FaultCause
  | .decodeAbsent _ => .absent
  | .decodeInvalid _ _ => .invalid
  | .memory .misaligned _ _ _ _ => .misaligned
  | .memory .outOfRange _ _ _ _ => .outOfRange

/-- `pc` of a fault record (R20). -/
def FaultRecord.pc : FaultRecord → Word
  | .decodeAbsent pc => pc
  | .decodeInvalid pc _ => pc
  | .memory _ pc _ _ _ => pc

/-- `word` of a fault record, absent for `DecodeFault(absent)` (R20). -/
def FaultRecord.word : FaultRecord → Option Word
  | .decodeAbsent _ => none
  | .decodeInvalid _ w => some w
  | .memory _ _ w _ _ => some w

/-- `addr` of a fault record, for `MemoryFault` only (R20). -/
def FaultRecord.addr : FaultRecord → Option Word
  | .decodeAbsent _ => none
  | .decodeInvalid _ _ => none
  | .memory _ _ _ a _ => some a

/-- `is_store` of a fault record, for `MemoryFault` only (R20). -/
def FaultRecord.isStore : FaultRecord → Option Bool
  | .decodeAbsent _ => none
  | .decodeInvalid _ _ => none
  | .memory _ _ _ _ st => some st

/-- Fault entry, the one shared operation: `run_state` and the fault record change, nothing else (R145). There is no
return from a fault but `reset()` (R146, R147). -/
def enterFault (r : FaultRecord) (s : State) : State := { s with runState := .faulted, faultRecord := some r }

/-- The `MemoryFault` of a load or store. The record's `word` is the instruction's word, which is the word that was
fetched, since decode and encode are inverse (R20, R58; assumption log 5). -/
def memoryFault (i : Instr) (c : MemCause) (addr : Word) (isStore : Bool) (s : State) : State :=
  enterFault (.memory c s.pc (encode i) addr isStore) s

/-! ## Load and store (R106 to R109) -/

/-- What the two `LDR` forms share: `MemRead` at the effective address, then the register and `pc` (R106, R107). -/
def load (i : Instr) (t : RegNum) (ea : Word) (s : State) : State :=
  match memRead ea s with
  | .error c => memoryFault i c ea false s
  | .ok v => commit { reg := some (t, v), nextPc := seqPc s } s

/-- What the two `STR` forms share: the admission check, then the four bytes and `pc` (R108, R109). -/
def store (i : Instr) (t : RegNum) (ea : Word) (s : State) : State :=
  match admission ea Config.wordBytes with
  | some c => memoryFault i c ea true s
  | none => commit { store := some (ea, getReg s t), nextPc := seqPc s } s

/-! ## Fetch and the admission of a step (R41, R70) -/

/-- `step()` is performed only in `Ready` and `Running` (R70). -/
def RunState.canStep : RunState → Bool
  | .ready => true
  | .running => true
  | .uninitialized => false
  | .halted => false
  | .faulted => false

/-- A loaded instruction stands at `pc`: aligned, not below `CODE_BASE`, not past the loaded code (R41; for a
`code_len` above 1024, assumption log 17). -/
def fetchable (s : State) : Bool :=
  decide (s.pc.toNat % 4 = 0 ∧ Config.codeBase ≤ s.pc.toNat ∧ s.pc.toNat < Config.codeBase + 4 * s.codeLen)

/-- `Fetch()`: the word at `pc`, or `none` where it raises `DecodeFault(absent)` (R41). -/
def fetch (s : State) : Option Word := if fetchable s then some (s.mem.wordAt s.pc.toNat) else none

/-- What a step finds at `pc`: the decoded instruction, or the record of the `DecodeFault` (R71 lines 2 and 3, R143). -/
def fetchDecode (s : State) : Except FaultRecord Instr :=
  match fetch s with
  | none => .error (.decodeAbsent s.pc)
  | some w =>
    match decode w with
    | none => .error (.decodeInvalid s.pc w)
    | some i => .ok i

end Sys2Proof.Machine
end

