-- ==== Sys2Proof/Machine/Operands.lean ====
section
/-! DEFINITION. The operand forms: how each immediate becomes a 32-bit value (spec/30_encoding.md R53) and the two
addressing modes (spec/43_load_store.md R105). -/

namespace Sys2Proof.Machine

/-- `zext_20`: `imm20`, `abs20` and `target20` (R5, R53). -/
def zext20 (x : Imm20) : Word := x.setWidth 32

/-- `zext_16`: `imm16` (R5, R53). -/
def zext16 (x : Imm16) : Word := x.setWidth 32

/-- `sext_16`: `off16`, the only signed immediate (R5, R53). -/
def sext16 (x : Imm16) : Word := x.signExtend 32

/-- The effective address of `[#abs20]` (R105). -/
def eaAbs (abs : Imm20) : Word := zext20 abs

/-- The effective address of `[Rn, #off16]`; the sum wraps modulo 2^32 before the admission check (R105). -/
def eaOff (n : RegNum) (off : Imm16) (s : State) : Word := getReg s n + sext16 off

end Sys2Proof.Machine
end

