-- ==== Sys2Proof/Machine/Arithmetic.lean ====
section
/-! DEFINITION. The arithmetic and compare instructions (spec/42_arithmetic.md): all four flags are always written. -/

namespace Sys2Proof.Machine

/-- Commit an ALU result to a register, with its flags (R91 to R94). -/
def writeAlu (d : RegNum) (r : Word × Flags) (s : State) : State :=
  commit { reg := some (d, r.1), flags := some r.2, nextPc := seqPc s } s

/-- Commit the flags of an ALU result and discard the result (R95, R96). -/
def writeFlags (r : Word × Flags) (s : State) : State := commit { flags := some r.2, nextPc := seqPc s } s

/-- `ADD Rd, Rn, Rm` (R91). -/
def execAddReg (d n m : RegNum) (s : State) : Host.Outcome State Fault Refusal :=
  .next (writeAlu d (aluAdd (getReg s n) (getReg s m)) s)

/-- `ADD Rd, Rn, #imm16` (R92). -/
def execAddImm (d n : RegNum) (imm : Imm16) (s : State) : Host.Outcome State Fault Refusal :=
  .next (writeAlu d (aluAdd (getReg s n) (zext16 imm)) s)

/-- `SUB Rd, Rn, Rm` (R93). -/
def execSubReg (d n m : RegNum) (s : State) : Host.Outcome State Fault Refusal :=
  .next (writeAlu d (aluSub (getReg s n) (getReg s m)) s)

/-- `SUB Rd, Rn, #imm16` (R94). -/
def execSubImm (d n : RegNum) (imm : Imm16) (s : State) : Host.Outcome State Fault Refusal :=
  .next (writeAlu d (aluSub (getReg s n) (zext16 imm)) s)

/-- `CMP Rn, Rm` (R95). -/
def execCmpReg (n m : RegNum) (s : State) : Host.Outcome State Fault Refusal :=
  .next (writeFlags (aluSub (getReg s n) (getReg s m)) s)

/-- `CMP Rn, #imm16` (R96). -/
def execCmpImm (n : RegNum) (imm : Imm16) (s : State) : Host.Outcome State Fault Refusal :=
  .next (writeFlags (aluSub (getReg s n) (zext16 imm)) s)

end Sys2Proof.Machine
end

