-- ==== Sys2Proof/Machine/Branch.lean ====
section
/-! DEFINITION. The branch instructions (spec/44_branch.md): an absolute target that the branch does not check (R131),
no register and no flag written (R133). -/

namespace Sys2Proof.Machine

/-- The next `pc` of a branch: the target if the condition holds, else the next word (44_branch.md section 2). -/
def branchPc (c : Cond) (target : Imm20) (s : State) : Word :=
  if condHolds c s.flags then zext20 target else seqPc s

/-- What every branch does: it commits and writes `pc` alone (44_branch.md section 2, R131). -/
def branch (c : Cond) (target : Imm20) (s : State) : State := commit { nextPc := branchPc c target s } s

/-- `BEQ target` (R117). -/
def execBeq (target : Imm20) (s : State) : Host.Outcome State Fault Refusal := .next (branch .eq target s)

/-- `BNE target` (R118). -/
def execBne (target : Imm20) (s : State) : Host.Outcome State Fault Refusal := .next (branch .ne target s)

/-- `BCS target` (R119). -/
def execBcs (target : Imm20) (s : State) : Host.Outcome State Fault Refusal := .next (branch .cs target s)

/-- `BCC target` (R120). -/
def execBcc (target : Imm20) (s : State) : Host.Outcome State Fault Refusal := .next (branch .cc target s)

/-- `BMI target` (R121). -/
def execBmi (target : Imm20) (s : State) : Host.Outcome State Fault Refusal := .next (branch .mi target s)

/-- `BPL target` (R122). -/
def execBpl (target : Imm20) (s : State) : Host.Outcome State Fault Refusal := .next (branch .pl target s)

/-- `BVS target` (R123). -/
def execBvs (target : Imm20) (s : State) : Host.Outcome State Fault Refusal := .next (branch .vs target s)

/-- `BVC target` (R124). -/
def execBvc (target : Imm20) (s : State) : Host.Outcome State Fault Refusal := .next (branch .vc target s)

/-- `BHI target` (R125). -/
def execBhi (target : Imm20) (s : State) : Host.Outcome State Fault Refusal := .next (branch .hi target s)

/-- `BLS target` (R126). -/
def execBls (target : Imm20) (s : State) : Host.Outcome State Fault Refusal := .next (branch .ls target s)

/-- `BGE target` (R127). -/
def execBge (target : Imm20) (s : State) : Host.Outcome State Fault Refusal := .next (branch .ge target s)

/-- `BLT target` (R128). -/
def execBlt (target : Imm20) (s : State) : Host.Outcome State Fault Refusal := .next (branch .lt target s)

/-- `BGT target` (R129). -/
def execBgt (target : Imm20) (s : State) : Host.Outcome State Fault Refusal := .next (branch .gt target s)

/-- `BLE target` (R130). -/
def execBle (target : Imm20) (s : State) : Host.Outcome State Fault Refusal := .next (branch .le target s)

/-- `B target` (R116). -/
def execB (target : Imm20) (s : State) : Host.Outcome State Fault Refusal := .next (branch .al target s)

end Sys2Proof.Machine
end

