-- ==== Sys2Proof/Machine/LoadStore.lean ====
section
/-! DEFINITION. The load and store instructions (spec/43_load_store.md): one aligned word, no flag, no write-back. -/

namespace Sys2Proof.Machine

/-- `LDR Rt, [#abs20]` (R106). -/
def execLdrAbs (t : RegNum) (abs : Imm20) (s : State) : Host.Outcome State Fault Refusal :=
  .next (load (.ldrAbs t abs) t (eaAbs abs) s)

/-- `LDR Rt, [Rn, #off16]` (R107). -/
def execLdrOff (t n : RegNum) (off : Imm16) (s : State) : Host.Outcome State Fault Refusal :=
  .next (load (.ldrOff t n off) t (eaOff n off s) s)

/-- `STR Rt, [#abs20]` (R108). -/
def execStrAbs (t : RegNum) (abs : Imm20) (s : State) : Host.Outcome State Fault Refusal :=
  .next (store (.strAbs t abs) t (eaAbs abs) s)

/-- `STR Rt, [Rn, #off16]` (R109). -/
def execStrOff (t n : RegNum) (off : Imm16) (s : State) : Host.Outcome State Fault Refusal :=
  .next (store (.strOff t n off) t (eaOff n off s) s)

end Sys2Proof.Machine
end

