-- ==== Sys2Proof/Machine/Move.lean ====
section
/-! DEFINITION. The move instructions (spec/41_move.md): no flag is written (D8). -/

namespace Sys2Proof.Machine

/-- `MOV Rd, #imm20` (R85). -/
def execMovImm (d : RegNum) (imm : Imm20) (s : State) : Host.Outcome State Fault Refusal :=
  .next (commit { reg := some (d, zext20 imm), nextPc := seqPc s } s)

/-- `MOV Rd, Rm` (R86). -/
def execMovReg (d m : RegNum) (s : State) : Host.Outcome State Fault Refusal :=
  .next (commit { reg := some (d, getReg s m), nextPc := seqPc s } s)

end Sys2Proof.Machine
end

