-- ==== Sys2Proof/Machine/System.lean ====
section
/-! DEFINITION. The one system instruction (spec/45_system.md). -/

namespace Sys2Proof.Machine

/-- `HLT`: the step commits, `pc` stays on the `HLT` itself and the run state becomes `Halted` (R135). -/
def execHlt (s : State) : Host.Outcome State Fault Refusal := .next (commit { nextPc := s.pc, halts := true } s)

end Sys2Proof.Machine
end

