-- ==== Sys2Proof/Machine/Dispatch.lean ====
section
/-! DEFINITION. One arm per instruction: execute and commit, lines 4 to 6 of spec/40_step_cycle.md R71. -/

namespace Sys2Proof.Machine

/-- Execute and commit one decoded instruction (R71 lines 4 to 6). The run state is checked by `step` (R70). -/
def exec (i : Instr) (s : State) : Host.Outcome State Fault Refusal :=
  match i with
  | .hlt => Sys2Proof.Machine.execHlt s
  | .movImm d imm => Sys2Proof.Machine.execMovImm d imm s
  | .movReg d m => Sys2Proof.Machine.execMovReg d m s
  | .addReg d n m => Sys2Proof.Machine.execAddReg d n m s
  | .addImm d n imm => Sys2Proof.Machine.execAddImm d n imm s
  | .subReg d n m => Sys2Proof.Machine.execSubReg d n m s
  | .subImm d n imm => Sys2Proof.Machine.execSubImm d n imm s
  | .cmpReg n m => Sys2Proof.Machine.execCmpReg n m s
  | .cmpImm n imm => Sys2Proof.Machine.execCmpImm n imm s
  | .ldrAbs t abs => Sys2Proof.Machine.execLdrAbs t abs s
  | .ldrOff t n off => Sys2Proof.Machine.execLdrOff t n off s
  | .strAbs t abs => Sys2Proof.Machine.execStrAbs t abs s
  | .strOff t n off => Sys2Proof.Machine.execStrOff t n off s
  | .beq target => Sys2Proof.Machine.execBeq target s
  | .bne target => Sys2Proof.Machine.execBne target s
  | .bcs target => Sys2Proof.Machine.execBcs target s
  | .bcc target => Sys2Proof.Machine.execBcc target s
  | .bmi target => Sys2Proof.Machine.execBmi target s
  | .bpl target => Sys2Proof.Machine.execBpl target s
  | .bvs target => Sys2Proof.Machine.execBvs target s
  | .bvc target => Sys2Proof.Machine.execBvc target s
  | .bhi target => Sys2Proof.Machine.execBhi target s
  | .bls target => Sys2Proof.Machine.execBls target s
  | .bge target => Sys2Proof.Machine.execBge target s
  | .blt target => Sys2Proof.Machine.execBlt target s
  | .bgt target => Sys2Proof.Machine.execBgt target s
  | .ble target => Sys2Proof.Machine.execBle target s
  | .b target => Sys2Proof.Machine.execB target s

end Sys2Proof.Machine
end

