-- ==== Sys2Proof/Machine/Step.lean ====
section
/-! DEFINITION. One `step()` (spec/40_step_cycle.md R70, R71), and the placing of one instruction where the next step
fetches. -/

namespace Sys2Proof.Machine

/-- `step()` (R71): refused outside `Ready` and `Running`; otherwise it fetches and decodes, enters the fault it met, or
executes and commits the instruction. `exec` itself does not test the run state (assumption log 4). -/
def step (s : State) : Host.Outcome State Fault Refusal :=
  if s.runState.canStep then
    match fetchDecode s with
    | .error r => .next (enterFault r s)
    | .ok i => exec i s
  else .refused .notReady

/-- The state with one instruction word of the opcode table standing at `pc`, inside the loaded code: the four bytes
are stored little-endian (R50) and `code_len` reaches past them (R41). It stands for the host's `loadCode` (assumption log 3).
At reset, and wherever `pc` is an aligned address of the code region, the very next `step()` runs that word. -/
def State.withFetchWord (s : State) (nbits w : Nat) : State :=
  { s with
    mem := s.mem.setWord s.pc.toNat (tableWord nbits w)
    codeLen := max s.codeLen ((s.pc.toNat - Config.codeBase) / 4 + 1) }

end Sys2Proof.Machine
end

