-- ==== Sys2Proof/Machine/Mailbox.lean ====
section
/-! DEFINITION. The published contract of the actuator mailbox (spec/60_exceptions.md R152): how the external
collaborator reads store events. The core itself treats the mailbox as ordinary memory and never uses this file. -/

namespace Sys2Proof.Machine

/-- The four movement commands of the contract (R152). -/
inductive Move where
  | up | down | left | right
deriving DecidableEq, Repr

/-- The external meaning of a word stored in the mailbox; the source defines none for any other value (R152, U12). -/
def mailboxMeaning (v : Word) : Option Move :=
  match v.toNat with
  | 1 => some .up
  | 2 => some .down
  | 3 => some .left
  | 4 => some .right
  | _ => none

/-- The command an observer reads from one store event: only a store to the mailbox address is one (R152). -/
def StoreEvent.move (e : StoreEvent) : Option Move :=
  if e.addr.toNat = Config.mailboxAddr then mailboxMeaning e.value else none

/-- The commands a run has given, in order: one for each such event, repeated stores included (R39, R152). -/
def mailboxMoves (s : State) : List Move := s.storeEvents.filterMap StoreEvent.move

end Sys2Proof.Machine
end

