-- ==== Sys2Proof/Machine/Assembler.lean ====
section
/-! DEFINITION. The assembler: source text to words, in two passes, or one error and no words (spec/30_encoding.md R59
to R63; what those rules leave open is in assumption logs 12 and 13). -/

namespace Sys2Proof.Machine

/-- The three kinds of assembly error (R61). -/
inductive AsmError where
  /-- `SyntaxError`, with the source line and the column in it, both counted from 1 (which column: assumption log 13). -/
  | syntaxError (line column : Nat)
  /-- `UnresolvedSymbolError`, naming the label. -/
  | unresolvedSymbol (name : List Char)
  /-- `EncodingError`, with the index of the instruction, counted from 0. -/
  | encodingError (index : Nat)
deriving DecidableEq, Repr

/-! ## Tokens -/

/-- The tokens of R59's grammar. -/
inductive Token where
  | ident (name : List Char)
  | num (v : Int)
  | hash | comma | colon | lbrack | rbrack
deriving DecidableEq, Repr

/-- A decimal digit. -/
def isDigit (c : Char) : Bool := decide ('0' ≤ c ∧ c ≤ '9')

/-- A letter: `A` .. `Z` or `a` .. `z` (assumption log 12). -/
def isLetter (c : Char) : Bool := decide (('A' ≤ c ∧ c ≤ 'Z') ∨ ('a' ≤ c ∧ c ≤ 'z'))

/-- A character that can open a label or a mnemonic (R59). -/
def isIdentStart (c : Char) : Bool := isLetter c || c == '_'

/-- A character that can stand inside a label (R59). -/
def isIdentChar (c : Char) : Bool := isIdentStart c || isDigit c

/-- The place of a character in a list, counted from 0. -/
def placeIn (x : Char) : List Char → Option Nat
  | [] => none
  | y :: ys => if x = y then some 0 else (placeIn x ys).map Nat.succ

/-- The value of a hexadecimal digit, written in capitals or not (R59; assumption log 12). -/
def hexValue (c : Char) : Option Nat :=
  match placeIn c "0123456789ABCDEF".toList with
  | some d => some d
  | none => placeIn c "0123456789abcdef".toList

/-- The value of a run of digits in a base, from the value of those already read. -/
def digitsValue (base : Nat) : Nat → List Char → Option Nat
  | acc, [] => some acc
  | acc, c :: cs =>
    match hexValue c with
    | some d => if d < base then digitsValue base (base * acc + d) cs else none
    | none => none

/-- At least one digit, in a base. -/
def numeral (base : Nat) : List Char → Option Nat
  | [] => none
  | cs => digitsValue base 0 cs

/-- `number` of R59: decimal digits, `0x` with hexadecimal digits, or `-` with decimal digits. -/
def number : List Char → Option Int
  | '0' :: 'x' :: cs => (numeral 16 cs).map Int.ofNat
  | '-' :: cs => (numeral 10 cs).map (fun n => -(Int.ofNat n))
  | cs => (numeral 10 cs).map Int.ofNat

/-- A character that belongs to an identifier or a number rather than standing alone. -/
def isWordChar (c : Char) : Bool := isIdentChar c || c == '-'

/-- The token, if any, that a maximal run of word characters spells. No white space stands inside a token, so the sign of a
number touches its digits: `# -4` is the number -4 and `#- 4` is a `SyntaxError`. R59 leaves this open (DESIGN CHOICE,
assumption log 12). -/
def wordTokens : List Char → Option (List Token)
  | [] => some []
  | c :: cs =>
    if isIdentStart c then (if cs.all isIdentChar then some [.ident (c :: cs)] else none)
    else (number (c :: cs)).map (fun v => [.num v])

/-- The tokens of a character that ends a word: none for white space, one for punctuation. -/
def separatorTokens (c : Char) : Option (List Token) :=
  if c = ' ' ∨ c = '\t' ∨ c = '\r' then some []
  else if c = '#' then some [.hash]
  else if c = ',' then some [.comma]
  else if c = ':' then some [.colon]
  else if c = '[' then some [.lbrack]
  else if c = ']' then some [.rbrack]
  else none

/-- A token with the column of its first character. -/
structure Placed where
  col : Nat
  token : Token
deriving DecidableEq, Repr

/-- The tokens that a piece of a line spells, at the piece's column; where it spells none, the column of the error. -/
def placeAt (col : Nat) : Option (List Token) → Except Nat (List Placed)
  | some ts => .ok (ts.map (Placed.mk col))
  | none => .error col

/-- The tokens of two pieces, one after the other, or the first error. -/
def joinPlaced : Except Nat (List Placed) → Except Nat (List Placed) → Except Nat (List Placed)
  | .error k, _ => .error k
  | .ok _, .error k => .error k
  | .ok ts, .ok us => .ok (ts ++ us)

/-- The tokens of one line from a column on, after the word characters already read, or the column of the first piece
that is no token; `;` starts a comment (R59, R61). -/
def lexLine : Nat → List Char → List Char → Except Nat (List Placed)
  | col, word, [] => placeAt (col - word.length) (wordTokens word)
  | col, word, c :: cs =>
    if isWordChar c then lexLine (col + 1) (word ++ [c]) cs
    else
      joinPlaced (placeAt (col - word.length) (wordTokens word))
        (if c = ';' then .ok [] else joinPlaced (placeAt col (separatorTokens c)) (lexLine (col + 1) [] cs))

/-- The lines of a source text, after the characters already read of the current one. -/
def splitLines : List Char → List Char → List (List Char)
  | line, [] => [line]
  | line, c :: cs => if c = '\n' then line :: splitLines [] cs else splitLines (line ++ [c]) cs

/-! ## Operands and statements (R59) -/

/-- An operand as written. -/
inductive Operand where
  /-- A register or a label. -/
  | name (x : List Char)
  /-- `#number`. -/
  | imm (v : Int)
  /-- `[#number]`. -/
  | memAbs (v : Int)
  /-- `[register]` or `[register, #number]`. -/
  | memOff (base : List Char) (v : Int)
deriving DecidableEq, Repr

/-- The first operand of a list of tokens, with the tokens after it. -/
def firstOperand : List Token → Option (Operand × List Token)
  | .hash :: .num v :: ts => some (.imm v, ts)
  | .lbrack :: .hash :: .num v :: .rbrack :: ts => some (.memAbs v, ts)
  | .lbrack :: .ident b :: .rbrack :: ts => some (.memOff b 0, ts)
  | .lbrack :: .ident b :: .comma :: .hash :: .num v :: .rbrack :: ts => some (.memOff b v, ts)
  | .ident x :: ts => some (.name x, ts)
  | _ => none

/-- Operands separated by commas, at most the given number of them. -/
def operandList : Nat → List Token → Option (List Operand)
  | 0, _ => none
  | k + 1, ts =>
    match firstOperand ts with
    | none => none
    | some (o, []) => some [o]
    | some (o, .comma :: rest) => (operandList k rest).map (fun os => o :: os)
    | some (_, _) => none

/-- The operands of an instruction: none, or one to three (R59). -/
def operands : List Token → Option (List Operand)
  | [] => some []
  | ts => operandList 3 ts

/-- The number of a register name: `R` and a decimal number without leading zeros. A number above 15 is accepted here
and is an `EncodingError` later (R59, R61). -/
def registerName : List Char → Option Nat
  | ['R', '0'] => some 0
  | 'R' :: '0' :: _ => none
  | 'R' :: cs => numeral 10 cs
  | _ => none

/-- The condition a branch mnemonic names, the two second spellings included (R54, R55). -/
def branchCond (m : List Char) : Option Cond :=
  if m = "B".toList then some .al
  else if m = "BEQ".toList then some .eq
  else if m = "BNE".toList then some .ne
  else if m = "BCS".toList then some .cs
  else if m = "BHS".toList then some .cs
  else if m = "BCC".toList then some .cc
  else if m = "BLO".toList then some .cc
  else if m = "BMI".toList then some .mi
  else if m = "BPL".toList then some .pl
  else if m = "BVS".toList then some .vs
  else if m = "BVC".toList then some .vc
  else if m = "BHI".toList then some .hi
  else if m = "BLS".toList then some .ls
  else if m = "BGE".toList then some .ge
  else if m = "BLT".toList then some .lt
  else if m = "BGT".toList then some .gt
  else if m = "BLE".toList then some .le
  else none

/-- The operation an arithmetic mnemonic names. -/
def aluMnemonic (m : List Char) : Option AluOp :=
  if m = "ADD".toList then some .add else if m = "SUB".toList then some .sub else none

/-- The direction a memory mnemonic names. -/
def memMnemonic (m : List Char) : Option MemDir :=
  if m = "LDR".toList then some .load else if m = "STR".toList then some .store else none

/-- `MOV` with its operands (R59). -/
def movStmt : List Operand → Option Stmt
  | [.name d, .imm v] => (registerName d).map (fun d => .movImm d v)
  | [.name d, .name m] =>
    match registerName d, registerName m with
    | some d, some m => some (.movReg d m)
    | _, _ => none
  | _ => none

/-- `CMP` with its operands (R59). -/
def cmpStmt : List Operand → Option Stmt
  | [.name n, .imm v] => (registerName n).map (fun n => .cmpImm n v)
  | [.name n, .name m] =>
    match registerName n, registerName m with
    | some n, some m => some (.cmpReg n m)
    | _, _ => none
  | _ => none

/-- `ADD` or `SUB` with its operands (R59). -/
def aluStmt (op : AluOp) : List Operand → Option Stmt
  | [.name d, .name n, .name m] =>
    match registerName d, registerName n, registerName m with
    | some d, some n, some m => some (.alu op d n m)
    | _, _, _ => none
  | [.name d, .name n, .imm v] =>
    match registerName d, registerName n with
    | some d, some n => some (.aluImm op d n v)
    | _, _ => none
  | _ => none

/-- `LDR` or `STR` with its operands; `[Rn]` means `[Rn, #0]` (R59). -/
def memStmt (dir : MemDir) : List Operand → Option Stmt
  | [.name t, .memAbs v] => (registerName t).map (fun t => .memAbs dir t v)
  | [.name t, .memOff b v] =>
    match registerName t, registerName b with
    | some t, some b => some (.memOff dir t b v)
    | _, _ => none
  | _ => none

/-- A branch with its target: a label or `#number` (R59). -/
def branchStmt (c : Cond) : List Operand → Option Stmt
  | [.name l] => some (.branch c (.label l))
  | [.imm v] => some (.branch c (.addr v))
  | _ => none

/-- A mnemonic with its operands; an unknown mnemonic, or operands of another shape, fit no row of R59. -/
def stmtOf (m : List Char) (os : List Operand) : Option Stmt :=
  if m = "HLT".toList then (if os = [] then some .hlt else none)
  else if m = "MOV".toList then movStmt os
  else if m = "CMP".toList then cmpStmt os
  else
    match aluMnemonic m, memMnemonic m, branchCond m with
    | some op, _, _ => aluStmt op os
    | _, some dir, _ => memStmt dir os
    | _, _, some c => branchStmt c os
    | _, _, _ => none

/-- The instruction part of a line: nothing, or one statement. -/
def instructionPart : List Token → Option (Option Stmt)
  | [] => some none
  | .ident m :: ts =>
    match operands ts with
    | some os => (stmtOf m os).map some
    | none => none
  | _ => none

/-- A parsed line: the column where it begins, its label and its statement, each if there is one (R59). -/
structure Line where
  col : Nat
  label : Option (List Char)
  stmt : Option Stmt
deriving DecidableEq, Repr

/-- The column of the first token; that of an empty line is 1. -/
def firstColumn : List Placed → Nat
  | [] => 1
  | p :: _ => p.col

/-- Tokens in two parts: the label with its colon, if there is one, and the instruction part (R59). -/
def splitLabel : List Placed → Option (List Char) × List Placed
  | ⟨_, .ident l⟩ :: ⟨_, .colon⟩ :: ps => (some l, ps)
  | ps => (none, ps)

/-- The tokens of a line as label and statement, or the column where its instruction part begins (R59, R61; which column:
assumption log 13). -/
def lineOfTokens (ps : List Placed) : Except Nat Line :=
  match instructionPart ((splitLabel ps).2.map Placed.token) with
  | some st => .ok ⟨firstColumn ps, (splitLabel ps).1, st⟩
  | none => .error (firstColumn (splitLabel ps).2)

/-- One line of source text, or the column where it does not fit (R59, R61). -/
def parseLine (cs : List Char) : Except Nat Line :=
  match lexLine 1 [] cs with
  | .error k => .error k
  | .ok ps => lineOfTokens ps

/-! ## The two passes (R60, R61) -/

/-- The labels with the addresses they stand for. -/
abbrev Labels := List (List Char × Nat)

/-- The address of a label, if it is defined. -/
def Labels.find : Labels → List Char → Option Nat
  | [], _ => none
  | (l, a) :: ls, x => if l = x then some a else Labels.find ls x

/-- The address of the `k`-th instruction: `CODE_BASE + 4*k` (R60). -/
def instrAddr (k : Nat) : Nat := Config.codeBase + 4 * k

/-- What pass 1 has gathered. -/
structure Pass1 where
  labels : Labels
  stmts : List Stmt
deriving DecidableEq, Repr

/-- Take in line number `n`: a label stands for the address of the next instruction, and may be defined once (R60, R61). -/
def Pass1.addLine (p : Pass1) (n : Nat) (l : Line) : Except AsmError Pass1 :=
  match l.label with
  | none => .ok ⟨p.labels, p.stmts ++ l.stmt.toList⟩
  | some x =>
    match p.labels.find x with
    | some _ => .error (.syntaxError n l.col)
    | none => .ok ⟨p.labels ++ [(x, instrAddr p.stmts.length)], p.stmts ++ l.stmt.toList⟩

/-- Pass 1 over the lines from line number `n` (R60). -/
def pass1 : Pass1 → Nat → List (List Char) → Except AsmError Pass1
  | p, _, [] => .ok p
  | p, n, cs :: rest =>
    match parseLine cs with
    | .error k => .error (.syntaxError n k)
    | .ok l =>
      match p.addLine n l with
      | .error e => .error e
      | .ok p' => pass1 p' (n + 1) rest

/-- A statement with its label replaced by the label's address, or the name of a label never defined (R60, R61). -/
def Stmt.resolve (ls : Labels) : Stmt → Except (List Char) Stmt
  | .branch c (.label x) =>
    match ls.find x with
    | some a => .ok (.branch c (.addr a))
    | none => .error x
  | st => .ok st

/-- Resolve every statement, in source order. -/
def resolveAll (ls : Labels) : List Stmt → Except AsmError (List Stmt)
  | [] => .ok []
  | st :: rest =>
    match Stmt.resolve ls st with
    | .error x => .error (.unresolvedSymbol x)
    | .ok st' =>
      match resolveAll ls rest with
      | .error e => .error e
      | .ok out => .ok (st' :: out)

/-- The instruction a statement's numbers give, whatever their range. A label that is still there stands for no address. -/
def Stmt.instr : Stmt → Option Instr
  | .hlt => some .hlt
  | .movImm d imm => some (.movImm (BitVec.ofNat 4 d) (BitVec.ofInt 20 imm))
  | .movReg d m => some (.movReg (BitVec.ofNat 4 d) (BitVec.ofNat 4 m))
  | .alu .add d n m => some (.addReg (BitVec.ofNat 4 d) (BitVec.ofNat 4 n) (BitVec.ofNat 4 m))
  | .alu .sub d n m => some (.subReg (BitVec.ofNat 4 d) (BitVec.ofNat 4 n) (BitVec.ofNat 4 m))
  | .aluImm .add d n imm => some (.addImm (BitVec.ofNat 4 d) (BitVec.ofNat 4 n) (BitVec.ofInt 16 imm))
  | .aluImm .sub d n imm => some (.subImm (BitVec.ofNat 4 d) (BitVec.ofNat 4 n) (BitVec.ofInt 16 imm))
  | .cmpReg n m => some (.cmpReg (BitVec.ofNat 4 n) (BitVec.ofNat 4 m))
  | .cmpImm n imm => some (.cmpImm (BitVec.ofNat 4 n) (BitVec.ofInt 16 imm))
  | .memAbs .load t abs => some (.ldrAbs (BitVec.ofNat 4 t) (BitVec.ofInt 20 abs))
  | .memAbs .store t abs => some (.strAbs (BitVec.ofNat 4 t) (BitVec.ofInt 20 abs))
  | .memOff .load t n off => some (.ldrOff (BitVec.ofNat 4 t) (BitVec.ofNat 4 n) (BitVec.ofInt 16 off))
  | .memOff .store t n off => some (.strOff (BitVec.ofNat 4 t) (BitVec.ofNat 4 n) (BitVec.ofInt 16 off))
  | .branch c (.addr v) => some (branchInstr c (BitVec.ofInt 20 v))
  | .branch _ (.label _) => none

/-- The instruction of a resolved statement whose numbers are in range; out-of-range numbers do not wrap (R61, R63). -/
def Stmt.toInstr (st : Stmt) : Option Instr := if st.wellFormed then Stmt.instr st else none

/-- Pass 2 from instruction index `k`: encode each statement, or fail at the first that cannot be (R61, R63). -/
def pass2 : Nat → List Stmt → Except AsmError (List Word)
  | _, [] => .ok []
  | k, st :: rest =>
    match Stmt.toInstr st with
    | none => .error (.encodingError k)
    | some i =>
      match pass2 (k + 1) rest with
      | .error e => .error e
      | .ok ws => .ok (encode i :: ws)

/-- Pass 2 of a whole program: more than 1024 instructions are an `EncodingError` (R61). -/
def encodeProgram (sts : List Stmt) : Except AsmError (List Word) :=
  if sts.length ≤ Config.codeWords then pass2 0 sts else .error (.encodingError Config.codeWords)

/-- `assemble(sourceText)`: the words of the instructions in source order, or one error and no words (R60, R61). -/
def assemble (src : List Char) : Except AsmError (List Word) :=
  match pass1 ⟨[], []⟩ 1 (splitLines [] src) with
  | .error e => .error e
  | .ok p =>
    match resolveAll p.labels p.stmts with
    | .error e => .error e
    | .ok sts => encodeProgram sts

end Sys2Proof.Machine
end

