-- ==== Sys2Proof/Machine/Disassembler.lean ====
section
/-! DEFINITION. The canonical disassembly (spec/30_encoding.md R64; spacing and the case of hexadecimal digits:
assumption log 12). -/

namespace Sys2Proof.Machine

/-- An unsigned decimal number. -/
def printNat (n : Nat) : List Char := Nat.toDigits 10 n

/-- A signed decimal number. -/
def printInt (v : Int) : List Char := if v < 0 then '-' :: printNat v.natAbs else printNat v.natAbs

/-- A `0x` hexadecimal number with upper-case digits. -/
def printHex (n : Nat) : List Char := '0' :: 'x' :: (Nat.toDigits 16 n).map Char.toUpper

/-- A register name (R59). -/
def printReg (r : RegNum) : List Char := 'R' :: printNat r.toNat

/-- An immediate as unsigned decimal (R64). -/
def printImm (n : Nat) : List Char := '#' :: printNat n

/-- `[#abs20]`, in hexadecimal (R64). -/
def printAbs (a : Imm20) : List Char := "[#".toList ++ printHex a.toNat ++ "]".toList

/-- `[Rn, #off16]`, the offset as signed decimal, printed also when it is 0 (R64). -/
def printOff (n : RegNum) (off : Imm16) : List Char :=
  "[".toList ++ printReg n ++ ", #".toList ++ printInt off.toInt ++ "]".toList

/-- A branch target, in hexadecimal (R64). -/
def printTarget (t : Imm20) : List Char := '#' :: printHex t.toNat

/-- A mnemonic with its operands, the first after one space, the others after a comma and a space. -/
def printStmt (m : String) : List (List Char) → List Char
  | [] => m.toList
  | [a] => m.toList ++ " ".toList ++ a
  | [a, b] => m.toList ++ " ".toList ++ a ++ ", ".toList ++ b
  | a :: b :: c :: _ => m.toList ++ " ".toList ++ a ++ ", ".toList ++ b ++ ", ".toList ++ c

/-- The canonical text of an instruction (R64). -/
def printInstr : Instr → List Char
  | .hlt => printStmt "HLT" []
  | .movImm d imm => printStmt "MOV" [printReg d, printImm imm.toNat]
  | .movReg d m => printStmt "MOV" [printReg d, printReg m]
  | .addReg d n m => printStmt "ADD" [printReg d, printReg n, printReg m]
  | .addImm d n imm => printStmt "ADD" [printReg d, printReg n, printImm imm.toNat]
  | .subReg d n m => printStmt "SUB" [printReg d, printReg n, printReg m]
  | .subImm d n imm => printStmt "SUB" [printReg d, printReg n, printImm imm.toNat]
  | .cmpReg n m => printStmt "CMP" [printReg n, printReg m]
  | .cmpImm n imm => printStmt "CMP" [printReg n, printImm imm.toNat]
  | .ldrAbs t abs => printStmt "LDR" [printReg t, printAbs abs]
  | .ldrOff t n off => printStmt "LDR" [printReg t, printOff n off]
  | .strAbs t abs => printStmt "STR" [printReg t, printAbs abs]
  | .strOff t n off => printStmt "STR" [printReg t, printOff n off]
  | .beq t => printStmt "BEQ" [printTarget t]
  | .bne t => printStmt "BNE" [printTarget t]
  | .bcs t => printStmt "BCS" [printTarget t]
  | .bcc t => printStmt "BCC" [printTarget t]
  | .bmi t => printStmt "BMI" [printTarget t]
  | .bpl t => printStmt "BPL" [printTarget t]
  | .bvs t => printStmt "BVS" [printTarget t]
  | .bvc t => printStmt "BVC" [printTarget t]
  | .bhi t => printStmt "BHI" [printTarget t]
  | .bls t => printStmt "BLS" [printTarget t]
  | .bge t => printStmt "BGE" [printTarget t]
  | .blt t => printStmt "BLT" [printTarget t]
  | .bgt t => printStmt "BGT" [printTarget t]
  | .ble t => printStmt "BLE" [printTarget t]
  | .b t => printStmt "B" [printTarget t]

/-- The canonical text of a word; an invalid word has none (R64). -/
def disassemble (w : Word) : Option (List Char) := (decode w).map printInstr

/-- The source statement an instruction is written as, with the operand values of R53. -/
def stmtOfInstr : Instr → Stmt
  | .hlt => .hlt
  | .movImm d imm => .movImm d.toNat imm.toNat
  | .movReg d m => .movReg d.toNat m.toNat
  | .addReg d n m => .alu .add d.toNat n.toNat m.toNat
  | .addImm d n imm => .aluImm .add d.toNat n.toNat imm.toNat
  | .subReg d n m => .alu .sub d.toNat n.toNat m.toNat
  | .subImm d n imm => .aluImm .sub d.toNat n.toNat imm.toNat
  | .cmpReg n m => .cmpReg n.toNat m.toNat
  | .cmpImm n imm => .cmpImm n.toNat imm.toNat
  | .ldrAbs t abs => .memAbs .load t.toNat abs.toNat
  | .ldrOff t n off => .memOff .load t.toNat n.toNat off.toInt
  | .strAbs t abs => .memAbs .store t.toNat abs.toNat
  | .strOff t n off => .memOff .store t.toNat n.toNat off.toInt
  | .beq t => .branch .eq (.addr t.toNat)
  | .bne t => .branch .ne (.addr t.toNat)
  | .bcs t => .branch .cs (.addr t.toNat)
  | .bcc t => .branch .cc (.addr t.toNat)
  | .bmi t => .branch .mi (.addr t.toNat)
  | .bpl t => .branch .pl (.addr t.toNat)
  | .bvs t => .branch .vs (.addr t.toNat)
  | .bvc t => .branch .vc (.addr t.toNat)
  | .bhi t => .branch .hi (.addr t.toNat)
  | .bls t => .branch .ls (.addr t.toNat)
  | .bge t => .branch .ge (.addr t.toNat)
  | .blt t => .branch .lt (.addr t.toNat)
  | .bgt t => .branch .gt (.addr t.toNat)
  | .ble t => .branch .le (.addr t.toNat)
  | .b t => .branch .al (.addr t.toNat)

end Sys2Proof.Machine
end

