-- ==== Sys2Proof/Machine/History.lean ====
section
/-! DEFINITION. Reverse stepping: the History Manager at the core's boundary (spec/60_exceptions.md R153 to R156), and the
one count it keeps (R159). -/

namespace Sys2Proof.Machine

/-- The history's length, `H` of R151: the number of committed steps since reset, those undone taken off. Only the History
Manager knows it: no instruction reads it and no reply to the host carries it. There is no timer and no other counter (R159). -/
def historyLength (s : State) : Nat := s.history.length

/-- The registers with a record's old register value written back (R154). -/
def undoRegs (r : StepRecord) (regs : Vector Word 16) : Vector Word 16 :=
  match r.oldReg with
  | some (i, v) => setReg regs i v
  | none => regs

/-- The memory with a record's old bytes written back; no admission check is run (R154). -/
def undoMem (r : StepRecord) (m : Memory) : Memory :=
  match r.oldBytes with
  | some (a, bs) => m.writeBytes a.toNat bs
  | none => m

/-- Apply a record's inverse, with the history that remains: every old value is written back, `code_len` and the
store-event trace are not touched (R76, R154). -/
def undo (r : StepRecord) (rest : List StepRecord) (s : State) : State :=
  { s with
    regs := undoRegs r s.regs
    pc := r.oldPc
    flags := r.oldFlags.getD s.flags
    mem := undoMem r s.mem
    runState := r.oldRunState
    history := rest }

/-- Pop and undo every record of a history, newest first (R155). -/
def undoAll : List StepRecord → State → State
  | [], s => s
  | r :: rest, s => undoAll rest (undo r rest s)

/-- `stepBack()` (R154). A record is there whenever the run state is `Running` or `Halted` (R151); where none is, in a
state no run reaches, it is refused with `NothingToUndoError` (R149; assumption log 9). -/
def stepBack (s : State) : Except Refusal State :=
  match s.runState with
  | .uninitialized => .error .notReady
  | .ready => .error .nothingToUndo
  | .faulted => .error .notReady
  | .running | .halted =>
    match s.history with
    | [] => .error .nothingToUndo
    | r :: rest => .ok (undo r rest s)

/-- `replayToStart()`: `stepBack()` until exhausted; in `Ready` it succeeds and does nothing (R155; assumption log 11). -/
def replayToStart (s : State) : Except Refusal State :=
  match s.runState with
  | .uninitialized => .error .notReady
  | .ready => .ok s
  | .faulted => .error .notReady
  | .running | .halted => .ok (undoAll s.history s)

/-- `canStepBack()` (R156). -/
def canStepBack (s : State) : Bool :=
  match s.runState with
  | .running => true
  | .halted => true
  | .uninitialized => false
  | .ready => false
  | .faulted => false

/-- `canStepForward()` (R156). -/
def canStepForward (s : State) : Bool := s.runState.canStep

end Sys2Proof.Machine
end

