-- ==== Sys2Proof/Machine/Loader.lean ====
section
/-! DEFINITION. The host operations that reset, load and inspect the machine between steps (spec/70_reset_and_hazards.md
R170 to R174, spec/20_memory.md R45, spec/10_state.md R18). -/

namespace Sys2Proof.Machine

/-- `reset()`: valid in every run state, never fails, and its result does not depend on the state before (R170). -/
def resetMachine (_s : State) : State := State.reset

/-- `initialize()`: exactly the effect of `reset()` (R172). -/
def initializeMachine (s : State) : State := resetMachine s

/-- `Uninitialized`: nothing of the contents is fixed (R171, U1; assumption log 2). -/
def poweredOn (s : State) : Prop := s.runState = .uninitialized

/-- The code region after `loadCode`: zero-filled, then the words from its base, little-endian (R173, 90_conflicts.md C7). -/
def loadedMem (ws : List Word) (m : Memory) : Memory :=
  (m.zeroRange Config.codeBase Config.codeBytes).writeBytes Config.codeBase (ws.flatMap bytesOfWord)

/-- `loadCode(words)`: valid only in `Ready`; at most 1024 words (R173). -/
def loadCode (ws : List Word) (s : State) : Except Refusal State :=
  if s.runState = .ready then
    if ws.length ≤ Config.codeWords then .ok { s with mem := loadedMem ws s.mem, codeLen := ws.length }
    else .error .loadRange
  else .error .notReady

/-- The range of a host access: empty, or wholly inside one region (R45; assumption log 10). -/
def hostRange (a n : Nat) : Bool := n == 0 || (regionOf a n).isSome

/-- `writeMemory(address, bytes)`: valid only in `Ready`; any alignment; no store event, no step record (R45). -/
def writeMemory (a : Nat) (bs : List Byte) (s : State) : Except Refusal State :=
  if s.runState = .ready then
    if hostRange a bs.length then .ok { s with mem := s.mem.writeBytes a bs } else .error .memoryRange
  else .error .notReady

/-- `readMemory(address, length)`: valid in every run state but `Uninitialized` (R45). -/
def readMemory (a n : Nat) (s : State) : Except Refusal (List Byte) :=
  if s.runState = .uninitialized then .error .notReady
  else if hostRange a n then .ok (s.mem.readBytes a n) else .error .memoryRange

/-- What `getAllRegisters()` returns (R18, R157). -/
structure RegisterView where
  regs : Vector Word 16
  pc : Word
  flags : Flags
deriving DecidableEq, Repr

/-- The register projection of a state (R18). -/
def registerView (s : State) : RegisterView := ⟨s.regs, s.pc, s.flags⟩

/-- `getAllRegisters()`: valid in every run state but `Uninitialized` (R157). -/
def getAllRegisters (s : State) : Except Refusal RegisterView :=
  if s.runState = .uninitialized then .error .notReady else .ok (registerView s)

/-- The machine snapshot: registers, `pc`, flags and all three regions (R157). -/
structure Snapshot where
  view : RegisterView
  mem : Memory
deriving DecidableEq, Repr

/-- The snapshot of a state (R157). -/
def snapshot (s : State) : Snapshot := ⟨registerView s, s.mem⟩

/-- Write the blocks of a data image, in order (R174 step 4). -/
def preSeed : List (Nat × List Byte) → State → Except Refusal State
  | [], s => .ok s
  | (a, bs) :: image, s =>
    match writeMemory a bs s with
    | .error r => .error r
    | .ok s' => preSeed image s'

/-- The boot order: `reset`, `loadCode`, then the data image (R174, steps 1, 3 and 4). -/
def boot (ws : List Word) (image : List (Nat × List Byte)) (s : State) : Except Refusal State :=
  match loadCode ws (resetMachine s) with
  | .error r => .error r
  | .ok s' => preSeed image s'

end Sys2Proof.Machine
end

