-- ==== Sys2Proof/Machine/HostOps.lean ====
section
/-! DEFINITION. The host interface as one total function: each operation of the table of spec/60_exceptions.md R157, in
every run state, with its reply. -/

namespace Sys2Proof.Machine

/-- The published operations (R157). -/
inductive HostOp where
  /-- `initialize()` (R172). -/
  | initMachine
  | reset
  | loadCode (words : List Word)
  | writeMemory (addr : Nat) (bytes : List Byte)
  | readMemory (addr len : Nat)
  | getAllRegisters
  | step
  | stepBack
  | replayToStart
  | canStepBack
  | canStepForward
  | assemble (source : List Char)
deriving DecidableEq, Repr

/-- How a performed step ended (R25, R75, R145). -/
inductive StepOutcome where
  | committed
  | halted
  | faulted (r : FaultRecord)
deriving DecidableEq, Repr

/-- What the host is told (R157; assumption log 15). -/
inductive Reply where
  | done
  | snapshot (v : Snapshot)
  | stepped (o : StepOutcome) (v : Snapshot)
  | bytes (bs : List Byte)
  | registers (v : RegisterView)
  | verdict (b : Bool)
  | words (ws : List Word)
  | asmError (e : AsmError)
  | refused (r : Refusal)
deriving DecidableEq, Repr

/-- The outcome of a step, read from the state it left (R25): faulted with its record, halted, or committed. -/
def stepOutcome (s : State) : StepOutcome :=
  match s.faultRecord with
  | some r => .faulted r
  | none => if s.runState = .halted then .halted else .committed

/-- The state and the reply of an operation that answers a state, or is refused and changes nothing (R149). -/
def answer (s : State) (reply : State → Reply) : Except Refusal State → State × Reply
  | .ok t => (t, reply t)
  | .error r => (s, .refused r)

/-- The reply of an operation that only reads (R149, R157). -/
def answerRead {α : Type} (reply : α → Reply) : Except Refusal α → Reply
  | .ok v => reply v
  | .error r => .refused r

/-- The state and the reply of `step()` (R71, R157). -/
def performStep (s : State) : State × Reply :=
  match step s with
  | .next t => (t, .stepped (stepOutcome t) (snapshot t))
  | .refused r => (s, .refused r)
  | .fault f => nomatch f

/-- The reply of `assemble`, which does not touch the core (R157). -/
def assembleReply (src : List Char) : Reply :=
  match assemble src with
  | .ok ws => .words ws
  | .error e => .asmError e

/-- Perform one host operation, indivisibly: the state after it and the reply (R157, R158). -/
def perform (op : HostOp) (s : State) : State × Reply :=
  match op with
  | .initMachine => (initializeMachine s, .done)
  | .reset => (resetMachine s, .done)
  | .loadCode ws => answer s (fun _ => .done) (loadCode ws s)
  | .writeMemory a bs => answer s (fun _ => .done) (writeMemory a bs s)
  | .readMemory a n => (s, answerRead .bytes (readMemory a n s))
  | .getAllRegisters => (s, answerRead .registers (getAllRegisters s))
  | .step => performStep s
  | .stepBack => answer s (fun t => .snapshot (snapshot t)) (stepBack s)
  | .replayToStart => answer s (fun t => .snapshot (snapshot t)) (replayToStart s)
  | .canStepBack => (s, .verdict (canStepBack s))
  | .canStepForward => (s, .verdict (canStepForward s))
  | .assemble src => (s, assembleReply src)

/-- A session: host operations one after another, each between steps (R158). -/
def performAll : List HostOp → State → State
  | [], s => s
  | op :: ops, s => performAll ops (perform op s).1

end Sys2Proof.Machine
end

