-- ==== Sys2Proof/Safety.lean ====
section
/-! DEFINITION. What a run's end is, and the invariant of every state a host session reaches (spec/60_exceptions.md R151,
spec/70_reset_and_hazards.md R178). -/

namespace Sys2Proof.Machine

/-- The orderly end of a run (R178). -/
abbrev State.endedOrderly (s : State) : Prop := s.runState = .halted

/-- The failed end of a run; never a successful one (R146, R178). -/
abbrev State.endedFailed (s : State) : Prop := s.runState = .faulted

/-- A run is over (R178). -/
abbrev State.runOver (s : State) : Prop := s.endedOrderly ∨ s.endedFailed

/-- The observable result of a run (R178). -/
structure RunResult where
  snapshot : Snapshot
  runState : RunState
  faultRecord : Option FaultRecord
  storeEvents : List StoreEvent
deriving DecidableEq, Repr

/-- The observable result a state shows (R178). -/
def runResult (s : State) : RunResult := ⟨snapshot s, s.runState, s.faultRecord, s.storeEvents⟩

/-- What `Ready` means for the core: empty history, `pc` at `CODE_BASE`, registers and flags zero (R151). -/
abbrev State.fresh (s : State) : Prop :=
  s.runState = .ready ∧ s.history = [] ∧ s.pc = Config.resetPc ∧ s.regs = Vector.replicate 16 0 ∧ s.flags = Flags.clear

/-- The record is one a committed step can make: it began in `Ready` iff it is the oldest, and the bytes it holds are the
four of an admitted store (R76). -/
abbrev StepRecord.sound (r : StepRecord) (rest : List StepRecord) : Prop :=
  r.oldRunState = (if rest = [] then .ready else .running) ∧
    ∀ ab, r.oldBytes = some ab → admission ab.1 Config.wordBytes = none ∧ ab.2.length = Config.wordBytes

/-- Every record of a history is sound over the records below it. -/
def historySound : List StepRecord → Prop
  | [] => True
  | r :: rest => r.sound rest ∧ historySound rest

/-- The run-state invariants of R151: `Ready` is fresh; `Running` has a history; `Halted` has a history and stands on a
`HLT`. `Uninitialized` is not a state after the first reset. -/
def State.runStateInv (s : State) : Prop :=
  match s.runState with
  | .uninitialized => False
  | .ready => s.fresh
  | .running => s.history ≠ []
  | .halted => s.history ≠ [] ∧ s.mem.wordAt s.pc.toNat = 0x01000000
  | .faulted => True

/-- The invariant of every state after the first reset: the memory is canonical (assumption log 6), `code_len` is at
most 1024 (R21), the fault record is there exactly in `Faulted` (R20), the run-state invariants of R151 hold, the
history is sound, and undoing all of it leads back to a fresh machine (R155). -/
def State.inv (s : State) : Prop :=
  s.mem.wf ∧ s.codeLen ≤ Config.codeWords ∧ (s.faultRecord = none ↔ s.runState ≠ .faulted) ∧ s.runStateInv ∧
    historySound s.history ∧
    (s.runState = .running ∨ s.runState = .halted → (undoAll s.history s).fresh)

end Sys2Proof.Machine
end

