-- ==== Sys2Proof/Certificates/Slice0/Obligations.lean ====
section
/-! DEFINITION. The statements for the provers, each a rule of spec/ said of the model. Where a rule carries the spec's own
mark [decision: D<n>] the decision is named; a statement that rests on a rule the spec marks [derived], or on a choice of
this model, says so and names the sentence or the assumption log. -/

namespace Sys2Proof.Claims
open Sys2Proof.Machine

/-- The four bytes from `a` up hold `w`, bits 7:0 at the lowest address (R34). -/
def holdsWord (s : State) (a : Nat) (w : Word) : Prop :=
  ∀ k, k < 4 → byteAt s (a + k) = some (w.extractLsb' (8 * k) 8)

/-- Every byte of memory reads as before. -/
def sameMemory (s t : State) : Prop := ∀ a, byteAt t a = byteAt s a

/-- Every byte of memory outside the `n` bytes from `a` reads as before. -/
def sameMemoryOutside (s t : State) (a n : Nat) : Prop := ∀ x, x < a ∨ a + n ≤ x → byteAt t x = byteAt s x

/-- Every general register is as before. -/
def sameRegs (s t : State) : Prop := ∀ q, getReg t q = getReg s q

/-- Every general register but `Rd` is as before. -/
def sameRegsBut (d : RegNum) (s t : State) : Prop := ∀ q, q ≠ d → getReg t q = getReg s q

/-- `code_len` and the fault record are as before. -/
def sameControl (s t : State) : Prop := t.codeLen = s.codeLen ∧ t.faultRecord = s.faultRecord

/-- Memory and the store-event trace are as before. -/
def storesNothing (s t : State) : Prop := sameMemory s t ∧ t.storeEvents = s.storeEvents

/-- The history has one record more: the old `pc` and run state, and the old values given (R76). -/
def pushes (oldReg : Option (RegNum × Word)) (oldFlags : Option Flags) (oldBytes : Option (Word × List Byte))
    (s t : State) : Prop :=
  t.history = ⟨s.pc, s.runState, oldReg, oldFlags, oldBytes⟩ :: s.history

/-- What a committed register write without flags does: `MOV` and `LDR` (R12, R17, R76). -/
def writesReg (d : RegNum) (v : Word) (s t : State) : Prop :=
  getReg t d = v ∧ sameRegsBut d s t ∧ t.flags = s.flags ∧ t.pc = s.pc + 4 ∧ storesNothing s t ∧ sameControl s t ∧
    t.runState = .running ∧ pushes (some (d, getReg s d)) none none s t

/-- What a committed `ADD` or `SUB` does: the register and all four flags (R12, R17, R76). -/
def writesRegAndFlags (d : RegNum) (r : Word × Flags) (s t : State) : Prop :=
  getReg t d = r.1 ∧ sameRegsBut d s t ∧ t.flags = r.2 ∧ t.pc = s.pc + 4 ∧ storesNothing s t ∧ sameControl s t ∧
    t.runState = .running ∧ pushes (some (d, getReg s d)) (some s.flags) none s t

/-- What a committed `CMP` does: all four flags and no register (R17, R76). -/
def writesFlags (f : Flags) (s t : State) : Prop :=
  sameRegs s t ∧ t.flags = f ∧ t.pc = s.pc + 4 ∧ storesNothing s t ∧ sameControl s t ∧
    t.runState = .running ∧ pushes none (some s.flags) none s t

/-- What a committed `STR` at `ea` does: four bytes and one store event (R39, R76). -/
def storesWord (ea v : Word) (s t : State) : Prop :=
  holdsWord t ea.toNat v ∧ sameMemoryOutside s t ea.toNat 4 ∧ t.storeEvents = s.storeEvents ++ [⟨ea, v⟩] ∧
    sameRegs s t ∧ t.flags = s.flags ∧ t.pc = s.pc + 4 ∧ sameControl s t ∧ t.runState = .running ∧
    ∃ bs, bs.length = 4 ∧ (∀ k, k < 4 → byteAt s (ea.toNat + k) = bs[k]?) ∧ pushes none none (some (ea, bs)) s t

/-- The four bytes at `a` are aligned and inside one of the three regions (R31, R33). -/
abbrev wordAddress (a : Nat) : Prop :=
  a % 4 = 0 ∧
    ((0x10000 ≤ a ∧ a + 4 ≤ 0x11000) ∨ (0x20000 ≤ a ∧ a + 4 ≤ 0x21000) ∨ (0x30000 ≤ a ∧ a + 4 ≤ 0x31000))

/-- Only the run state and the fault record change (R145). -/
def faultedWith (r : FaultRecord) (s : State) : State := { s with runState := .faulted, faultRecord := some r }

/-- The `MemoryFault` arms of a load or store: alignment first, then bounds (R33, R145). -/
def faultsOutside (i : Instr) (ea : Word) (isStore : Bool) (s : State) : Prop :=
  (ea.toNat % 4 ≠ 0 →
    exec i s = .next (faultedWith (.memory .misaligned s.pc (encode i) ea isStore) s)) ∧
  (ea.toNat % 4 = 0 → ¬wordAddress ea.toNat →
    exec i s = .next (faultedWith (.memory .outOfRange s.pc (encode i) ea isStore) s))

/-- A branch word has the condition number and the target; executing it always commits, writes `pc` alone, and goes to
the target exactly when `taken` (44_branch.md section 2). -/
def branchesWhen (i : Instr) (cond : BitVec 4) (target : Imm20) (s : State) (taken : Prop) : Prop :=
  encode i = (0x40000000 : Word) ||| cond.setWidth 32 <<< 20 ||| target.setWidth 32 ∧
  ∃ t, exec i s = .next t ∧ (taken → t.pc = target.setWidth 32) ∧ (¬taken → t.pc = s.pc + 4) ∧
    sameRegs s t ∧ t.flags = s.flags ∧ storesNothing s t ∧ sameControl s t ∧ t.runState = .running ∧
    pushes none none none s t

/-- The state is in `Ready` or `Running` (R70). -/
abbrev canStep (s : State) : Prop := s.runState = .ready ∨ s.runState = .running

/-- A loaded instruction word stands at `pc` (R41). -/
abbrev loadedAtPc (s : State) : Prop :=
  s.pc.toNat % 4 = 0 ∧ 0x10000 ≤ s.pc.toNat ∧ s.pc.toNat < 0x10000 + 4 * s.codeLen

/-- The effective address of the data access of an instruction, and whether it is a store (R105). -/
def access : Instr → State → Option (Word × Bool)
  | .ldrAbs _ abs, _ => some (eaAbs abs, false)
  | .ldrOff _ n off, s => some (eaOff n off s, false)
  | .strAbs _ abs, _ => some (eaAbs abs, true)
  | .strOff _ n off, s => some (eaOff n off s, true)
  | _, _ => none

/-- The address and the word of an instruction that stores (R108, R109). -/
def storeOf : Instr → State → Option (Word × Word)
  | .strAbs rt abs, s => some (eaAbs abs, getReg s rt)
  | .strOff rt n off, s => some (eaOff n off s, getReg s rt)
  | _, _ => none

/-- The destination register and the address of an instruction that loads (R106, R107). -/
def loadOf : Instr → State → Option (RegNum × Word)
  | .ldrAbs rt abs, _ => some (rt, eaAbs abs)
  | .ldrOff rt n off, s => some (rt, eaOff n off s)
  | _, _ => none

/-- The flags an `ADD`, a `SUB` or a `CMP` computes; no other instruction writes flags (R17, R91 to R96). -/
def aluFlags : Instr → State → Option Flags
  | .addReg _ n m, s => some (addWithCarry (getReg s n) (getReg s m) false).2
  | .addImm _ n imm, s => some (addWithCarry (getReg s n) (imm.setWidth 32) false).2
  | .subReg _ n m, s => some (addWithCarry (getReg s n) (~~~(getReg s m)) true).2
  | .subImm _ n imm, s => some (addWithCarry (getReg s n) (~~~(imm.setWidth 32)) true).2
  | .cmpReg n m, s => some (addWithCarry (getReg s n) (~~~(getReg s m)) true).2
  | .cmpImm n imm, s => some (addWithCarry (getReg s n) (~~~(imm.setWidth 32)) true).2
  | _, _ => none

/-- The cell of R157's table: the refusal it names, or none where the operation is performed or answers. -/
def tableCell : HostOp → RunState → Option Refusal
  | .initMachine, _ => none
  | .reset, _ => none
  | .loadCode _, .ready => none
  | .loadCode _, _ => some .notReady
  | .writeMemory _ _, .ready => none
  | .writeMemory _ _, _ => some .notReady
  | .readMemory _ _, .uninitialized => some .notReady
  | .readMemory _ _, _ => none
  | .getAllRegisters, .uninitialized => some .notReady
  | .getAllRegisters, _ => none
  | .step, .ready => none
  | .step, .running => none
  | .step, _ => some .notReady
  | .stepBack, .ready => some .nothingToUndo
  | .stepBack, .running => none
  | .stepBack, .halted => none
  | .stepBack, _ => some .notReady
  | .replayToStart, .uninitialized => some .notReady
  | .replayToStart, .faulted => some .notReady
  | .replayToStart, _ => none
  | .canStepBack, _ => none
  | .canStepForward, _ => none
  | .assemble _, _ => none

/-- Two states that agree on everything a step may read (R72). -/
def sameInputs (s t : State) : Prop :=
  t.regs = s.regs ∧ t.flags = s.flags ∧ t.pc = s.pc ∧ t.mem = s.mem ∧ t.codeLen = s.codeLen ∧ t.runState = s.runState

end Sys2Proof.Claims

open Sys2Proof Sys2Proof.Machine Sys2Proof.Claims

/-! ## Encoding -/

/-- Decode and encode agree on every instruction, and on its bytes whatever follows them. The spec marks R58 ("Decode and
encode (rule R63) are inverse on valid words") as derived; the encodings are decision D4. -/
def Obligations.DecodeEncodeRoundTrip : Prop :=
  ∀ (i : Instr) (rest : List Byte), decode (encode i) = some i ∧ decodeBytes (encodeBytes i ++ rest) = some (i, rest)

/-- Re-encoding a decoded word gives the same word, and a word decodes to one instruction only if the row of that
instruction covers it. The spec marks R58 ("re-encoding gives the same word") as derived. -/
def Obligations.DecodedWordReencodes : Prop :=
  ∀ (w : Word) (i : Instr), decode w = some i → encode i = w ∧ i.row.covers w = true

/-- R56 (decision D13): a word is invalid iff it matches no row of R54, iff one of the seven cases; the step that fetches it
enters `DecodeFault(invalid, pc, word)`; the words 0x00000000 and 0xFFFFFFFF are invalid. -/
def Obligations.InvalidWordsAreExactlyTheUnmatched : Prop :=
  (∀ w : Word, decode w = none ↔ ∀ r ∈ opcodeRows, w &&& r.mask ≠ r.pattern) ∧
  (∀ w : Word, decode w = none ↔
    (w.extractLsb' 24 8 ∉ ([0x01, 0x10, 0x11, 0x20, 0x21, 0x22, 0x23, 0x24, 0x25, 0x30, 0x31, 0x32, 0x33, 0x40] :
      List (BitVec 8))) ∨
    (w.extractLsb' 24 8 = 0x01 ∧ w.extractLsb' 0 24 ≠ 0) ∨
    (w.extractLsb' 24 8 = 0x11 ∧ (w.extractLsb' 16 4 ≠ 0 ∨ w.extractLsb' 0 12 ≠ 0)) ∨
    ((w.extractLsb' 24 8 = 0x20 ∨ w.extractLsb' 24 8 = 0x22) ∧ w.extractLsb' 0 12 ≠ 0) ∨
    (w.extractLsb' 24 8 = 0x24 ∧ (w.extractLsb' 20 4 ≠ 0 ∨ w.extractLsb' 0 12 ≠ 0)) ∨
    (w.extractLsb' 24 8 = 0x25 ∧ w.extractLsb' 20 4 ≠ 0) ∨
    (w.extractLsb' 24 8 = 0x40 ∧ w.extractLsb' 20 4 = 15)) ∧
  (∀ (s : State) (w : Word), canStep s → loadedAtPc s → s.mem.wordAt s.pc.toNat = w → decode w = none →
    step s = .next (faultedWith (.decodeInvalid s.pc w) s)) ∧
  decode 0x00000000 = none ∧ decode 0xFFFFFFFF = none

/-- No word matches two rows of the opcode map. The spec marks R58 ("Two rows of rule R54 never match the same word") as derived. -/
def Obligations.OpcodeRowsNeverOverlap : Prop :=
  opcodeRows.length = 28 ∧
  ∀ (w : Word) (r r' : OpRow), r ∈ opcodeRows → r' ∈ opcodeRows → r.covers w = true → r'.covers w = true → r = r'

/-- Words written out from the encodings of R54 decode to their instructions: one of each row but the branches, two
branches, and both extreme offsets. -/
def Obligations.WrittenOutWordsDecode : Prop :=
  decode 0x01000000 = some .hlt ∧ decode 0x10FFFFFF = some (.movImm 15 0xFFFFF) ∧
  decode 0x11703000 = some (.movReg 7 3) ∧ decode 0x20012000 = some (.addReg 0 1 2) ∧
  decode 0x2112FFFF = some (.addImm 1 2 0xFFFF) ∧ decode 0x22012000 = some (.subReg 0 1 2) ∧
  decode 0x23110001 = some (.subImm 1 1 1) ∧ decode 0x240FE000 = some (.cmpReg 15 14) ∧
  decode 0x25010007 = some (.cmpImm 1 7) ∧ decode 0x30230010 = some (.ldrAbs 2 0x30010) ∧
  decode 0x31018000 = some (.ldrOff 0 1 0x8000) ∧ decode 0x31017FFF = some (.ldrOff 0 1 0x7FFF) ∧
  (0x8000 : Imm16).toInt = -32768 ∧ (0x7FFF : Imm16).toInt = 32767 ∧
  decode 0x32030000 = some (.strAbs 0 0x30000) ∧ decode 0x3356FFF8 = some (.strOff 5 6 0xFFF8) ∧
  decode 0x40B10018 = some (.blt 0x10018) ∧ decode 0x40E10008 = some (.b 0x10008)

/-! ## The ALU and the conditions -/

/-- R90: the one ALU operation, with its equivalent forms, and subtraction as `AddWithCarry(a, NOT b, 1)`; carry means no
borrow (decision D7). -/
def Obligations.AddWithCarryAndSubtraction : Prop :=
  (∀ (a b : Word) (cin : Bool),
    (addWithCarry a b cin).1.toNat = (a.toNat + b.toNat + cin.toNat) % 2 ^ 32 ∧
    (addWithCarry a b cin).2.n = (addWithCarry a b cin).1.getLsbD 31 ∧
    ((addWithCarry a b cin).2.z = true ↔ (addWithCarry a b cin).1 = 0) ∧
    ((addWithCarry a b cin).2.c = true ↔ 2 ^ 32 ≤ a.toNat + b.toNat + cin.toNat) ∧
    ((addWithCarry a b cin).2.v = true ↔
      a.toInt + b.toInt + cin.toNat < -2 ^ 31 ∨ 2 ^ 31 - 1 < a.toInt + b.toInt + cin.toNat) ∧
    ((addWithCarry a b cin).2.v = true ↔
      a.getLsbD 31 = b.getLsbD 31 ∧ (addWithCarry a b cin).1.getLsbD 31 ≠ a.getLsbD 31)) ∧
  (∀ a b : Word, aluAdd a b = addWithCarry a b false) ∧
  (∀ a b : Word, aluSub a b = addWithCarry a (~~~b) true ∧ (aluSub a b).1 = a - b ∧
    ((aluSub a b).2.c = true ↔ b.toNat ≤ a.toNat) ∧
    ((aluSub a b).2.v = true ↔ a.toInt - b.toInt < -2 ^ 31 ∨ 2 ^ 31 - 1 < a.toInt - b.toInt) ∧
    ((aluSub a b).2.v = true ↔ a.getLsbD 31 ≠ b.getLsbD 31 ∧ (aluSub a b).1.getLsbD 31 ≠ a.getLsbD 31))

/-- R18 (decision D31): the packed flags are `N ++ Z ++ C ++ V` with `N` in bit 3, the upper bits zero, and the register
projection shows registers, `pc` and the four bits. -/
def Obligations.FlagsPackInFixedOrder : Prop :=
  (∀ f : Flags, f.pack.toNat = 8 * f.n.toNat + 4 * f.z.toNat + 2 * f.c.toNat + f.v.toNat) ∧
  ∀ s : State, s.runState ≠ .uninitialized → getAllRegisters s = .ok ⟨s.regs, s.pc, s.flags⟩

/-- What each of the fifteen conditions means after `CMP a, b`. The last column of R115's table, which the spec derives from R97 item 3
(itself marked derived); the carry sense is decision D7. -/
def Obligations.ConditionsAfterCompare : Prop :=
  ∀ a b : Word,
    (condHolds .eq (aluSub a b).2 = true ↔ a = b) ∧ (condHolds .ne (aluSub a b).2 = true ↔ a ≠ b) ∧
    (condHolds .cs (aluSub a b).2 = true ↔ b.toNat ≤ a.toNat) ∧
    (condHolds .cc (aluSub a b).2 = true ↔ a.toNat < b.toNat) ∧
    (condHolds .mi (aluSub a b).2 = true ↔ (a - b).getLsbD 31 = true) ∧
    (condHolds .pl (aluSub a b).2 = true ↔ (a - b).getLsbD 31 = false) ∧
    (condHolds .vs (aluSub a b).2 = true ↔ a.toInt - b.toInt < -2 ^ 31 ∨ 2 ^ 31 - 1 < a.toInt - b.toInt) ∧
    (condHolds .vc (aluSub a b).2 = true ↔ -2 ^ 31 ≤ a.toInt - b.toInt ∧ a.toInt - b.toInt ≤ 2 ^ 31 - 1) ∧
    (condHolds .hi (aluSub a b).2 = true ↔ b.toNat < a.toNat) ∧
    (condHolds .ls (aluSub a b).2 = true ↔ a.toNat ≤ b.toNat) ∧
    (condHolds .ge (aluSub a b).2 = true ↔ b.toInt ≤ a.toInt) ∧
    (condHolds .lt (aluSub a b).2 = true ↔ a.toInt < b.toInt) ∧
    (condHolds .gt (aluSub a b).2 = true ↔ b.toInt < a.toInt) ∧
    (condHolds .le (aluSub a b).2 = true ↔ a.toInt ≤ b.toInt) ∧
    condHolds .al (aluSub a b).2 = true

/-! ## Move, arithmetic and compare -/

/-- R85 (decisions D3, D5, D8): `MOV Rd, #imm20` commits from every state. -/
def Obligations.MovImmediateWritesConstant : Prop :=
  ∀ (d : RegNum) (imm : Imm20) (s : State),
    encode (.movImm d imm) = (0x10000000 : Word) ||| d.setWidth 32 <<< 20 ||| imm.setWidth 32 ∧
    ∃ t, exec (.movImm d imm) s = .next t ∧ writesReg d (imm.setWidth 32) s t ∧ (getReg t d).toNat ≤ 0xFFFFF

/-- R86 (decisions D3, D8): `MOV Rd, Rm` commits from every state, `d = m` included. -/
def Obligations.MovRegisterCopies : Prop :=
  (∀ (d m : RegNum) (s : State),
    encode (.movReg d m) = (0x11000000 : Word) ||| d.setWidth 32 <<< 20 ||| m.setWidth 32 <<< 12 ∧
    ∃ t, exec (.movReg d m) s = .next t ∧ writesReg d (getReg s m) s t) ∧
  ∀ w : Word, opField w = 0x11 → rbField w ≠ 0 ∨ z12Field w ≠ 0 → decode w = none

/-- R91 (decision D3): `ADD Rd, Rn, Rm` commits from every state, whatever registers coincide. -/
def Obligations.AddRegisterResult : Prop :=
  (∀ (d n m : RegNum) (s : State),
    encode (.addReg d n m) =
      (0x20000000 : Word) ||| d.setWidth 32 <<< 20 ||| n.setWidth 32 <<< 16 ||| m.setWidth 32 <<< 12 ∧
    ∃ t, exec (.addReg d n m) s = .next t ∧
      writesRegAndFlags d (addWithCarry (getReg s n) (getReg s m) false) s t) ∧
  ∀ w : Word, opField w = 0x20 → z12Field w ≠ 0 → decode w = none

/-- R92 (decisions D3, D5): `ADD Rd, Rn, #imm16` commits from every state; adding 0 copies `Rn` with `C`=0 `V`=0. -/
def Obligations.AddImmediateResult : Prop :=
  ∀ (d n : RegNum) (imm : Imm16) (s : State),
    encode (.addImm d n imm) =
      (0x21000000 : Word) ||| d.setWidth 32 <<< 20 ||| n.setWidth 32 <<< 16 ||| imm.setWidth 32 ∧
    ∃ t, exec (.addImm d n imm) s = .next t ∧
      writesRegAndFlags d (addWithCarry (getReg s n) (imm.setWidth 32) false) s t ∧
      (imm = 0 → getReg t d = getReg s n ∧
        t.flags = ⟨(getReg s n).getLsbD 31, decide (getReg s n = 0), false, false⟩)

/-- R93 (decisions D3, D7): `SUB Rd, Rn, Rm` commits from every state; `n = m` gives 0 with `N`=0 `Z`=1 `C`=1 `V`=0. -/
def Obligations.SubRegisterResult : Prop :=
  (∀ (d n m : RegNum) (s : State),
    encode (.subReg d n m) =
      (0x22000000 : Word) ||| d.setWidth 32 <<< 20 ||| n.setWidth 32 <<< 16 ||| m.setWidth 32 <<< 12 ∧
    ∃ t, exec (.subReg d n m) s = .next t ∧
      writesRegAndFlags d (addWithCarry (getReg s n) (~~~(getReg s m)) true) s t ∧
      (n = m → getReg t d = 0 ∧ t.flags = ⟨false, true, true, false⟩)) ∧
  ∀ w : Word, opField w = 0x22 → z12Field w ≠ 0 → decode w = none

/-- R94 (decisions D3, D5, D7): `SUB Rd, Rn, #imm16` commits from every state; subtracting 0 copies `Rn` with `C`=1 `V`=0. -/
def Obligations.SubImmediateResult : Prop :=
  ∀ (d n : RegNum) (imm : Imm16) (s : State),
    encode (.subImm d n imm) =
      (0x23000000 : Word) ||| d.setWidth 32 <<< 20 ||| n.setWidth 32 <<< 16 ||| imm.setWidth 32 ∧
    ∃ t, exec (.subImm d n imm) s = .next t ∧
      writesRegAndFlags d (addWithCarry (getReg s n) (~~~(imm.setWidth 32)) true) s t ∧
      (imm = 0 → getReg t d = getReg s n ∧ t.flags.c = true ∧ t.flags.v = false)

/-- R95 (decisions D3, D7): `CMP Rn, Rm` commits from every state and sets the flags `SUB` would. -/
def Obligations.CompareRegistersResult : Prop :=
  (∀ (n m : RegNum) (s : State),
    encode (.cmpReg n m) = (0x24000000 : Word) ||| n.setWidth 32 <<< 16 ||| m.setWidth 32 <<< 12 ∧
    ∃ t, exec (.cmpReg n m) s = .next t ∧
      writesFlags (addWithCarry (getReg s n) (~~~(getReg s m)) true).2 s t ∧
      (n = m → t.flags = ⟨false, true, true, false⟩)) ∧
  ∀ w : Word, opField w = 0x24 → raField w ≠ 0 ∨ z12Field w ≠ 0 → decode w = none

/-- R96 (decisions D3, D5, D7): `CMP Rn, #imm16` commits from every state; comparing with 0 gives `Z`, `N` of `Rn`, `C`=1, `V`=0. -/
def Obligations.CompareImmediateResult : Prop :=
  (∀ (n : RegNum) (imm : Imm16) (s : State),
    encode (.cmpImm n imm) = (0x25000000 : Word) ||| n.setWidth 32 <<< 16 ||| imm.setWidth 32 ∧
    ∃ t, exec (.cmpImm n imm) s = .next t ∧
      writesFlags (addWithCarry (getReg s n) (~~~(imm.setWidth 32)) true).2 s t ∧
      (imm = 0 → t.flags = ⟨(getReg s n).getLsbD 31, decide (getReg s n = 0), true, false⟩)) ∧
  ∀ w : Word, opField w = 0x25 → raField w ≠ 0 → decode w = none

/-! ## Load and store -/

/-- R105 (decisions D3, D5, D10): the two effective addresses; the sum wraps modulo 2^32 before the admission check, which
tests alignment first and then bounds. -/
def Obligations.EffectiveAddressesAndAdmission : Prop :=
  (∀ abs : Imm20, (eaAbs abs).toNat = abs.toNat) ∧
  (∀ (n : RegNum) (off : Imm16) (s : State),
    ((eaOff n off s).toNat : Int) = (((getReg s n).toNat : Int) + off.toInt) % 2 ^ 32) ∧
  (∀ ea : Word, (admission ea 4 = none ↔ wordAddress ea.toNat) ∧
    (admission ea 4 = some .misaligned ↔ ea.toNat % 4 ≠ 0) ∧
    (admission ea 4 = some .outOfRange ↔ ea.toNat % 4 = 0 ∧ ¬wordAddress ea.toNat))

/-- R106 (decisions D3, D5, D8, D9): `LDR Rt, [#abs20]` loads the little-endian word from an admitted address and faults elsewhere. -/
def Obligations.LoadAbsoluteResult : Prop :=
  ∀ (rt : RegNum) (abs : Imm20) (s : State),
    encode (.ldrAbs rt abs) = (0x30000000 : Word) ||| rt.setWidth 32 <<< 20 ||| abs.setWidth 32 ∧
    (wordAddress (eaAbs abs).toNat →
      ∃ t v, exec (.ldrAbs rt abs) s = .next t ∧ holdsWord s (eaAbs abs).toNat v ∧ writesReg rt v s t) ∧
    faultsOutside (.ldrAbs rt abs) (eaAbs abs) false s

/-- R107 (decisions D3, D5, D8, D9): `LDR Rt, [Rn, #off16]`, `t = n` included: the address uses the old `Rn`. -/
def Obligations.LoadOffsetResult : Prop :=
  ∀ (rt n : RegNum) (off : Imm16) (s : State),
    encode (.ldrOff rt n off) =
      (0x31000000 : Word) ||| rt.setWidth 32 <<< 20 ||| n.setWidth 32 <<< 16 ||| off.setWidth 32 ∧
    (wordAddress (eaOff n off s).toNat →
      ∃ t v, exec (.ldrOff rt n off) s = .next t ∧ holdsWord s (eaOff n off s).toNat v ∧ writesReg rt v s t) ∧
    faultsOutside (.ldrOff rt n off) (eaOff n off s) false s

/-- R108 (decisions D3, D5, D8, D9): `STR Rt, [#abs20]` stores the four bytes at an admitted address, all three regions
alike, and faults elsewhere. The canonical form of memory is the model's premise (assumption log 6). -/
def Obligations.StoreAbsoluteResult : Prop :=
  ∀ (rt : RegNum) (abs : Imm20) (s : State), s.mem.wf →
    encode (.strAbs rt abs) = (0x32000000 : Word) ||| rt.setWidth 32 <<< 20 ||| abs.setWidth 32 ∧
    (wordAddress (eaAbs abs).toNat →
      ∃ t, exec (.strAbs rt abs) s = .next t ∧ storesWord (eaAbs abs) (getReg s rt) s t) ∧
    faultsOutside (.strAbs rt abs) (eaAbs abs) true s

/-- R109 (decisions D3, D5, D8, D9): `STR Rt, [Rn, #off16]`, `t = n` included, without write-back. The canonical form of
memory is the model's premise (assumption log 6). -/
def Obligations.StoreOffsetResult : Prop :=
  ∀ (rt n : RegNum) (off : Imm16) (s : State), s.mem.wf →
    encode (.strOff rt n off) =
      (0x33000000 : Word) ||| rt.setWidth 32 <<< 20 ||| n.setWidth 32 <<< 16 ||| off.setWidth 32 ∧
    (wordAddress (eaOff n off s).toNat →
      ∃ t, exec (.strOff rt n off) s = .next t ∧ storesWord (eaOff n off s) (getReg s rt) s t) ∧
    faultsOutside (.strOff rt n off) (eaOff n off s) true s

/-- A word stored, by either form of `STR`, and then loaded at the same address by either form of `LDR`, is the word stored,
in every region. 20_memory.md sections 3 and 5: "a load returns the value of the most recent earlier write". -/
def Obligations.StoreThenLoadReturnsWord : Prop :=
  ∀ (i : Instr) (ea v : Word) (s : State), s.mem.wf → storeOf i s = some (ea, v) → wordAddress ea.toNat →
    ∃ t, exec i s = .next t ∧
      ∀ (j : Instr) (rt : RegNum), loadOf j t = some (rt, ea) → ∃ u, exec j t = .next u ∧ getReg u rt = v

/-- A store into the code region, by either form of `STR`, is what the next fetch at that address reads, and `code_len` does
not move. The spec marks R44 ("A store into the code region by step `k` ... is seen by the fetch of step `k+1`") as derived. -/
def Obligations.StoredCodeIsFetchedNext : Prop :=
  ∀ (i : Instr) (ea v : Word) (s t : State), s.mem.wf → storeOf i s = some (ea, v) → wordAddress ea.toNat →
    exec i s = .next t →
    t.codeLen = s.codeLen ∧
    ∀ u : State, u.mem = t.mem → u.codeLen = t.codeLen → u.pc = ea → loadedAtPc u → fetch u = some v

/-- R47: nothing stands at an address outside the three ranges: no byte is read there, a load or store there faults
`out_of_range` (an aligned one), a fetch there finds nothing once `code_len` is in its range, and a host access is refused. -/
def Obligations.UnmappedAddressesHoldNothing : Prop :=
  ∀ (s : State) (a : Nat), s.codeLen ≤ 1024 →
    ¬((0x10000 ≤ a ∧ a < 0x11000) ∨ (0x20000 ≤ a ∧ a < 0x21000) ∨ (0x30000 ≤ a ∧ a < 0x31000)) →
    byteAt s a = none ∧
    (∀ (i : Instr) (ea : Word) (st : Bool), access i s = some (ea, st) → ea.toNat = a → a % 4 = 0 →
      exec i s = .next (faultedWith (.memory .outOfRange s.pc (encode i) ea st) s)) ∧
    (s.pc.toNat = a → canStep s → step s = .next (faultedWith (.decodeAbsent s.pc) s)) ∧
    (∀ n, 0 < n → s.runState ≠ .uninitialized → readMemory a n s = .error .memoryRange) ∧
    (∀ bs : List Byte, bs ≠ [] → s.runState = .ready → writeMemory a bs s = .error .memoryRange)

/-! ## Branches and halt -/

/-- R117 to R124 (decisions D3, D6): the branches on one flag commit from every state. -/
def Obligations.OneFlagBranches : Prop :=
  ∀ (target : Imm20) (s : State),
    branchesWhen (.beq target) 0 target s (s.flags.z = true) ∧
    branchesWhen (.bne target) 1 target s (s.flags.z = false) ∧
    branchesWhen (.bcs target) 2 target s (s.flags.c = true) ∧
    branchesWhen (.bcc target) 3 target s (s.flags.c = false) ∧
    branchesWhen (.bmi target) 4 target s (s.flags.n = true) ∧
    branchesWhen (.bpl target) 5 target s (s.flags.n = false) ∧
    branchesWhen (.bvs target) 6 target s (s.flags.v = true) ∧
    branchesWhen (.bvc target) 7 target s (s.flags.v = false)

/-- R125 to R130 and R116 (decisions D3, D5, D6): the comparison branches and the unconditional one commit from every state. -/
def Obligations.ComparisonBranches : Prop :=
  ∀ (target : Imm20) (s : State),
    branchesWhen (.bhi target) 8 target s (s.flags.c = true ∧ s.flags.z = false) ∧
    branchesWhen (.bls target) 9 target s (s.flags.c = false ∨ s.flags.z = true) ∧
    branchesWhen (.bge target) 10 target s (s.flags.n = s.flags.v) ∧
    branchesWhen (.blt target) 11 target s (s.flags.n ≠ s.flags.v) ∧
    branchesWhen (.bgt target) 12 target s (s.flags.z = false ∧ s.flags.n = s.flags.v) ∧
    branchesWhen (.ble target) 13 target s (s.flags.z = true ∨ s.flags.n ≠ s.flags.v) ∧
    branchesWhen (.b target) 14 target s True

/-- A taken branch commits whatever its target; where no loaded instruction stands at the target, the NEXT step faults
`absent` with the target as `pc`, and the branch stays in the history. 44_branch.md section 3 (decision D38). -/
def Obligations.BadBranchTargetFaultsAtNextStep : Prop :=
  ∀ (s : State) (c : Cond) (target : Imm20), canStep s → loadedAtPc s →
    decode (s.mem.wordAt s.pc.toNat) = some (branchInstr c target) → condHolds c s.flags = true →
    ¬(target.toNat % 4 = 0 ∧ 0x10000 ≤ target.toNat ∧ target.toNat < 0x10000 + 4 * s.codeLen) →
    ∃ t, step s = .next t ∧ t.runState = .running ∧ t.history.length = s.history.length + 1 ∧
      step t = .next (faultedWith (.decodeAbsent (target.setWidth 32)) t)

/-- R135 (decisions D3, D14): `HLT` commits from every state, moves nothing but the run state and the history, and `Halted`
is left only by `stepBack`, `replayToStart`, `reset` or `initialize`; `stepBack` gives back the state before. No other
instruction halts, and a step past the last loaded word faults `absent`. -/
def Obligations.HaltStopsOnItself : Prop :=
  encode .hlt = 0x01000000 ∧
  (∀ w : Word, opField w = 0x01 → z24Field w ≠ 0 → decode w = none) ∧
  (∀ s t : State, step s = .next t → t.runState = .halted →
    loadedAtPc s ∧ decode (s.mem.wordAt s.pc.toNat) = some .hlt) ∧
  (∀ s : State, canStep s → s.pc.toNat = 0x10000 + 4 * s.codeLen →
    step s = .next (faultedWith (.decodeAbsent s.pc) s)) ∧
  ∀ s : State, ∃ t, exec .hlt s = .next t ∧ t.runState = .halted ∧ t.pc = s.pc ∧ t.flags = s.flags ∧ sameRegs s t ∧
    storesNothing s t ∧ sameControl s t ∧ pushes none none none s t ∧
    step t = .refused .notReady ∧ canStepForward t = false ∧ stepBack t = .ok s ∧
    ∀ op : HostOp, (perform op t).1 ≠ t →
      op = .stepBack ∨ op = .replayToStart ∨ op = .reset ∨ op = .initMachine

/-! ## The step -/

/-- The bytes at `pc` decode to an instruction: the step is `exec` of it, and nothing is added around `exec`
(40_step_cycle.md section 1, 20_memory.md section 4). -/
def Obligations.StepRunsDecodedInstruction : Prop :=
  ∀ (s : State) (i : Instr) (b0 b1 b2 b3 : Byte), canStep s → loadedAtPc s →
    byteAt s s.pc.toNat = some b0 → byteAt s (s.pc.toNat + 1) = some b1 → byteAt s (s.pc.toNat + 2) = some b2 →
    byteAt s (s.pc.toNat + 3) = some b3 → decodeBytes [b0, b1, b2, b3] = some (i, []) →
    step s = exec i s

/-- R70 (decision D19): `step()` outside `Ready` and `Running` is refused with `NotReadyError` and changes nothing, and inside
them it is performed. -/
def Obligations.StepAdmittedInReadyAndRunning : Prop :=
  ∀ s : State,
    (¬canStep s → step s = .refused .notReady ∧ perform .step s = (s, .refused .notReady)) ∧
    (canStep s → ∃ t, step s = .next t)

/-- R41 (decision D12): where a loaded instruction stands at `pc` the fetch reads its four bytes little-endian, inside the
code region; elsewhere (misaligned, below `CODE_BASE`, or past the loaded code) it finds nothing and the step enters
`DecodeFault(absent)`; with no code loaded every step faults so. A fetch never raises `MemoryFault`. -/
def Obligations.FetchReadsLoadedCodeOnly : Prop :=
  ∀ s : State,
    (loadedAtPc s → s.codeLen ≤ 1024 →
      (regionOf s.pc.toNat 4 = some .code) ∧ ∃ w, fetch s = some w ∧ holdsWord s s.pc.toNat w) ∧
    (¬loadedAtPc s → fetch s = none ∧ (canStep s → step s = .next (faultedWith (.decodeAbsent s.pc) s))) ∧
    (canStep s → s.codeLen = 0 → step s = .next (faultedWith (.decodeAbsent s.pc) s))

/-- R75 and the reading of R15 (decisions D10, D12): a step that answers ends in `Halted` only by a loaded `HLT`, in `Running`
only by another loaded instruction, and otherwise in `Faulted`. -/
def Obligations.RunStateAfterStep : Prop :=
  ∀ s t : State, step s = .next t →
    (t.runState = .halted ∧ loadedAtPc s ∧ decode (s.mem.wordAt s.pc.toNat) = some .hlt) ∨
    (t.runState = .running ∧ loadedAtPc s ∧ ∃ i, i ≠ .hlt ∧ decode (s.mem.wordAt s.pc.toNat) = some i) ∨
    (t.runState = .faulted ∧ (loadedAtPc s → decode (s.mem.wordAt s.pc.toNat) ≠ some .hlt))

/-- R14 (decisions D14, D15): how each instruction changes `pc`. The new value is not checked: whether an instruction commits
does not depend on `pc`, and where it leaves the loaded code the next step's fetch finds that. A loaded instruction stands
too low for `pc + 4` to wrap; that `code_len` is at most 1024 is R21's, part of the invariant. -/
def Obligations.NextPcTable : Prop :=
  (∀ s t : State, step s = .next t → t.runState = .faulted → t.pc = s.pc) ∧
  (∀ (i : Instr) (s : State) (p : Word), ∃ t t', exec i s = .next t ∧ exec i { s with pc := p } = .next t' ∧
    t'.runState = t.runState) ∧
  (∀ s t : State, step s = .next t → t.runState = .running → ¬loadedAtPc t →
    step t = .next (faultedWith (.decodeAbsent t.pc) t)) ∧
  (∀ s : State, s.codeLen ≤ 1024 → loadedAtPc s → s.pc.toNat < 0x11000 ∧ s.pc.toNat + 4 < 2 ^ 32) ∧
  ∀ (i : Instr) (s t : State), exec i s = .next t →
    (t.runState = .faulted → t.pc = s.pc) ∧ (i = .hlt → t.pc = s.pc) ∧
    (∀ c target, i = branchInstr c target →
      t.pc = if condHolds c s.flags then target.setWidth 32 else BitVec.ofNat 32 ((s.pc.toNat + 4) % 2 ^ 32)) ∧
    (t.runState ≠ .faulted → i ≠ .hlt → (∀ c target, i ≠ branchInstr c target) →
      t.pc = BitVec.ofNat 32 ((s.pc.toNat + 4) % 2 ^ 32))

/-- R145 (decision D15): a step that ends in `Faulted` set a fault record for the instruction at `pc` and changed nothing
else: no register, flag, `pc`, byte, `code_len`, record or store event. -/
def Obligations.FaultEntryIsPrecise : Prop :=
  ∀ s t : State, step s = .next t → t.runState = .faulted →
    ∃ r : FaultRecord, t = faultedWith r s ∧ r.pc = s.pc

/-- R143 (decision D16): the order of the four faults of one step. -/
def Obligations.FaultPriority : Prop :=
  ∀ s : State, canStep s →
    (¬loadedAtPc s → step s = .next (faultedWith (.decodeAbsent s.pc) s)) ∧
    (loadedAtPc s → decode (s.mem.wordAt s.pc.toNat) = none →
      step s = .next (faultedWith (.decodeInvalid s.pc (s.mem.wordAt s.pc.toNat)) s)) ∧
    (∀ (i : Instr) (ea : Word) (st : Bool), loadedAtPc s → decode (s.mem.wordAt s.pc.toNat) = some i →
      access i s = some (ea, st) → ea.toNat % 4 ≠ 0 →
      step s = .next (faultedWith (.memory .misaligned s.pc (s.mem.wordAt s.pc.toNat) ea st) s)) ∧
    (∀ (i : Instr) (ea : Word) (st : Bool), loadedAtPc s → decode (s.mem.wordAt s.pc.toNat) = some i →
      access i s = some (ea, st) → ea.toNat % 4 = 0 → ¬wordAddress ea.toNat →
      step s = .next (faultedWith (.memory .outOfRange s.pc (s.mem.wordAt s.pc.toNat) ea st) s))

/-- Only loads and stores can fault once decoded: every other instruction commits, and none ever stops the machine
(60_exceptions.md section 1: "No other instruction raises anything"). -/
def Obligations.OnlyLoadsAndStoresFault : Prop :=
  ∀ (i : Instr) (s : State), ∃ t, exec i s = .next t ∧
    (access i s = none → t.runState = (if i = .hlt then .halted else .running) ∧
      t.history.length = s.history.length + 1)

/-- A step writes at most one general register, and none when it faults. The spec marks R12 ("A step writes **at most one**
general register") and R74 as derived. -/
def Obligations.StepWritesAtMostOneRegister : Prop :=
  ∀ s t : State, step s = .next t →
    (∃ d : RegNum, sameRegsBut d s t) ∧ (t.runState = .faulted → sameRegs s t)

/-- The flags are written by `ADD`, `SUB` and `CMP` and by nothing else, always all four, with the values of R90; and the
step record holds the old flags exactly for those (10_state.md section 3, 40_step_cycle.md section 4, decision D8). -/
def Obligations.FlagsWrittenByArithmeticOnly : Prop :=
  ∀ (i : Instr) (s t : State), exec i s = .next t →
    t.flags = (aluFlags i s).getD s.flags ∧
    (t.runState ≠ .faulted → ∃ r, t.history = r :: s.history ∧ r.oldFlags = (aluFlags i s).map (fun _ => s.flags))

/-- R39 (decision D23): every committed `STR` emits exactly one event, whether or not the bytes differ; a faulting one and
every other instruction emit none; `stepBack`, `replayToStart`, `loadCode` and `writeMemory` emit none, and `reset` leaves
an empty trace (R26). -/
def Obligations.StoreEventsOnePerCommittedStore : Prop :=
  (∀ (i : Instr) (s t : State), exec i s = .next t →
    (∀ ea v, storeOf i s = some (ea, v) → t.runState ≠ .faulted → t.storeEvents = s.storeEvents ++ [⟨ea, v⟩]) ∧
    (∀ ea v, storeOf i s = some (ea, v) → (t.runState = .faulted ↔ ¬wordAddress ea.toNat)) ∧
    (storeOf i s = none ∨ t.runState = .faulted → t.storeEvents = s.storeEvents)) ∧
  (∀ s t : State, stepBack s = .ok t → t.storeEvents = s.storeEvents) ∧
  (∀ s t : State, replayToStart s = .ok t → t.storeEvents = s.storeEvents) ∧
  (∀ (ws : List Word) (s t : State), loadCode ws s = .ok t → t.storeEvents = s.storeEvents) ∧
  (∀ (a : Nat) (bs : List Byte) (s t : State), writeMemory a bs s = .ok t → t.storeEvents = s.storeEvents) ∧
  ∀ s : State, (resetMachine s).storeEvents = []

/-- Every byte a step changes is one of the four bytes of a store it emitted an event for; in particular the code region
changes only by a store into it. The spec marks R77 (d) as derived; the canonical form is the model's premise (log 6). -/
def Obligations.ChangedByteWasStored : Prop :=
  ∀ (s t : State) (a : Nat), s.mem.wf → step s = .next t → byteAt t a ≠ byteAt s a →
    ∃ e : StoreEvent, t.storeEvents = s.storeEvents ++ [e] ∧ wordAddress e.addr.toNat ∧
      e.addr.toNat ≤ a ∧ a < e.addr.toNat + 4

/-- R72: a step reads nothing but registers, flags, `pc`, memory, `code_len` and run state: from two states that agree on them
it has the same outcome, the same new values, the same record, the same event and the same fault record. -/
def Obligations.StepReadsOnlyItsInputs : Prop :=
  ∀ s s' : State, sameInputs s s' →
    (step s = .refused .notReady ↔ step s' = .refused .notReady) ∧
    ∀ t, step s = .next t → ∃ t', step s' = .next t' ∧ sameInputs t t' ∧
      (t.runState = .faulted → t'.faultRecord = t.faultRecord) ∧
      (∃ h, t.history = h ++ s.history ∧ t'.history = h ++ s'.history) ∧
      (∃ e, t.storeEvents = s.storeEvents ++ e ∧ t'.storeEvents = s'.storeEvents ++ e)

/-! ## Invariants -/

/-- The invariant of R151, R20, R21 and the model's canonical memory (log 6) holds at reset. -/
def Obligations.ResetSatisfiesInvariant : Prop := State.reset.inv

/-- Every step keeps the invariant: `Ready` is fresh, `Running` has a history, `Halted` stands on its `HLT`, the fault record
is there exactly in `Faulted`, `code_len` is at most 1024, memory stays canonical, and undoing the history leads back to
a fresh machine (60_exceptions.md section 7; the canonical form is log 6). -/
def Obligations.StepKeepsInvariant : Prop :=
  ∀ s t : State, s.inv → step s = .next t → t.inv

/-- Every host operation keeps the invariant, refused ones included, and `reset` establishes it from any state whatever. -/
def Obligations.HostOperationsKeepInvariant : Prop :=
  (∀ (op : HostOp) (s : State), s.inv → (perform op s).1.inv) ∧
  (∀ (ops : List HostOp) (s : State), (performAll ops (perform .reset s).1).inv)

/-! ## Reverse stepping -/

/-- `step()` then `stepBack()` gives back the state exactly, run state included, but for the store-event trace, which is
not rewound (log 7). The spec marks R77 (c) as derived; the canonical form of memory is the model's premise (log 6). -/
def Obligations.StepThenStepBackRestores : Prop :=
  ∀ s t : State, s.mem.wf → step s = .next t → t.runState ≠ .faulted →
    stepBack t = .ok { s with storeEvents := t.storeEvents }

/-- `replayToStart()` after any number of steps from a loaded machine gives back the loaded machine, the bytes the program
overwrote included, but for the store-event trace (log 7). The spec marks R155 as derived from R154 and R77. -/
def Obligations.ReplayRestoresLoadedMachine : Prop :=
  ∀ (n : Nat) (s t : State), s.inv → s.runState = .ready → Sys2Proof.core.run n s = .next t → t.runState ≠ .faulted →
    replayToStart t = .ok { s with storeEvents := t.storeEvents }

/-- R154 (decisions D19, D23, D24): `stepBack()` pops the newest record and writes its old values back, or is refused. -/
def Obligations.StepBackUndoesNewestRecord : Prop :=
  ∀ s : State, s.inv ∨ s.runState = .uninitialized →
    (s.runState = .ready → stepBack s = .error .nothingToUndo) ∧
    (s.runState = .uninitialized ∨ s.runState = .faulted → stepBack s = .error .notReady) ∧
    (s.runState = .running ∨ s.runState = .halted →
      ∃ r rest t, s.history = r :: rest ∧ stepBack s = .ok t ∧ t.history = rest ∧ t.pc = r.oldPc ∧
        (∀ i v, r.oldReg = some (i, v) → getReg t i = v ∧ sameRegsBut i s t) ∧ (r.oldReg = none → sameRegs s t) ∧
        (∀ f, r.oldFlags = some f → t.flags = f) ∧ (r.oldFlags = none → t.flags = s.flags) ∧
        (∀ a bs, r.oldBytes = some (a, bs) →
          (∀ k, k < 4 → byteAt t (a.toNat + k) = bs[k]?) ∧ sameMemoryOutside s t a.toNat 4) ∧
        (r.oldBytes = none → sameMemory s t) ∧ t.runState = r.oldRunState ∧
        (t.runState = .ready ↔ rest = []) ∧ (t.runState = .running ↔ rest ≠ []) ∧
        t.storeEvents = s.storeEvents ∧ t.codeLen = s.codeLen)

/-- R156 (decision D25): the two predicates, and that they say when `stepBack` and `step` are performed. -/
def Obligations.StepPredicates : Prop :=
  ∀ s : State, s.inv ∨ s.runState = .uninitialized →
    (canStepBack s = true ↔ s.runState = .running ∨ s.runState = .halted) ∧
    (s.inv → (canStepBack s = true ↔ s.history ≠ [] ∧ s.runState ≠ .faulted)) ∧
    (canStepForward s = true ↔ s.runState = .ready ∨ s.runState = .running) ∧
    (canStepBack s = true ↔ ∃ t, stepBack s = .ok t) ∧ (canStepForward s = true ↔ ∃ t, step s = .next t)

/-! ## The host interface -/

/-- R170 (decision D11): `reset()` from any state leaves every piece of state at its reset value; `initialize()` is the same. -/
def Obligations.ResetClearsEverything : Prop :=
  ∀ s : State, ∃ t, perform .reset s = (t, .done) ∧ perform .initMachine s = (t, .done) ∧
    (∀ r : RegNum, getReg t r = 0) ∧ t.flags = ⟨false, false, false, false⟩ ∧ t.pc = 0x00010000 ∧
    (∀ a, (0x10000 ≤ a ∧ a < 0x11000) ∨ (0x20000 ≤ a ∧ a < 0x21000) ∨ (0x30000 ≤ a ∧ a < 0x31000) → byteAt t a = some 0) ∧
    t.codeLen = 0 ∧ t.faultRecord = none ∧ t.history = [] ∧ t.storeEvents = [] ∧ t.runState = .ready ∧
    perform .reset t = (t, .done)

/-- `code_len` is changed by `reset`, `initialize` and `loadCode` alone, no step among them (10_state.md section 4: "It is written
only by `reset` (to 0) and `loadCode`"). -/
def Obligations.CodeLenChangedByResetAndLoadOnly : Prop :=
  (∀ (op : HostOp) (s : State), (perform op s).1.codeLen ≠ s.codeLen →
    op = .reset ∨ op = .initMachine ∨ ∃ ws, op = .loadCode ws) ∧
  (∀ s t : State, step s = .next t → t.codeLen = s.codeLen) ∧
  ∀ (ws : List Word) (s t : State), loadCode ws s = .ok t → t.codeLen = ws.length ∧ t.codeLen ≤ 1024

/-- R149: a refused host operation changes no state at all. -/
def Obligations.RefusedOperationsChangeNothing : Prop :=
  ∀ (op : HostOp) (s : State) (r : Refusal), (perform op s).2 = .refused r → (perform op s).1 = s

/-- The cells of R157's table (decisions D19, D20): which operation is refused in which run state, and with which kind; the
predicates answer, and nothing else is refused for its run state. Arguments out of range are refused with kinds of their own. -/
def Obligations.OperationValidityTable : Prop :=
  ∀ (op : HostOp) (s : State), (s.runState = .running ∨ s.runState = .halted → s.history ≠ []) →
    (∀ r, tableCell op s.runState = some r → perform op s = (s, .refused r)) ∧
    (tableCell op s.runState = none → (perform op s).2 ≠ .refused .notReady ∧ (perform op s).2 ≠ .refused .nothingToUndo) ∧
    (perform .canStepBack s).2 = .verdict (s.runState = .running ∨ s.runState = .halted) ∧
    (perform .canStepForward s).2 = .verdict (s.runState = .ready ∨ s.runState = .running)

/-- R171 (decision D33): in `Uninitialized`, whatever the contents, every operation but `reset` and `initialize` that would
read or use the state is refused with `NotReadyError`, and two machines that differ only in their contents cannot be told apart. -/
def Obligations.UninitializedIsUnobservable : Prop :=
  ∀ (op : HostOp) (s s' : State), s.runState = .uninitialized → s'.runState = .uninitialized →
    (perform op s).2 = (perform op s').2 ∧
    (op ≠ .reset → op ≠ .initMachine → (perform op s).1 = s) ∧
    (op = .reset ∨ op = .initMachine → (perform op s).1 = (perform op s').1 ∧ (perform op s).1 = State.reset) ∧
    (∀ ws a bs n, op = .loadCode ws ∨ op = .writeMemory a bs ∨ op = .readMemory a n ∨ op = .getAllRegisters ∨
      op = .step ∨ op = .stepBack ∨ op = .replayToStart → (perform op s).2 = .refused .notReady)

/-- R173 (decision D18): `loadCode` zero-fills the code region, places the words from its base, sets `code_len` and changes
nothing else; too many words, or another run state, are refused. The canonical form is the model's premise (log 6). -/
def Obligations.LoadCodeReplacesCodeRegion : Prop :=
  ∀ (ws : List Word) (s : State), s.mem.wf →
    (s.runState = .ready → ws.length ≤ 1024 →
      ∃ t, loadCode ws s = .ok t ∧ t.codeLen = ws.length ∧
        (∀ k w, ws[k]? = some w → holdsWord t (0x10000 + 4 * k) w) ∧
        (∀ a, 0x10000 + 4 * ws.length ≤ a → a < 0x11000 → byteAt t a = some 0) ∧
        sameMemoryOutside s t 0x10000 0x1000 ∧ sameRegs s t ∧ t.flags = s.flags ∧ t.pc = s.pc ∧
        t.runState = s.runState ∧ t.history = s.history ∧ t.storeEvents = s.storeEvents ∧ t.faultRecord = s.faultRecord) ∧
    (s.runState = .ready → 1024 < ws.length → perform (.loadCode ws) s = (s, .refused .loadRange)) ∧
    (s.runState ≠ .ready → perform (.loadCode ws) s = (s, .refused .notReady))

/-- R45 (decisions D19, D32): the host's raw access. A range is admitted when it is empty or inside one region; a write sets
exactly its bytes and nothing else; a read returns them; anything else is refused. The canonical form is the model's
premise (log 6). -/
def Obligations.HostRawAccess : Prop :=
  ∀ (a : Nat) (s : State), s.mem.wf →
    (∀ bs : List Byte, s.runState = .ready → bs = [] ∨ (regionOf a bs.length).isSome = true →
      ∃ t, writeMemory a bs s = .ok t ∧ (∀ k b, bs[k]? = some b → byteAt t (a + k) = some b) ∧
        sameMemoryOutside s t a bs.length ∧ readMemory a bs.length t = .ok bs ∧
        t = { s with mem := t.mem }) ∧
    (∀ n, s.runState ≠ .uninitialized → n = 0 ∨ (regionOf a n).isSome = true →
      ∃ bs, readMemory a n s = .ok bs ∧ bs.length = n ∧ ∀ k, k < n → byteAt s (a + k) = bs[k]?) ∧
    (∀ bs : List Byte, s.runState = .ready → bs ≠ [] → regionOf a bs.length = none →
      perform (.writeMemory a bs) s = (s, .refused .memoryRange)) ∧
    (∀ n, s.runState ≠ .uninitialized → n ≠ 0 → regionOf a n = none →
      perform (.readMemory a n) s = (s, .refused .memoryRange)) ∧
    (∀ bs : List Byte, s.runState ≠ .ready → perform (.writeMemory a bs) s = (s, .refused .notReady)) ∧
    (∀ n, s.runState = .uninitialized → perform (.readMemory a n) s = (s, .refused .notReady))

/-- Booting with any data image whose blocks the host may write leaves `pc` at `CODE_BASE`; where no block lies in the code
region the first step executes word 0 of the loaded sequence; with no words it faults `absent` (70_reset_and_hazards.md
section 3, decision D11; 20_memory.md section 6). -/
def Obligations.BootExecutesFirstWord : Prop :=
  ∀ (ws : List Word) (image : List (Nat × List Byte)) (s : State), ws.length ≤ 1024 →
    (∀ blk ∈ image, blk.2 = [] ∨ (regionOf blk.1 blk.2.length).isSome = true) →
    ∃ t, boot ws image s = .ok t ∧ t.pc = 0x00010000 ∧ t.codeLen = ws.length ∧ t.runState = .ready ∧
      ((∀ blk ∈ image, blk.2 = [] ∨ regionOf blk.1 blk.2.length ≠ some .code) →
        ∀ w rest i, ws = w :: rest → decode w = some i → step t = exec i t) ∧
      (ws = [] → step t = .next (faultedWith (.decodeAbsent 0x00010000) t))

/-- The published mailbox contract (60_exceptions.md section 8): a committed store, by either form of `STR`, of 1, 2, 3 or 4
at the mailbox is one more move, stored twice it is two, any other value none, and a store elsewhere none. -/
def Obligations.MailboxStoresAreMoves : Prop :=
  ∀ (i : Instr) (ea v : Word) (s t : State), storeOf i s = some (ea, v) → wordAddress ea.toNat → exec i s = .next t →
    mailboxMoves t = mailboxMoves s ++
      (if ea = 0x30000 then
        (if v = 1 then [.up] else if v = 2 then [.down] else if v = 3 then [.left] else if v = 4 then [.right] else [])
       else [])

/-! ## Assembly text -/

/-- Every instruction is written by exactly one statement whose numbers are in range, and encoding that statement gives the
instruction back; a statement whose numbers are out of range gives none, so nothing wraps (30_encoding.md sections 2 and 5,
decisions D4, D5). -/
def Obligations.StatementRoundTrip : Prop :=
  (∀ i : Instr, (stmtOfInstr i).wellFormed = true ∧ Stmt.toInstr (stmtOfInstr i) = some i) ∧
  (∀ (st : Stmt) (i : Instr), Stmt.toInstr st = some i → st = stmtOfInstr i) ∧
  (∀ st : Stmt, st.wellFormed = false → Stmt.toInstr st = none)

/-- Assembling the canonical text of a word gives exactly that word (30_encoding.md section 5; the spacing of the text is
log 12). -/
def Obligations.DisassemblyAssemblesToSameWord : Prop :=
  ∀ (w : Word) (text : List Char), disassemble w = some text → assemble text = .ok [w]

/-- A program that assembles has at most 1024 words, one for each of its statements, each a valid word; one branch to a label
never defined gives `UnresolvedSymbolError` naming the label of such a branch; and a `SyntaxError` names a line of the text
and a column in it; no words are produced then (30_encoding.md section 5; which label, line and column: log 13). -/
def Obligations.AssembledProgramsAreValid : Prop :=
  (∀ (src : List Char) (ws : List Word), assemble src = .ok ws →
    ws.length ≤ 1024 ∧ (∀ w ∈ ws, validWord w = true) ∧
    ∃ p, pass1 ⟨[], []⟩ 1 (splitLines [] src) = .ok p ∧ ws.length = p.stmts.length) ∧
  (∀ (src : List Char) (p : Pass1) (c : Cond) (x : List Char),
    pass1 ⟨[], []⟩ 1 (splitLines [] src) = .ok p → .branch c (.label x) ∈ p.stmts → p.labels.find x = none →
    ∃ y c', assemble src = .error (.unresolvedSymbol y) ∧ .branch c' (.label y) ∈ p.stmts ∧ p.labels.find y = none) ∧
  (∀ (src : List Char) (line column : Nat), assemble src = .error (.syntaxError line column) →
    ∃ cs, 1 ≤ line ∧ (splitLines [] src)[line - 1]? = some cs ∧ 1 ≤ column ∧ column ≤ cs.length)
end

