-- ==== Sys2Proof/Laws/Encoding.lean ====
section
/-! SUPPORT. What the formats and the fields of spec/30_encoding.md R51, R52 do to each other. -/

namespace Sys2Proof

/-! ## Fields of the formats A and B -/

@[simp] theorem opField_packA (op : BitVec 8) (a : BitVec 4) (i : Imm20) : opField (packA op a i) = op := by
  ext j hj; simp [opField, packA]; grind

@[simp] theorem raField_packA (op : BitVec 8) (a : BitVec 4) (i : Imm20) : raField (packA op a i) = a := by
  ext j hj; simp [raField, packA]; grind

@[simp] theorem imm20Field_packA (op : BitVec 8) (a : BitVec 4) (i : Imm20) : imm20Field (packA op a i) = i := by
  ext j hj; simp [imm20Field, packA]; grind

/-- A word is the format A of its fields. -/
theorem packA_fields (w : Word) : packA (opField w) (raField w) (imm20Field w) = w := by
  ext j hj; simp [opField, raField, imm20Field, packA]; grind

/-! ## Fields of the formats R3, R2D and R2N -/

@[simp] theorem opField_packR (op : BitVec 8) (a b c : BitVec 4) : opField (packR op a b c) = op := by
  ext j hj; simp [opField, packR]; grind

@[simp] theorem raField_packR (op : BitVec 8) (a b c : BitVec 4) : raField (packR op a b c) = a := by
  ext j hj; simp [raField, packR]; grind

@[simp] theorem rbField_packR (op : BitVec 8) (a b c : BitVec 4) : rbField (packR op a b c) = b := by
  ext j hj; simp [rbField, packR]; grind

@[simp] theorem rcField_packR (op : BitVec 8) (a b c : BitVec 4) : rcField (packR op a b c) = c := by
  ext j hj; simp [rcField, packR]; grind

@[simp] theorem z12Field_packR (op : BitVec 8) (a b c : BitVec 4) : z12Field (packR op a b c) = 0 := by
  ext j hj; simp [z12Field, packR]; grind

/-- A word whose low twelve bits are zero is the format R3 of its fields. -/
theorem packR_fields (w : Word) (h : z12Field w = 0) : packR (opField w) (raField w) (rbField w) (rcField w) = w := by
  have hz : ∀ k, k < 12 → w.getLsbD k = false := by
    intro k hk
    have := congrArg (fun v => v.getLsbD k) h
    simpa [z12Field, hk] using this
  ext j hj
  have := hz j
  simp [opField, raField, rbField, rcField, packR]
  grind

/-! ## Fields of the formats I and IN -/

@[simp] theorem opField_packI (op : BitVec 8) (a b : BitVec 4) (i : Imm16) : opField (packI op a b i) = op := by
  ext j hj; simp [opField, packI]; grind

@[simp] theorem raField_packI (op : BitVec 8) (a b : BitVec 4) (i : Imm16) : raField (packI op a b i) = a := by
  ext j hj; simp [raField, packI]; grind

@[simp] theorem rbField_packI (op : BitVec 8) (a b : BitVec 4) (i : Imm16) : rbField (packI op a b i) = b := by
  ext j hj; simp [rbField, packI]; grind

@[simp] theorem imm16Field_packI (op : BitVec 8) (a b : BitVec 4) (i : Imm16) : imm16Field (packI op a b i) = i := by
  ext j hj; simp [imm16Field, packI]; grind

/-- A word is the format I of its fields. -/
theorem packI_fields (w : Word) : packI (opField w) (raField w) (rbField w) (imm16Field w) = w := by
  ext j hj; simp [opField, raField, rbField, imm16Field, packI]; grind

/-! ## Conditions -/

/-- The number of a condition names it (R55). -/
@[simp] theorem ofCode_code (c : Cond) : Cond.ofCode c.code = some c := by cases c <;> rfl

/-- A number that names a condition is that condition's number (R55). -/
theorem code_of_ofCode (k : BitVec 4) (c : Cond) (h : Cond.ofCode k = some c) : c.code = k := by
  revert c; revert k; decide

/-- A number names no condition exactly when it is 15 (R55, R56). -/
theorem ofCode_none_iff (k : BitVec 4) : Cond.ofCode k = none ↔ k = 15 := by
  revert k; decide

/-- The word of a branch (R63). -/
@[simp] theorem encode_branchInstr (c : Cond) (t : Imm20) : encode (branchInstr c t) = encodeBranch c t := by
  cases c <;> rfl

/-! ## Masks of the opcode map (R54) -/

/-- The bits of the mask. -/
theorem mask_FF000000 : ∀ j, j < 32 → (0xFF000000 : Word).getLsbD j = decide (24 ≤ j) := by decide

/-- The bits of the mask. -/
theorem mask_FFF00000 : ∀ j, j < 32 → (0xFFF00000 : Word).getLsbD j = decide (20 ≤ j) := by decide

/-- The bits of the mask. -/
theorem mask_FF000FFF : ∀ j, j < 32 → (0xFF000FFF : Word).getLsbD j = decide (24 ≤ j ∨ j < 12) := by decide

/-- The bits of the mask. -/
theorem mask_FF0F0FFF : ∀ j, j < 32 → (0xFF0F0FFF : Word).getLsbD j = decide (24 ≤ j ∨ (16 ≤ j ∧ j < 20) ∨ j < 12) := by decide

/-- The bits of the mask. -/
theorem mask_FFF00FFF : ∀ j, j < 32 → (0xFFF00FFF : Word).getLsbD j = decide (20 ≤ j ∨ j < 12) := by decide


/-- The opcode byte of a format A word under its row's mask. -/
theorem packA_mask (op : BitVec 8) (a : BitVec 4) (i : Imm20) :
    packA op a i &&& (0xFF000000 : Word) = op.setWidth 32 <<< 24 := by
  apply BitVec.eq_of_getLsbD_eq
  intro j hj
  rw [BitVec.getLsbD_and, mask_FF000000 j hj]
  simp [packA]
  grind

/-- Opcode and condition of a format B word under its row's mask. -/
theorem packB_mask (op : BitVec 8) (a : BitVec 4) (i : Imm20) :
    packA op a i &&& (0xFFF00000 : Word) = op.setWidth 32 <<< 24 ||| a.setWidth 32 <<< 20 := by
  apply BitVec.eq_of_getLsbD_eq
  intro j hj
  rw [BitVec.getLsbD_and, mask_FFF00000 j hj]
  simp [packA]
  grind

/-- A format R3 word under its row's mask. -/
theorem packR3_mask (op : BitVec 8) (a b c : BitVec 4) :
    packR op a b c &&& (0xFF000FFF : Word) = op.setWidth 32 <<< 24 := by
  apply BitVec.eq_of_getLsbD_eq
  intro j hj
  rw [BitVec.getLsbD_and, mask_FF000FFF j hj]
  simp [packR]
  grind

/-- A format R2D word under its row's mask. -/
theorem packR2D_mask (op : BitVec 8) (a c : BitVec 4) :
    packR op a 0 c &&& (0xFF0F0FFF : Word) = op.setWidth 32 <<< 24 := by
  apply BitVec.eq_of_getLsbD_eq
  intro j hj
  rw [BitVec.getLsbD_and, mask_FF0F0FFF j hj]
  simp [packR]
  grind

/-- A format R2N word under its row's mask. -/
theorem packR2N_mask (op : BitVec 8) (b c : BitVec 4) :
    packR op 0 b c &&& (0xFFF00FFF : Word) = op.setWidth 32 <<< 24 := by
  apply BitVec.eq_of_getLsbD_eq
  intro j hj
  rw [BitVec.getLsbD_and, mask_FFF00FFF j hj]
  simp [packR]
  grind

/-- A format I word under its row's mask. -/
theorem packI_mask (op : BitVec 8) (a b : BitVec 4) (i : Imm16) :
    packI op a b i &&& (0xFF000000 : Word) = op.setWidth 32 <<< 24 := by
  apply BitVec.eq_of_getLsbD_eq
  intro j hj
  rw [BitVec.getLsbD_and, mask_FF000000 j hj]
  simp [packI]
  grind

/-- A format IN word under its row's mask. -/
theorem packIN_mask (op : BitVec 8) (b : BitVec 4) (i : Imm16) :
    packI op 0 b i &&& (0xFFF00000 : Word) = op.setWidth 32 <<< 24 := by
  apply BitVec.eq_of_getLsbD_eq
  intro j hj
  rw [BitVec.getLsbD_and, mask_FFF00000 j hj]
  simp [packI]
  grind

end Sys2Proof
end

