-- ==== Sys2Proof/Laws/Memory.lean ====
section
/-! SUPPORT. The laws of memory: every operation keeps the canonical form, a read after a write gives the value written
and leaves every other byte alone, and equal contents are equal data. -/

namespace Sys2Proof.Machine

/-! ## The address map -/

/-- Membership of a region as inequalities (R31, R32). -/
theorem regionOf_isSome_iff (a n : Nat) :
    (regionOf a n).isSome = true ↔
      (0x10000 ≤ a ∧ a + n ≤ 0x11000) ∨ (0x20000 ≤ a ∧ a + n ≤ 0x21000) ∨ (0x30000 ≤ a ∧ a + n ≤ 0x31000) := by
  simp only [regionOf, inRegion, Region.base, Region.bytes, Config.codeBase, Config.stackBase, Config.dataBase,
    Config.codeBytes, Config.stackBytes, Config.dataBytes, Config.codeWords, Config.stackWords, Config.dataWords,
    Config.wordBytes]
  by_cases h1 : 65536 ≤ a ∧ a + n ≤ 65536 + 1024 * 4
  · simp [h1]
  · by_cases h2 : 131072 ≤ a ∧ a + n ≤ 131072 + 1024 * 4
    · simp [h1, h2]
    · by_cases h3 : 196608 ≤ a ∧ a + n ≤ 196608 + 1024 * 4
      · simp [h1, h2, h3]
      · simp [h1, h2, h3]

/-- The backed addresses are the three ranges of R31. -/
theorem backed_iff (a : Nat) :
    backed a = true ↔
      (0x10000 ≤ a ∧ a < 0x11000) ∨ (0x20000 ≤ a ∧ a < 0x21000) ∨ (0x30000 ≤ a ∧ a < 0x31000) := by
  rw [backed, regionOf_isSome_iff]; omega

/-- Every byte of a range inside a region is backed. -/
theorem backed_of_region {a n x : Nat} (h : (regionOf a n).isSome = true) (h1 : a ≤ x) (h2 : x < a + n) :
    backed x = true := by
  rw [regionOf_isSome_iff] at h; rw [backed_iff]; omega

/-- An admitted access is aligned and wholly inside one region (R33). -/
theorem admit_none_iff (a : Word) (n : Nat) :
    admission a n = none ↔ a.toNat % n = 0 ∧ (regionOf a.toNat n).isSome = true := by
  unfold admission
  split
  · simp_all
  · split
    · simp_all
    · simp_all [Option.isSome_iff_ne_none]

/-- Alignment is reported first (R33). -/
theorem admit_misaligned_iff (a : Word) (n : Nat) : admission a n = some .misaligned ↔ a.toNat % n ≠ 0 := by
  unfold admission
  split
  · simp_all
  · split <;> simp_all

/-- Bounds are reported only for an aligned address (R33). -/
theorem admit_outOfRange_iff (a : Word) (n : Nat) :
    admission a n = some .outOfRange ↔ a.toNat % n = 0 ∧ regionOf a.toNat n = none := by
  unfold admission
  split
  · simp_all
  · split <;> simp_all

/-! ## One byte -/

/-- The addresses rise from `x` on: what is left of the canonical form behind an entry. -/
theorem byte_of_all_gt : ∀ (m : Memory) (x : Nat), (∀ c ∈ m, x < c.1) → m.byte x = 0
  | [], _, _ => rfl
  | (a, b) :: m, x, h => by
    have ha : x < a := h (a, b) (by simp)
    have : ¬a = x := by omega
    simp only [Memory.byte, this, if_false]
    exact byte_of_all_gt m x (fun c hc => h c (by simp [hc]))

/-- Every entry after `setByte` is an old entry or the new one. -/
theorem mem_setByte : ∀ (m : Memory) (x : Nat) (v : Byte) (c : Host.Cell),
    c ∈ m.setByte x v → c ∈ m ∨ (c = (x, v) ∧ v ≠ 0)
  | [], x, v, c, h => by
    simp only [Memory.setByte] at h
    split at h <;> simp_all
  | (a, b) :: m, x, v, c, h => by
    simp only [Memory.setByte] at h
    split at h
    · split at h
      · exact .inl h
      · rcases List.mem_cons.1 h with h | h
        · exact .inr ⟨h, by assumption⟩
        · exact .inl h
    · split at h
      · split at h
        · simp_all
        · rcases List.mem_cons.1 h with h | h
          · simp_all
          · simp_all
      · rcases List.mem_cons.1 h with h | h
        · simp_all
        · rcases mem_setByte m x v c h with h | h
          · simp_all
          · simp_all

/-- `setByte` keeps the canonical form at a backed address. -/
theorem setByte_wf : ∀ (m : Memory) (x : Nat) (v : Byte), m.wf → backed x = true → (m.setByte x v).wf
  | [], x, v, _, hx => by
    simp only [Memory.setByte]
    split <;> simp_all [Memory.wf]
  | (a, b) :: m, x, v, h, hx => by
    obtain ⟨hs, hv⟩ := h
    rw [List.pairwise_cons] at hs
    have hm : Memory.wf m := ⟨hs.2, fun c hc => hv c (by simp [hc])⟩
    have hab : b ≠ 0 ∧ backed a = true := hv (a, b) (by simp)
    simp only [Memory.setByte]
    split
    · rename_i hlt
      split
      · exact ⟨List.pairwise_cons.2 hs, hv⟩
      · rename_i hv0
        refine ⟨List.pairwise_cons.2 ⟨?_, List.pairwise_cons.2 hs⟩, ?_⟩
        · intro c hc
          rcases List.mem_cons.1 hc with rfl | hc
          · exact hlt
          · exact Nat.lt_trans hlt (hs.1 c hc)
        · intro c hc
          rcases List.mem_cons.1 hc with rfl | hc
          · exact ⟨hv0, hx⟩
          · exact hv c hc
    · split
      · rename_i heq
        subst heq
        split
        · exact hm
        · rename_i hv0
          refine ⟨List.pairwise_cons.2 ⟨hs.1, hs.2⟩, ?_⟩
          intro c hc
          rcases List.mem_cons.1 hc with rfl | hc
          · exact ⟨hv0, hx⟩
          · exact hm.2 c hc
      · have hrec := setByte_wf m x v hm hx
        refine ⟨List.pairwise_cons.2 ⟨?_, hrec.1⟩, ?_⟩
        · intro c hc
          rcases mem_setByte m x v c hc with hc | ⟨rfl, _⟩
          · exact hs.1 c hc
          · show a < x
            omega
        · intro c hc
          rcases List.mem_cons.1 hc with rfl | hc
          · exact hab
          · exact hrec.2 c hc

/-- A byte read after a write: the value written at that address, the old value elsewhere. -/
theorem byte_setByte : ∀ (m : Memory) (x : Nat) (v : Byte) (y : Nat), m.wf →
    (m.setByte x v).byte y = if y = x then v else m.byte y
  | [], x, v, y, _ => by
    simp only [Memory.setByte]
    by_cases hy : y = x
    · subst hy
      split <;> simp_all [Memory.byte]
    · have : ¬x = y := fun h => hy h.symm
      split
      · simp
      · simp [Memory.byte, this]
  | (a, b) :: m, x, v, y, h => by
    obtain ⟨hs, hv⟩ := h
    rw [List.pairwise_cons] at hs
    have hm : Memory.wf m := ⟨hs.2, fun c hc => hv c (by simp [hc])⟩
    have hgt : ∀ z, z ≤ a → Memory.byte m z = 0 := fun z hz =>
      byte_of_all_gt m z (fun c hc => Nat.lt_of_le_of_lt hz (hs.1 c hc))
    simp only [Memory.setByte]
    split
    · rename_i hlt
      have hx0 : Memory.byte ((a, b) :: m) x = 0 := by
        have : ¬a = x := by omega
        simp [Memory.byte, this, hgt x (by omega)]
      split
      · rename_i hv0
        by_cases hy : y = x
        · subst hy; simp [hx0, hv0]
        · simp [hy]
      · by_cases hy : y = x
        · subst hy; simp [Memory.byte]
        · have : ¬x = y := fun h => hy h.symm
          simp [Memory.byte, hy, this]
    · split
      · rename_i heq
        subst heq
        split
        · rename_i hv0
          by_cases hy : y = x
          · subst hy; simp [hgt, hv0]
          · have : ¬x = y := fun h => hy h.symm
            simp [Memory.byte, hy, this]
        · by_cases hy : y = x
          · subst hy; simp [Memory.byte]
          · have : ¬x = y := fun h => hy h.symm
            simp [Memory.byte, hy, this]
      · have hrec := byte_setByte m x v y hm
        by_cases hay : a = y
        · subst hay
          have : ¬a = x := by omega
          simp [Memory.byte, this]
        · simp [Memory.byte, hay, hrec]

/-! ## Ranges of bytes -/

/-- `writeBytes` keeps the canonical form where every byte written is backed. -/
theorem writeBytes_wf : ∀ (bs : List Byte) (m : Memory) (x : Nat), m.wf →
    (∀ y, x ≤ y → y < x + bs.length → backed y = true) → (m.writeBytes x bs).wf
  | [], _, _, h, _ => h
  | v :: vs, m, x, h, hb => by
    have hx : backed x = true := hb x (by omega) (by simp)
    refine writeBytes_wf vs (m.setByte x v) (x + 1) (setByte_wf m x v h hx) ?_
    intro y h1 h2
    exact hb y (by omega) (by simp only [List.length_cons]; omega)

/-- `writeBytes` into a range of one region keeps the canonical form. -/
theorem writeBytes_wf_region {bs : List Byte} {m : Memory} {x : Nat} (h : m.wf)
    (hr : (regionOf x bs.length).isSome = true) : (m.writeBytes x bs).wf :=
  writeBytes_wf bs m x h (fun _ h1 h2 => backed_of_region hr h1 h2)

/-- A byte read after `writeBytes`: the byte written in the range, the old byte outside it. -/
theorem byte_writeBytes : ∀ (bs : List Byte) (m : Memory) (x y : Nat), m.wf →
    (∀ z, x ≤ z → z < x + bs.length → backed z = true) →
    (m.writeBytes x bs).byte y = if x ≤ y then bs.getD (y - x) (m.byte y) else m.byte y
  | [], m, x, y, _, _ => by simp [Memory.writeBytes]
  | v :: vs, m, x, y, h, hb => by
    have hx : backed x = true := hb x (by omega) (by simp)
    have hrec := byte_writeBytes vs (m.setByte x v) (x + 1) y (setByte_wf m x v h hx)
      (fun z h1 h2 => hb z (by omega) (by simp only [List.length_cons]; omega))
    have h1 := byte_setByte m x v y h
    simp only [Memory.writeBytes, hrec, h1]
    by_cases hy : y = x
    · subst hy; simp
    · by_cases hlt : x ≤ y
      · have : x + 1 ≤ y := by omega
        obtain ⟨k, hk⟩ : ∃ k, y - x = k + 1 := ⟨y - x - 1, by omega⟩
        have hk' : y - (x + 1) = k := by omega
        simp [hy, hlt, this, hk, hk']
      · have : ¬x + 1 ≤ y := by omega
        simp [hy, hlt, this]

/-- Outside the bytes written, `writeBytes` changes nothing. -/
theorem byte_writeBytes_outside {bs : List Byte} {m : Memory} {x y : Nat} (h : m.wf)
    (hr : (regionOf x bs.length).isSome = true) (hy : y < x ∨ x + bs.length ≤ y) :
    (m.writeBytes x bs).byte y = m.byte y := by
  rw [byte_writeBytes bs m x y h (fun z h1 h2 => backed_of_region hr h1 h2)]
  split
  · rw [List.getD_eq_default]; omega
  · rfl

/-- `readBytes` gives as many bytes as it is asked for. -/
@[simp] theorem readBytes_length (m : Memory) (x n : Nat) : (m.readBytes x n).length = n := by
  induction n generalizing x with
  | zero => rfl
  | succ n ih => simp [Memory.readBytes, ih]

/-- The byte at an index of `readBytes`. -/
theorem readBytes_getD (m : Memory) (x n k : Nat) (d : Byte) (h : k < n) :
    (m.readBytes x n).getD k d = m.byte (x + k) := by
  induction n generalizing x k with
  | zero => omega
  | succ n ih =>
    cases k with
    | zero => simp [Memory.readBytes]
    | succ k =>
      have := ih (x + 1) k (by omega)
      simp only [Memory.readBytes, List.getD_cons_succ, this]
      congr 1; omega

/-- `zeroRange` keeps the canonical form. -/
theorem zeroRange_wf (m : Memory) (x n : Nat) (h : m.wf) : (m.zeroRange x n).wf :=
  ⟨h.1.filter _, fun c hc => h.2 c (List.mem_filter.1 hc).1⟩

/-- A byte read after `zeroRange`: the reset byte in the range, the old byte outside it. -/
theorem byte_zeroRange (m : Memory) (x n y : Nat) :
    (m.zeroRange x n).byte y = if x ≤ y ∧ y < x + n then 0 else m.byte y := by
  induction m with
  | nil => simp [Memory.zeroRange, Memory.byte]
  | cons c m ih =>
    obtain ⟨a, b⟩ := c
    simp only [Memory.zeroRange] at ih
    simp only [Memory.zeroRange, List.filter_cons]
    by_cases hc : x ≤ a ∧ a < x + n
    · simp only [hc, and_self, decide_true, Bool.not_true]
      rw [if_neg (by simp), ih]
      by_cases hy : x ≤ y ∧ y < x + n
      · simp [hy]
      · have : ¬a = y := fun he => hy (he ▸ hc)
        simp [hy, Memory.byte, this]
    · simp only [hc, decide_false, Bool.not_false, if_true, Memory.byte, ih]
      by_cases hay : a = y
      · subst hay; simp [hc]
      · simp [hay]

/-! ## Equal contents are equal data -/

/-- Two canonical memories with the same bytes are the same list. -/
theorem memory_ext : ∀ (m m' : Memory), m.wf → m'.wf → (∀ x, m.byte x = m'.byte x) → m = m'
  | [], [], _, _, _ => rfl
  | [], (a, b) :: m', _, h', he => by
    have := he a
    simp only [Memory.byte, if_true] at this
    exact absurd this.symm (h'.2 (a, b) (by simp)).1
  | (a, b) :: m, [], h, _, he => by
    have := he a
    simp only [Memory.byte, if_true] at this
    exact absurd this (h.2 (a, b) (by simp)).1
  | (a, b) :: m, (a', b') :: m', h, h', he => by
    obtain ⟨hs, hv⟩ := h
    obtain ⟨hs', hv'⟩ := h'
    rw [List.pairwise_cons] at hs hs'
    have hb : b ≠ 0 := (hv (a, b) (by simp)).1
    have hb' : b' ≠ 0 := (hv' (a', b') (by simp)).1
    have hgt : ∀ z, z ≤ a → Memory.byte m z = 0 := fun z hz =>
      byte_of_all_gt m z (fun c hc => Nat.lt_of_le_of_lt hz (hs.1 c hc))
    have hgt' : ∀ z, z ≤ a' → Memory.byte m' z = 0 := fun z hz =>
      byte_of_all_gt m' z (fun c hc => Nat.lt_of_le_of_lt hz (hs'.1 c hc))
    have haa : a = a' := by
      rcases Nat.lt_trichotomy a a' with hlt | heq | hlt
      · have := he a
        have h1 : ¬a' = a := by omega
        simp only [Memory.byte, if_true, h1, if_false, hgt' a (by omega)] at this
        exact absurd this hb
      · exact heq
      · have := he a'
        have h1 : ¬a = a' := by omega
        simp only [Memory.byte, if_true, h1, if_false, hgt a' (by omega)] at this
        exact absurd this.symm hb'
    subst haa
    have hbb : b = b' := by
      have := he a
      simpa [Memory.byte] using this
    subst hbb
    have : m = m' := by
      refine memory_ext m m' ⟨hs.2, fun c hc => hv c (by simp [hc])⟩ ⟨hs'.2, fun c hc => hv' c (by simp [hc])⟩ ?_
      intro x
      by_cases hx : a = x
      · subst hx; rw [hgt a (Nat.le_refl _), hgt' a (Nat.le_refl _)]
      · have := he x
        simpa [Memory.byte, hx] using this
    rw [this]

/-! ## Words -/

@[simp] theorem bytesOfWord_length (w : Word) : (bytesOfWord w).length = 4 := rfl

/-- The four bytes of a word, read back little-endian, are the word (R34). -/
@[simp] theorem wordOfBytes_bytes (w : Word) :
    wordOfBytes (byteOfWord w 0) (byteOfWord w 1) (byteOfWord w 2) (byteOfWord w 3) = w := by
  ext j hj
  simp [wordOfBytes, byteOfWord]
  grind

/-- Byte 0 of a composed word (R34). -/
@[simp] theorem byteOfWord_zero (b0 b1 b2 b3 : Byte) : byteOfWord (wordOfBytes b0 b1 b2 b3) 0 = b0 := by
  ext j hj
  simp [wordOfBytes, byteOfWord]
  grind

/-- Byte 1 of a composed word (R34). -/
@[simp] theorem byteOfWord_one (b0 b1 b2 b3 : Byte) : byteOfWord (wordOfBytes b0 b1 b2 b3) 1 = b1 := by
  ext j hj
  simp [wordOfBytes, byteOfWord]
  grind

/-- Byte 2 of a composed word (R34). -/
@[simp] theorem byteOfWord_two (b0 b1 b2 b3 : Byte) : byteOfWord (wordOfBytes b0 b1 b2 b3) 2 = b2 := by
  ext j hj
  simp [wordOfBytes, byteOfWord]
  grind

/-- Byte 3 of a composed word (R34). -/
@[simp] theorem byteOfWord_three (b0 b1 b2 b3 : Byte) : byteOfWord (wordOfBytes b0 b1 b2 b3) 3 = b3 := by
  ext j hj
  simp [wordOfBytes, byteOfWord]
  grind

/-- A stored word keeps the canonical form. -/
theorem setWord_wf {m : Memory} {x : Nat} (w : Word) (h : m.wf) (hr : (regionOf x 4).isSome = true) :
    (m.setWord x w).wf := writeBytes_wf_region h (by simpa using hr)

/-- The bytes of memory after a word is stored (R34). -/
theorem byte_setWord {m : Memory} {x : Nat} (w : Word) (h : m.wf) (hr : (regionOf x 4).isSome = true) (y : Nat) :
    (m.setWord x w).byte y = if x ≤ y then (bytesOfWord w).getD (y - x) (m.byte y) else m.byte y :=
  byte_writeBytes _ m x y h (fun _ h1 h2 => backed_of_region hr h1 (by simpa using h2))

/-- Outside its four bytes a stored word changes nothing. -/
theorem byte_setWord_outside {m : Memory} {x y : Nat} (w : Word) (h : m.wf) (hr : (regionOf x 4).isSome = true)
    (hy : y < x ∨ x + 4 ≤ y) : (m.setWord x w).byte y = m.byte y :=
  byte_writeBytes_outside h (by simpa using hr) (by simpa using hy)

/-- A word read after it was stored is the word (R34, R38). -/
theorem wordAt_setWord {m : Memory} {x : Nat} (w : Word) (h : m.wf) (hr : (regionOf x 4).isSome = true) :
    (m.setWord x w).wordAt x = w := by
  have h2 : x ≤ x + 1 := by omega
  have h3 : x ≤ x + 2 := by omega
  have h4 : x ≤ x + 3 := by omega
  have e2 : x + 1 - x = 1 := by omega
  have e3 : x + 2 - x = 2 := by omega
  have e4 : x + 3 - x = 3 := by omega
  simp [Memory.wordAt, byte_setWord w h hr, h2, h3, h4, e2, e3, e4, bytesOfWord]

/-- Writing back the bytes that stood in a range undoes any write to that range. -/
theorem writeBytes_back {m : Memory} {x : Nat} {bs : List Byte} (h : m.wf)
    (hr : (regionOf x bs.length).isSome = true) :
    (m.writeBytes x bs).writeBytes x (m.readBytes x bs.length) = m := by
  have hb : ∀ z, x ≤ z → z < x + bs.length → backed z = true := fun z h1 h2 => backed_of_region hr h1 h2
  have hw := writeBytes_wf bs m x h hb
  have hb' : ∀ z, x ≤ z → z < x + (m.readBytes x bs.length).length → backed z = true := by simpa using hb
  refine memory_ext _ _ (writeBytes_wf _ _ x hw hb') h ?_
  intro y
  rw [byte_writeBytes _ _ x y hw hb', byte_writeBytes bs m x y h hb]
  by_cases h1 : x ≤ y
  · by_cases h2 : y < x + bs.length
    · have hk : y - x < bs.length := by omega
      have hxy : x + (y - x) = y := by omega
      simp only [h1, if_true]
      rw [readBytes_getD _ _ _ _ _ hk, hxy]
    · have hk : bs.length ≤ y - x := by omega
      simp only [h1, if_true]
      rw [List.getD_eq_default _ _ (by simpa using hk), List.getD_eq_default _ _ hk]
  · simp [h1]

end Sys2Proof.Machine
end

