-- ==== Sys2Proof/Laws/State.lean ====
section
/-! SUPPORT. One lemma per field of State for each update, so that no later proof unfolds a record update. -/

namespace Sys2Proof.Machine

/-! ## Reset -/

@[simp] theorem reset_regs : State.reset.regs = Vector.replicate 16 0 := rfl
@[simp] theorem reset_pc : State.reset.pc = Config.resetPc := rfl
@[simp] theorem reset_flags : State.reset.flags = Flags.clear := rfl
@[simp] theorem reset_mem : State.reset.mem = [] := rfl
@[simp] theorem reset_runState : State.reset.runState = .ready := rfl
@[simp] theorem reset_faultRecord : State.reset.faultRecord = none := rfl
@[simp] theorem reset_codeLen : State.reset.codeLen = 0 := rfl
@[simp] theorem reset_history : State.reset.history = [] := rfl
@[simp] theorem reset_storeEvents : State.reset.storeEvents = [] := rfl

/-! ## Commit -/

variable (e : Effect) (s : State)

@[simp] theorem commit_regs : (commit e s).regs = regsAfter e s := rfl
@[simp] theorem commit_pc : (commit e s).pc = e.nextPc := rfl
@[simp] theorem commit_flags : (commit e s).flags = e.flags.getD s.flags := rfl
@[simp] theorem commit_mem : (commit e s).mem = memAfter e s := rfl
@[simp] theorem commit_runState : (commit e s).runState = runStateAfter e := rfl
@[simp] theorem commit_faultRecord : (commit e s).faultRecord = s.faultRecord := rfl
@[simp] theorem commit_codeLen : (commit e s).codeLen = s.codeLen := rfl
@[simp] theorem commit_history : (commit e s).history = stepRecord e s :: s.history := rfl
@[simp] theorem commit_storeEvents : (commit e s).storeEvents = eventsAfter e s := rfl

theorem regsAfter_none (h : e.reg = none) : regsAfter e s = s.regs := by simp [regsAfter, h]
theorem regsAfter_some {r : RegNum} {v : Word} (h : e.reg = some (r, v)) : regsAfter e s = setReg s.regs r v := by
  simp [regsAfter, h]
theorem memAfter_none (h : e.store = none) : memAfter e s = s.mem := by simp [memAfter, h]
theorem memAfter_some {a v : Word} (h : e.store = some (a, v)) : memAfter e s = s.mem.setWord a.toNat v := by
  simp [memAfter, h]
theorem eventsAfter_none (h : e.store = none) : eventsAfter e s = s.storeEvents := by simp [eventsAfter, h]
theorem eventsAfter_some {a v : Word} (h : e.store = some (a, v)) : eventsAfter e s = s.storeEvents ++ [⟨a, v⟩] := by
  simp [eventsAfter, h]

/-! ## Fault entry -/

variable (f : FaultRecord)

@[simp] theorem enterFault_regs : (enterFault f s).regs = s.regs := rfl
@[simp] theorem enterFault_pc : (enterFault f s).pc = s.pc := rfl
@[simp] theorem enterFault_flags : (enterFault f s).flags = s.flags := rfl
@[simp] theorem enterFault_mem : (enterFault f s).mem = s.mem := rfl
@[simp] theorem enterFault_runState : (enterFault f s).runState = .faulted := rfl
@[simp] theorem enterFault_faultRecord : (enterFault f s).faultRecord = some f := rfl
@[simp] theorem enterFault_codeLen : (enterFault f s).codeLen = s.codeLen := rfl
@[simp] theorem enterFault_history : (enterFault f s).history = s.history := rfl
@[simp] theorem enterFault_storeEvents : (enterFault f s).storeEvents = s.storeEvents := rfl

/-! ## Undo -/

variable (r : StepRecord) (rest : List StepRecord)

@[simp] theorem undo_regs : (undo r rest s).regs = undoRegs r s.regs := rfl
@[simp] theorem undo_pc : (undo r rest s).pc = r.oldPc := rfl
@[simp] theorem undo_flags : (undo r rest s).flags = r.oldFlags.getD s.flags := rfl
@[simp] theorem undo_mem : (undo r rest s).mem = undoMem r s.mem := rfl
@[simp] theorem undo_runState : (undo r rest s).runState = r.oldRunState := rfl
@[simp] theorem undo_faultRecord : (undo r rest s).faultRecord = s.faultRecord := rfl
@[simp] theorem undo_codeLen : (undo r rest s).codeLen = s.codeLen := rfl
@[simp] theorem undo_history : (undo r rest s).history = rest := rfl
@[simp] theorem undo_storeEvents : (undo r rest s).storeEvents = s.storeEvents := rfl

/-! ## Step records -/

@[simp] theorem stepRecord_oldPc : (stepRecord e s).oldPc = s.pc := rfl
@[simp] theorem stepRecord_oldRunState : (stepRecord e s).oldRunState = s.runState := rfl
@[simp] theorem stepRecord_oldReg : (stepRecord e s).oldReg = e.reg.map (fun rv => (rv.1, getReg s rv.1)) := rfl
@[simp] theorem stepRecord_oldFlags : (stepRecord e s).oldFlags = e.flags.map (fun _ => s.flags) := rfl
@[simp] theorem stepRecord_oldBytes :
    (stepRecord e s).oldBytes = e.store.map (fun av => (av.1, s.mem.readBytes av.1.toNat Config.wordBytes)) := rfl

/-! ## Placing a word for the next fetch -/

variable (k w : Nat)

@[simp] theorem withFetchWord_regs : (s.withFetchWord k w).regs = s.regs := rfl
@[simp] theorem withFetchWord_pc : (s.withFetchWord k w).pc = s.pc := rfl
@[simp] theorem withFetchWord_flags : (s.withFetchWord k w).flags = s.flags := rfl
@[simp] theorem withFetchWord_mem :
    (s.withFetchWord k w).mem = s.mem.setWord s.pc.toNat (tableWord k w) := rfl
@[simp] theorem withFetchWord_runState : (s.withFetchWord k w).runState = s.runState := rfl
@[simp] theorem withFetchWord_faultRecord : (s.withFetchWord k w).faultRecord = s.faultRecord := rfl
@[simp] theorem withFetchWord_codeLen :
    (s.withFetchWord k w).codeLen = max s.codeLen ((s.pc.toNat - Config.codeBase) / 4 + 1) := rfl
@[simp] theorem withFetchWord_history : (s.withFetchWord k w).history = s.history := rfl
@[simp] theorem withFetchWord_storeEvents : (s.withFetchWord k w).storeEvents = s.storeEvents := rfl

/-! ## General registers -/

/-- A register file read after a write to the same register gives the value written (R12). -/
@[simp] theorem setReg_same (regs : Vector Word 16) (i : RegNum) (v : Word) :
    (setReg regs i v)[i.toNat]'i.isLt = v := by simp [setReg]

/-- A write leaves every other register alone (R12). -/
theorem setReg_other (regs : Vector Word 16) {i j : RegNum} (v : Word) (h : j ≠ i) :
    (setReg regs i v)[j.toNat]'j.isLt = regs[j.toNat]'j.isLt := by
  have hne : i.toNat ≠ j.toNat := fun he => h (BitVec.eq_of_toNat_eq he.symm)
  simp [setReg, hne]

/-- Writing a register's old value back undoes a write to it. -/
@[simp] theorem setReg_setReg_back (regs : Vector Word 16) (i : RegNum) (v : Word) :
    setReg (setReg regs i v) i (regs[i.toNat]'i.isLt) = regs := by
  simp [setReg]

/-- After an effect that writes `Rr`, `Rr` holds the value. -/
theorem getReg_commit_same {r : RegNum} {v : Word} (h : e.reg = some (r, v)) : getReg (commit e s) r = v := by
  simp [getReg, regsAfter_some e s h]

/-- After an effect that writes `Rr`, every other register is as before. -/
theorem getReg_commit_other {r q : RegNum} {v : Word} (h : e.reg = some (r, v)) (hq : q ≠ r) :
    getReg (commit e s) q = getReg s q := by
  simp [getReg, regsAfter_some e s h, setReg_other s.regs v hq]

/-- After an effect that writes no register, every register is as before. -/
theorem getReg_commit_none (h : e.reg = none) (q : RegNum) : getReg (commit e s) q = getReg s q := by
  simp [getReg, regsAfter_none e s h]

@[simp] theorem getReg_enterFault (q : RegNum) : getReg (enterFault f s) q = getReg s q := rfl

end Sys2Proof.Machine
end

