-- ==== Sys2Proof/Laws/Ops.lean ====
section
/-! SUPPORT. For each shared operation, one lemma that says everything it can do. -/

namespace Sys2Proof.Machine

variable (s : State)

/-! ## Access primitives -/

/-- `MemRead` answers the little-endian word exactly where the access is admitted (R34). -/
theorem memRead_ok_iff (ea v : Word) :
    memRead ea s = .ok v ↔ admission ea 4 = none ∧ v = s.mem.wordAt ea.toNat := by
  unfold memRead
  show (match admission ea 4 with | some c => Except.error c | none => Except.ok _) = _ ↔ _
  cases h : admission ea 4 <;> simp [eq_comm]

/-- `MemRead` raises exactly the admission check's cause (R34). -/
theorem memRead_error_iff (ea : Word) (c : MemCause) : memRead ea s = .error c ↔ admission ea 4 = some c := by
  unfold memRead
  show (match admission ea 4 with | some c => Except.error c | none => Except.ok _) = _ ↔ _
  cases h : admission ea 4 <;> simp

/-- What a load does: it commits the loaded word, or enters the `MemoryFault` (R106, R107). -/
theorem load_cases (i : Instr) (t : RegNum) (ea : Word) :
    (admission ea 4 = none ∧
      load i t ea s = commit { reg := some (t, s.mem.wordAt ea.toNat), nextPc := seqPc s } s) ∨
    ∃ c, admission ea 4 = some c ∧ load i t ea s = memoryFault i c ea false s := by
  cases h : admission ea 4 with
  | none => exact .inl ⟨rfl, by simp [load, (memRead_ok_iff s ea _).2 ⟨h, rfl⟩]⟩
  | some c => exact .inr ⟨c, rfl, by simp [load, (memRead_error_iff s ea c).2 h]⟩

/-- What a store does: it commits the four bytes, or enters the `MemoryFault` (R108, R109). -/
theorem store_cases (i : Instr) (t : RegNum) (ea : Word) :
    (admission ea 4 = none ∧ store i t ea s = commit { store := some (ea, getReg s t), nextPc := seqPc s } s) ∨
    ∃ c, admission ea 4 = some c ∧ store i t ea s = memoryFault i c ea true s := by
  have hw : admission ea Config.wordBytes = admission ea 4 := rfl
  cases h : admission ea 4 with
  | none => exact .inl ⟨rfl, by simp [store, hw, h]⟩
  | some c => exact .inr ⟨c, rfl, by simp [store, hw, h]⟩

/-! ## What the arithmetic, compare and branch families share -/

/-- What `ADD` and `SUB` do: they commit the register and its flags (R91 to R94). -/
theorem writeAlu_eq (d : RegNum) (r : Word × Flags) :
    writeAlu d r s = commit { reg := some (d, r.1), flags := some r.2, nextPc := seqPc s } s := rfl

/-- What `CMP` does: it commits the flags (R95, R96). -/
theorem writeFlags_eq (r : Word × Flags) :
    writeFlags r s = commit { flags := some r.2, nextPc := seqPc s } s := rfl

/-- What a branch does: it commits `pc` alone, the target where the condition holds (R116 to R130). -/
theorem branch_eq (c : Cond) (target : Imm20) :
    branch c target s =
      commit { nextPc := if condHolds c s.flags then zext20 target else seqPc s } s := rfl

/-- Executing the branch of a condition (R116 to R130). -/
theorem exec_branchInstr (c : Cond) (target : Imm20) :
    exec (branchInstr c target) s = .next (branch c target s) := by cases c <;> rfl

/-! ## Fetch and decode -/

/-- A loaded instruction stands at `pc` (R41). -/
theorem fetchable_iff :
    fetchable s = true ↔ s.pc.toNat % 4 = 0 ∧ 0x10000 ≤ s.pc.toNat ∧ s.pc.toNat < 0x10000 + 4 * s.codeLen := by
  simp [fetchable, Config.codeBase]

/-- `Fetch()` answers the word at `pc` exactly where a loaded instruction stands (R41). -/
theorem fetch_some_iff (w : Word) :
    fetch s = some w ↔ fetchable s = true ∧ w = s.mem.wordAt s.pc.toNat := by
  unfold fetch
  cases fetchable s <;> simp [eq_comm]

/-- `Fetch()` finds nothing exactly where no loaded instruction stands (R41). -/
theorem fetch_none_iff : fetch s = none ↔ fetchable s = false := by simp [fetch]

/-- What a step finds at `pc`: nothing, an invalid word, or an instruction (R71 lines 2 and 3). -/
theorem fetchDecode_cases :
    (fetchable s = false ∧ fetchDecode s = .error (.decodeAbsent s.pc)) ∨
    (fetchable s = true ∧ decode (s.mem.wordAt s.pc.toNat) = none ∧
      fetchDecode s = .error (.decodeInvalid s.pc (s.mem.wordAt s.pc.toNat))) ∨
    ∃ i, fetchable s = true ∧ decode (s.mem.wordAt s.pc.toNat) = some i ∧ fetchDecode s = .ok i := by
  cases hf : fetchable s with
  | false => exact .inl ⟨rfl, by simp [fetchDecode, fetch, hf]⟩
  | true =>
    cases hd : decode (s.mem.wordAt s.pc.toNat) with
    | none => exact .inr (.inl ⟨rfl, rfl, by simp [fetchDecode, fetch, hf, hd]⟩)
    | some i => exact .inr (.inr ⟨i, rfl, rfl, by simp [fetchDecode, fetch, hf, hd]⟩)

/-! ## Execute -/

/-- The effect of an instruction that can commit: a store's address is admitted, and only `HLT` halts, on its own
address (R33, R71, R135). -/
structure Effect.Sound (e : Effect) (i : Instr) (s : State) : Prop where
  admitted : ∀ av, e.store = some av → admission av.1 4 = none
  halting : e.halts = true → i = .hlt ∧ e.nextPc = s.pc ∧ e.store = none

/-- An effect that neither stores nor halts is sound. -/
theorem Effect.sound_of_plain {e : Effect} (i : Instr) (hs : e.store = none) (hh : e.halts = false) :
    e.Sound i s := ⟨by simp [hs], by simp [hh]⟩

/-- Executing an instruction commits a sound effect or enters a `MemoryFault` of a load or store; it never stops
(R71 lines 4 to 6, R140). -/
theorem exec_cases (i : Instr) :
    (∃ e : Effect, e.Sound i s ∧ exec i s = .next (commit e s)) ∨
    ∃ c ea st, admission ea 4 = some c ∧ exec i s = .next (memoryFault i c ea st s) := by
  have hload : ∀ t ea, exec i s = .next (load i t ea s) →
      (∃ e : Effect, e.Sound i s ∧ exec i s = .next (commit e s)) ∨
      ∃ c ea st, admission ea 4 = some c ∧ exec i s = .next (memoryFault i c ea st s) := by
    intro t ea he
    rcases load_cases s i t ea with ⟨_, hl⟩ | ⟨c, hc, hl⟩
    · exact .inl ⟨_, Effect.sound_of_plain s i rfl rfl, by rw [he, hl]⟩
    · exact .inr ⟨c, ea, false, hc, by rw [he, hl]⟩
  have hstore : ∀ t ea, exec i s = .next (store i t ea s) →
      (∃ e : Effect, e.Sound i s ∧ exec i s = .next (commit e s)) ∨
      ∃ c ea st, admission ea 4 = some c ∧ exec i s = .next (memoryFault i c ea st s) := by
    intro t ea he
    rcases store_cases s i t ea with ⟨ha, hl⟩ | ⟨c, hc, hl⟩
    · refine .inl ⟨{ store := some (ea, getReg s t), nextPc := seqPc s }, ⟨?_, by simp⟩, by rw [he, hl]⟩
      rintro av hav
      obtain rfl : (ea, getReg s t) = av := by simpa using hav
      exact ha
    · exact .inr ⟨c, ea, true, hc, by rw [he, hl]⟩
  cases i with
  | hlt => exact .inl ⟨{ nextPc := s.pc, halts := true }, ⟨by simp, fun _ => ⟨rfl, rfl, rfl⟩⟩, rfl⟩
  | ldrAbs t abs => exact hload t (eaAbs abs) rfl
  | ldrOff t n off => exact hload t (eaOff n off s) rfl
  | strAbs t abs => exact hstore t (eaAbs abs) rfl
  | strOff t n off => exact hstore t (eaOff n off s) rfl
  | _ => exact .inl ⟨_, Effect.sound_of_plain s _ rfl rfl, rfl⟩

/-! ## Step -/

/-- A step in a state that cannot step is refused (R70). -/
theorem step_refused (h : s.runState.canStep = false) : step s = .refused .notReady := by simp [step, h]

/-- What a step from a state that can step does (R71): it faults at fetch or decode, or executes the instruction. -/
theorem step_cases (h : s.runState.canStep = true) :
    (∃ r, fetchDecode s = .error r ∧ step s = .next (enterFault r s)) ∨
    ∃ i, fetchDecode s = .ok i ∧ step s = exec i s := by
  cases hf : fetchDecode s with
  | error r => exact .inl ⟨r, rfl, by simp [step, h, hf]⟩
  | ok i => exact .inr ⟨i, rfl, by simp [step, h, hf]⟩

/-- A step that answers a next state began in `Ready` or `Running` (R70). -/
theorem canStep_of_step_next {t : State} (h : step s = .next t) : s.runState.canStep = true := by
  by_contra hc
  simp [step, hc] at h

/-- `canStep` is `Ready` or `Running` (R70). -/
theorem canStep_iff (r : RunState) : r.canStep = true ↔ r = .ready ∨ r = .running := by cases r <;> simp [RunState.canStep]

/-! ## Host operations that answer a state -/

/-- What `loadCode` does where it succeeds (R173). -/
theorem loadCode_ok_iff (ws : List Word) (t : State) :
    loadCode ws s = .ok t ↔ s.runState = .ready ∧ ws.length ≤ 1024 ∧
      t = { s with mem := loadedMem ws s.mem, codeLen := ws.length } := by
  unfold loadCode
  by_cases h1 : s.runState = .ready
  · by_cases h2 : ws.length ≤ Config.codeWords
    · simp [h1, h2, eq_comm]
    · simp [h1, h2]
  · simp [h1]

/-- What `writeMemory` does where it succeeds (R45). -/
theorem writeMemory_ok_iff (a : Nat) (bs : List Byte) (t : State) :
    writeMemory a bs s = .ok t ↔ s.runState = .ready ∧ hostRange a bs.length = true ∧
      t = { s with mem := s.mem.writeBytes a bs } := by
  unfold writeMemory
  by_cases h1 : s.runState = .ready
  · by_cases h2 : hostRange a bs.length = true
    · simp [h1, h2, eq_comm]
    · simp [h1, h2]
  · simp [h1]

/-- What `stepBack` does where it succeeds (R154). -/
theorem stepBack_ok_iff (t : State) :
    stepBack s = .ok t ↔ (s.runState = .running ∨ s.runState = .halted) ∧
      ∃ r rest, s.history = r :: rest ∧ t = undo r rest s := by
  unfold stepBack
  cases hr : s.runState <;> cases hh : s.history <;> simp [eq_comm]

end Sys2Proof.Machine
end

