-- ==== Sys2Proof/Laws/Run.lean ====
section
/-! SUPPORT. One step more of the host's run, in the names of the model: a run goes on after a next state, and ends at a
refusal. No step faults without a next state (assumption log 1). -/

namespace Sys2Proof.Machine

/-- A run of no steps. -/
theorem run_zero (s : State) : Sys2Proof.core.run 0 s = .next s := rfl

/-- One step more of a run of any core. -/
theorem run_succ (M : Host.Core) (n : Nat) (s : M.State) :
    M.run (n + 1) s =
      (match M.step s with
       | .next t => M.run n t
       | .fault f => .fault f
       | .refused r => .refused r) := rfl

/-- A run goes on from the next state. -/
theorem run_succ_next {n : Nat} {s t : State} (h : step s = .next t) :
    Sys2Proof.core.run (n + 1) s = Sys2Proof.core.run n t := by
  have hs : Sys2Proof.core.step s = .next t := h
  exact (run_succ Sys2Proof.core n s).trans (by rw [hs])

/-- A run ends at a refusal. -/
theorem run_succ_refused {n : Nat} {s : State} {r : Refusal} (h : step s = .refused r) :
    Sys2Proof.core.run (n + 1) s = .refused r := by
  have hs : Sys2Proof.core.step s = .refused r := h
  exact (run_succ Sys2Proof.core n s).trans (by rw [hs])

end Sys2Proof.Machine
end

