-- ==== Sys2Proof/Laws/History.lean ====
section
/-! SUPPORT. The history's length counts the committed steps since reset, and nothing outside the History Manager shows it
(spec/60_exceptions.md R151, R159). -/

namespace Sys2Proof.Machine

/-! ## The count -/

@[simp] theorem historyLength_reset : historyLength State.reset = 0 := rfl

@[simp] theorem historyLength_commit (e : Effect) (s : State) : historyLength (commit e s) = historyLength s + 1 := rfl

@[simp] theorem historyLength_enterFault (r : FaultRecord) (s : State) :
    historyLength (enterFault r s) = historyLength s := rfl

@[simp] theorem historyLength_undo (r : StepRecord) (rest : List StepRecord) (s : State) :
    historyLength (undo r rest s) = rest.length := rfl

/-- Undoing every record leaves an empty history (R155). -/
theorem undoAll_history (rs : List StepRecord) (s : State) (h : s.history = rs) : historyLength (undoAll rs s) = 0 := by
  induction rs generalizing s with
  | nil => simp [undoAll, historyLength, h]
  | cons r rest ih => exact ih (undo r rest s) rfl

/-- An instruction that commits adds one record; one that faults adds none (R151, R153). -/
theorem exec_historyLength {i : Instr} {s t : State} (h : exec i s = .next t) :
    historyLength t = historyLength s + (if t.runState = .faulted then 0 else 1) := by
  rcases exec_cases s i with ⟨e, _, he⟩ | ⟨c, ea, st, _, he⟩
  · obtain rfl : commit e s = t := by simpa [he] using h
    have hr : (commit e s).runState ≠ .faulted := by
      simp only [commit_runState, runStateAfter]; split <;> simp
    rw [if_neg hr, historyLength_commit]
  · obtain rfl : memoryFault i c ea st s = t := by simpa [he] using h
    simp [memoryFault]

/-- A step that commits adds one record; one that faults adds none (R151, R153). -/
theorem step_historyLength {s t : State} (h : step s = .next t) :
    historyLength t = historyLength s + (if t.runState = .faulted then 0 else 1) := by
  rcases step_cases s (canStep_of_step_next s h) with ⟨r, _, hs⟩ | ⟨i, _, hs⟩
  · obtain rfl : enterFault r s = t := by simpa [hs] using h
    simp
  · exact exec_historyLength (hs ▸ h)

/-- The history's length is the number of committed steps: `n` steps of a run that has not faulted add `n` (R159). -/
theorem run_historyLength {n : Nat} {s t : State} (h : Sys2Proof.core.run n s = .next t) (ht : t.runState ≠ .faulted) :
    historyLength t = historyLength s + n := by
  induction n generalizing s with
  | zero =>
    obtain rfl : s = t := Host.Outcome.next.inj h
    rfl
  | succ n ih =>
    cases hs : step s with
    | next u =>
      have hrun := (run_succ_next hs).symm.trans h
      have hu : u.runState ≠ .faulted := by
        intro hf
        cases n with
        | zero =>
          obtain rfl : u = t := Host.Outcome.next.inj hrun
          exact ht hf
        | succ n => simp [run_succ_refused (step_refused u (by simp [hf, RunState.canStep]))] at hrun
      have hlen := step_historyLength hs
      rw [if_neg hu] at hlen
      rw [ih hrun, hlen]
      omega
    | refused r => simp [run_succ_refused hs] at h
    | fault f => exact nomatch f

/-- After a reset the history's length is the number of steps committed since (R159). -/
theorem run_reset_historyLength {n : Nat} {s t : State} (h : Sys2Proof.core.run n (resetMachine s) = .next t)
    (ht : t.runState ≠ .faulted) : historyLength t = n := by
  simpa [resetMachine] using run_historyLength h ht

/-- `stepBack()` takes one record off (R151, R154). -/
theorem stepBack_historyLength {s t : State} (h : stepBack s = .ok t) : historyLength t + 1 = historyLength s := by
  obtain ⟨_, r, rest, hh, rfl⟩ := (stepBack_ok_iff s t).1 h
  simp [historyLength, hh]

/-! ## No reply shows it -/

/-- The state with another history. -/
def State.withHistory (s : State) (h : List StepRecord) : State := { s with history := h }

/-- Another history changes nothing an instruction does but the history (R24, R72). -/
theorem exec_withHistory (i : Instr) (s : State) (h : List StepRecord) :
    ∃ t k, exec i s = .next t ∧ exec i (s.withHistory h) = .next (t.withHistory k) := by
  have hload : ∀ t ea, ∃ k, load i t ea (s.withHistory h) = (load i t ea s).withHistory k := by
    intro t ea
    cases hm : memRead ea s with
    | error c => exact ⟨h, by simp only [load, hm, show memRead ea (s.withHistory h) = .error c from hm]; rfl⟩
    | ok v => exact ⟨_, by simp only [load, hm, show memRead ea (s.withHistory h) = .ok v from hm]; rfl⟩
  have hstore : ∀ t ea, ∃ k, store i t ea (s.withHistory h) = (store i t ea s).withHistory k := by
    intro t ea
    cases hm : admission ea Config.wordBytes with
    | some c => exact ⟨h, by simp only [store, hm]; rfl⟩
    | none => exact ⟨_, by simp only [store, hm]; rfl⟩
  cases i with
  | ldrAbs t abs =>
    obtain ⟨k, hk⟩ := hload t (eaAbs abs)
    exact ⟨_, k, rfl, congrArg Host.Outcome.next hk⟩
  | ldrOff t n off =>
    obtain ⟨k, hk⟩ := hload t (eaOff n off s)
    exact ⟨_, k, rfl, congrArg Host.Outcome.next hk⟩
  | strAbs t abs =>
    obtain ⟨k, hk⟩ := hstore t (eaAbs abs)
    exact ⟨_, k, rfl, congrArg Host.Outcome.next hk⟩
  | strOff t n off =>
    obtain ⟨k, hk⟩ := hstore t (eaOff n off s)
    exact ⟨_, k, rfl, congrArg Host.Outcome.next hk⟩
  | _ => exact ⟨_, _, rfl, rfl⟩

/-- The reply of `step()` does not show the history (R159). -/
theorem performStep_withHistory (s : State) (h : List StepRecord) :
    (performStep (s.withHistory h)).2 = (performStep s).2 := by
  cases hc : s.runState.canStep with
  | false =>
    have h1 := step_refused s hc
    have h2 := step_refused (s.withHistory h) hc
    simp [performStep, h1, h2]
  | true =>
    rcases step_cases s hc with ⟨r, hf, hs⟩ | ⟨i, hf, hs⟩
    · have h2 : step (s.withHistory h) = .next (enterFault r (s.withHistory h)) := by
        have hf' : fetchDecode (s.withHistory h) = .error r := hf
        simp only [step, hf', show (s.withHistory h).runState.canStep = true from hc, if_true]
      simp only [performStep, hs, h2]
      rfl
    · obtain ⟨t, k, h1, h2⟩ := exec_withHistory i s h
      have h3 : step (s.withHistory h) = exec i (s.withHistory h) := by
        have hf' : fetchDecode (s.withHistory h) = .ok i := hf
        simp only [step, hf', show (s.withHistory h).runState.canStep = true from hc, if_true]
      simp only [performStep, hs, h1, h3, h2]
      rfl

/-- No operation but the two that undo records has a reply that depends on the history (R159). -/
theorem perform_reply_withHistory (op : HostOp) (s : State) (h : List StepRecord)
    (h1 : op ≠ .stepBack) (h2 : op ≠ .replayToStart) : (perform op (s.withHistory h)).2 = (perform op s).2 := by
  cases op with
  | stepBack => exact absurd rfl h1
  | replayToStart => exact absurd rfl h2
  | step => exact performStep_withHistory s h
  | loadCode ws =>
    simp only [perform, loadCode, show (s.withHistory h).runState = s.runState from rfl]
    split
    · split <;> rfl
    · rfl
  | writeMemory a bs =>
    simp only [perform, writeMemory, show (s.withHistory h).runState = s.runState from rfl]
    split
    · split <;> rfl
    · rfl
  | _ => rfl

/-- The reply of `stepBack()` depends on the newest record, not on how many stand below it (R154, R159). -/
theorem stepBack_reply_withHistory (s : State) (r : StepRecord) (rest rest' : List StepRecord) :
    (perform .stepBack (s.withHistory (r :: rest))).2 = (perform .stepBack (s.withHistory (r :: rest'))).2 := by
  simp only [perform, stepBack, State.withHistory]
  cases s.runState <;> rfl

end Sys2Proof.Machine
end

