-- ==== Sys2Proof/Laws/PerInstr.lean ====
section
/-! SUPPORT. The per-instruction family: the word of every instruction matches the row of the opcode map that the
instruction stands in (spec/30_encoding.md R54, R63). -/

namespace Sys2Proof.Laws

/-- The encoded word matches its row, and the row is one of the opcode map's. -/
def EncodeMatchesRow.Statement (i : Instr) : Prop := i.row.covers (encode i) = true ∧ i.row ∈ opcodeRows

theorem EncodeMatchesRow.hlt : EncodeMatchesRow.Statement .hlt := by
  unfold EncodeMatchesRow.Statement; decide

theorem EncodeMatchesRow.movImm (d : RegNum) (imm : Imm20) : EncodeMatchesRow.Statement (.movImm d imm) := by
  refine ⟨?_, by simp [Instr.row, opcodeRows]⟩
  simp only [Instr.row, OpRow.covers, encode, packA_mask]; decide

theorem EncodeMatchesRow.movReg (d m : RegNum) : EncodeMatchesRow.Statement (.movReg d m) := by
  refine ⟨?_, by simp [Instr.row, opcodeRows]⟩
  simp only [Instr.row, OpRow.covers, encode, packR2D_mask]; decide

theorem EncodeMatchesRow.addReg (d n m : RegNum) : EncodeMatchesRow.Statement (.addReg d n m) := by
  refine ⟨?_, by simp [Instr.row, opcodeRows]⟩
  simp only [Instr.row, OpRow.covers, encode, packR3_mask]; decide

theorem EncodeMatchesRow.addImm (d n : RegNum) (imm : Imm16) : EncodeMatchesRow.Statement (.addImm d n imm) := by
  refine ⟨?_, by simp [Instr.row, opcodeRows]⟩
  simp only [Instr.row, OpRow.covers, encode, packI_mask]; decide

theorem EncodeMatchesRow.subReg (d n m : RegNum) : EncodeMatchesRow.Statement (.subReg d n m) := by
  refine ⟨?_, by simp [Instr.row, opcodeRows]⟩
  simp only [Instr.row, OpRow.covers, encode, packR3_mask]; decide

theorem EncodeMatchesRow.subImm (d n : RegNum) (imm : Imm16) : EncodeMatchesRow.Statement (.subImm d n imm) := by
  refine ⟨?_, by simp [Instr.row, opcodeRows]⟩
  simp only [Instr.row, OpRow.covers, encode, packI_mask]; decide

theorem EncodeMatchesRow.cmpReg (n m : RegNum) : EncodeMatchesRow.Statement (.cmpReg n m) := by
  refine ⟨?_, by simp [Instr.row, opcodeRows]⟩
  simp only [Instr.row, OpRow.covers, encode, packR2N_mask]; decide

theorem EncodeMatchesRow.cmpImm (n : RegNum) (imm : Imm16) : EncodeMatchesRow.Statement (.cmpImm n imm) := by
  refine ⟨?_, by simp [Instr.row, opcodeRows]⟩
  simp only [Instr.row, OpRow.covers, encode, packIN_mask]; decide

theorem EncodeMatchesRow.ldrAbs (t : RegNum) (abs : Imm20) : EncodeMatchesRow.Statement (.ldrAbs t abs) := by
  refine ⟨?_, by simp [Instr.row, opcodeRows]⟩
  simp only [Instr.row, OpRow.covers, encode, packA_mask]; decide

theorem EncodeMatchesRow.ldrOff (t n : RegNum) (off : Imm16) : EncodeMatchesRow.Statement (.ldrOff t n off) := by
  refine ⟨?_, by simp [Instr.row, opcodeRows]⟩
  simp only [Instr.row, OpRow.covers, encode, packI_mask]; decide

theorem EncodeMatchesRow.strAbs (t : RegNum) (abs : Imm20) : EncodeMatchesRow.Statement (.strAbs t abs) := by
  refine ⟨?_, by simp [Instr.row, opcodeRows]⟩
  simp only [Instr.row, OpRow.covers, encode, packA_mask]; decide

theorem EncodeMatchesRow.strOff (t n : RegNum) (off : Imm16) : EncodeMatchesRow.Statement (.strOff t n off) := by
  refine ⟨?_, by simp [Instr.row, opcodeRows]⟩
  simp only [Instr.row, OpRow.covers, encode, packI_mask]; decide

theorem EncodeMatchesRow.beq (t : Imm20) : EncodeMatchesRow.Statement (.beq t) := by
  refine ⟨?_, by simp [Instr.row, opcodeRows]⟩
  simp only [Instr.row, OpRow.covers, encode, encodeBranch, packB_mask]; decide

theorem EncodeMatchesRow.bne (t : Imm20) : EncodeMatchesRow.Statement (.bne t) := by
  refine ⟨?_, by simp [Instr.row, opcodeRows]⟩
  simp only [Instr.row, OpRow.covers, encode, encodeBranch, packB_mask]; decide

theorem EncodeMatchesRow.bcs (t : Imm20) : EncodeMatchesRow.Statement (.bcs t) := by
  refine ⟨?_, by simp [Instr.row, opcodeRows]⟩
  simp only [Instr.row, OpRow.covers, encode, encodeBranch, packB_mask]; decide

theorem EncodeMatchesRow.bcc (t : Imm20) : EncodeMatchesRow.Statement (.bcc t) := by
  refine ⟨?_, by simp [Instr.row, opcodeRows]⟩
  simp only [Instr.row, OpRow.covers, encode, encodeBranch, packB_mask]; decide

theorem EncodeMatchesRow.bmi (t : Imm20) : EncodeMatchesRow.Statement (.bmi t) := by
  refine ⟨?_, by simp [Instr.row, opcodeRows]⟩
  simp only [Instr.row, OpRow.covers, encode, encodeBranch, packB_mask]; decide

theorem EncodeMatchesRow.bpl (t : Imm20) : EncodeMatchesRow.Statement (.bpl t) := by
  refine ⟨?_, by simp [Instr.row, opcodeRows]⟩
  simp only [Instr.row, OpRow.covers, encode, encodeBranch, packB_mask]; decide

theorem EncodeMatchesRow.bvs (t : Imm20) : EncodeMatchesRow.Statement (.bvs t) := by
  refine ⟨?_, by simp [Instr.row, opcodeRows]⟩
  simp only [Instr.row, OpRow.covers, encode, encodeBranch, packB_mask]; decide

theorem EncodeMatchesRow.bvc (t : Imm20) : EncodeMatchesRow.Statement (.bvc t) := by
  refine ⟨?_, by simp [Instr.row, opcodeRows]⟩
  simp only [Instr.row, OpRow.covers, encode, encodeBranch, packB_mask]; decide

theorem EncodeMatchesRow.bhi (t : Imm20) : EncodeMatchesRow.Statement (.bhi t) := by
  refine ⟨?_, by simp [Instr.row, opcodeRows]⟩
  simp only [Instr.row, OpRow.covers, encode, encodeBranch, packB_mask]; decide

theorem EncodeMatchesRow.bls (t : Imm20) : EncodeMatchesRow.Statement (.bls t) := by
  refine ⟨?_, by simp [Instr.row, opcodeRows]⟩
  simp only [Instr.row, OpRow.covers, encode, encodeBranch, packB_mask]; decide

theorem EncodeMatchesRow.bge (t : Imm20) : EncodeMatchesRow.Statement (.bge t) := by
  refine ⟨?_, by simp [Instr.row, opcodeRows]⟩
  simp only [Instr.row, OpRow.covers, encode, encodeBranch, packB_mask]; decide

theorem EncodeMatchesRow.blt (t : Imm20) : EncodeMatchesRow.Statement (.blt t) := by
  refine ⟨?_, by simp [Instr.row, opcodeRows]⟩
  simp only [Instr.row, OpRow.covers, encode, encodeBranch, packB_mask]; decide

theorem EncodeMatchesRow.bgt (t : Imm20) : EncodeMatchesRow.Statement (.bgt t) := by
  refine ⟨?_, by simp [Instr.row, opcodeRows]⟩
  simp only [Instr.row, OpRow.covers, encode, encodeBranch, packB_mask]; decide

theorem EncodeMatchesRow.ble (t : Imm20) : EncodeMatchesRow.Statement (.ble t) := by
  refine ⟨?_, by simp [Instr.row, opcodeRows]⟩
  simp only [Instr.row, OpRow.covers, encode, encodeBranch, packB_mask]; decide

theorem EncodeMatchesRow.b (t : Imm20) : EncodeMatchesRow.Statement (.b t) := by
  refine ⟨?_, by simp [Instr.row, opcodeRows]⟩
  simp only [Instr.row, OpRow.covers, encode, encodeBranch, packB_mask]; decide

end Sys2Proof.Laws
end

