-- ==== Sys2Proof/Tests/Slice0.lean ====
section
/-! SUPPORT. The model's own tests. Every expected result is the spec's: the rows of spec/95_test_vectors.md (named in the
comments by their ids), of R98's corner table and of R56's list. Then, for every statement that has hypotheses, a witness:
a concrete state and operands that meet them. -/

namespace Sys2Proof.Tests
open Sys2Proof.Machine Sys2Proof.Claims

/-! ## Well-formedness: each check refuses an ill-formed statement (R53, R61) -/

theorem test_wf_register : Stmt.wellFormed (.movImm 16 0) = false ∧ Stmt.wellFormed (.movImm 15 0) = true := by decide
theorem test_wf_registers_reg : Stmt.wellFormed (.movReg 16 0) = false ∧ Stmt.wellFormed (.movReg 0 16) = false := by decide
theorem test_wf_registers_alu :
    Stmt.wellFormed (.alu .add 16 0 0) = false ∧ Stmt.wellFormed (.alu .add 0 16 0) = false ∧
    Stmt.wellFormed (.alu .sub 0 0 16) = false ∧ Stmt.wellFormed (.alu .sub 15 15 15) = true := by decide
theorem test_wf_registers_cmp :
    Stmt.wellFormed (.cmpReg 16 0) = false ∧ Stmt.wellFormed (.cmpReg 0 16) = false ∧
    Stmt.wellFormed (.cmpImm 16 0) = false := by decide
theorem test_wf_registers_mem :
    Stmt.wellFormed (.memAbs .load 16 0) = false ∧ Stmt.wellFormed (.memOff .load 16 0 0) = false ∧
    Stmt.wellFormed (.memOff .store 0 16 0) = false := by decide
theorem test_wf_imm20 :
    Stmt.wellFormed (.movImm 0 1048576) = false ∧ Stmt.wellFormed (.movImm 0 (-1)) = false ∧
    Stmt.wellFormed (.movImm 0 1048575) = true := by decide
theorem test_wf_abs20 :
    Stmt.wellFormed (.memAbs .store 0 1048576) = false ∧ Stmt.wellFormed (.memAbs .load 0 (-4)) = false := by decide
theorem test_wf_imm16 :
    Stmt.wellFormed (.aluImm .add 0 0 65536) = false ∧ Stmt.wellFormed (.aluImm .sub 0 0 (-1)) = false ∧
    Stmt.wellFormed (.cmpImm 0 65536) = false ∧ Stmt.wellFormed (.cmpImm 0 65535) = true := by decide
theorem test_wf_aluImm_registers :
    Stmt.wellFormed (.aluImm .add 16 0 0) = false ∧ Stmt.wellFormed (.aluImm .add 0 16 0) = false := by decide
theorem test_wf_off16 :
    Stmt.wellFormed (.memOff .load 0 1 32768) = false ∧ Stmt.wellFormed (.memOff .load 0 1 (-32769)) = false ∧
    Stmt.wellFormed (.memOff .load 0 1 (-32768)) = true ∧ Stmt.wellFormed (.memOff .store 0 1 32767) = true := by decide
theorem test_wf_target :
    Stmt.wellFormed (.branch .al (.addr 1048576)) = false ∧ Stmt.wellFormed (.branch .al (.addr (-4))) = false ∧
    Stmt.wellFormed (.branch .al (.addr 1048575)) = true := by decide

/-! ## Invalid words: one for each case of R56's list (vectors I1 .. I19) -/

theorem test_invalid_unassigned :
    decode 0x00000000 = none ∧ decode 0xFFFFFFFF = none ∧ decode 0x02000000 = none ∧ decode 0x12000000 = none ∧
    decode 0x26000000 = none ∧ decode 0x34000000 = none ∧ decode 0x41000000 = none ∧ decode 0x0F000000 = none := by decide
theorem test_invalid_hlt : decode 0x01000001 = none ∧ decode 0x01100000 = none := by decide
theorem test_invalid_mov : decode 0x11010000 = none ∧ decode 0x11003001 = none ∧ decode 0x110FF000 = none := by decide
theorem test_invalid_alu : decode 0x20012001 = none ∧ decode 0x22012800 = none := by decide
theorem test_invalid_cmp : decode 0x24101000 = none ∧ decode 0x24001001 = none ∧ decode 0x25110007 = none := by decide
theorem test_invalid_branch : decode 0x40F10008 = none ∧ decode 0x40F00000 = none := by decide
theorem test_valid_word : validWord 0x1100F000 = true ∧ validWord 0x110FF000 = false := by decide

/-! ## Decoding: the words of vectors E1 .. E40, written out from R54 -/

theorem test_decode_hlt : decode 0x01000000 = some .hlt := by decide
theorem test_decode_mov :
    decode 0x10FFFFFF = some (.movImm 15 0xFFFFF) ∧ decode 0x11703000 = some (.movReg 7 3) := by decide
theorem test_decode_add :
    decode 0x20012000 = some (.addReg 0 1 2) ∧ decode 0x2112FFFF = some (.addImm 1 2 65535) ∧
    decode 0x21DD0004 = some (.addImm 13 13 4) := by decide
theorem test_decode_sub :
    decode 0x22012000 = some (.subReg 0 1 2) ∧ decode 0x23110001 = some (.subImm 1 1 1) := by decide
theorem test_decode_cmp :
    decode 0x240FE000 = some (.cmpReg 15 14) ∧ decode 0x25010007 = some (.cmpImm 1 7) := by decide
theorem test_decode_ldr :
    decode 0x30230010 = some (.ldrAbs 2 0x30010) ∧ decode 0x311DFFFC = some (.ldrOff 1 13 (-4)) := by decide
theorem test_decode_str :
    decode 0x32030000 = some (.strAbs 0 0x30000) ∧ decode 0x3356FFF8 = some (.strOff 5 6 (-8)) := by decide
theorem test_decode_branch_flag :
    decode 0x40010008 = some (.beq 0x10008) ∧ decode 0x40110008 = some (.bne 0x10008) ∧
    decode 0x40210008 = some (.bcs 0x10008) ∧ decode 0x40310008 = some (.bcc 0x10008) ∧
    decode 0x40410008 = some (.bmi 0x10008) ∧ decode 0x40510008 = some (.bpl 0x10008) ∧
    decode 0x40610008 = some (.bvs 0x10008) ∧ decode 0x40710008 = some (.bvc 0x10008) := by decide
theorem test_decode_branch_compare :
    decode 0x40810008 = some (.bhi 0x10008) ∧ decode 0x40910008 = some (.bls 0x10008) ∧
    decode 0x40A10008 = some (.bge 0x10008) ∧ decode 0x40B10008 = some (.blt 0x10008) ∧
    decode 0x40C10008 = some (.bgt 0x10008) ∧ decode 0x40D10008 = some (.ble 0x10008) ∧
    decode 0x40E10008 = some (.b 0x10008) := by decide
/-- The bytes of `MOV R0, #4` and `STR R0, [#0x30000]` as vector H9 gives them. -/
theorem test_bytes_of_words :
    encodeBytes (.movImm 0 4) = [0x04, 0x00, 0x00, 0x10] ∧ encodeBytes (.strAbs 0 0x30000) = [0x00, 0x00, 0x03, 0x32] ∧
    decodeBytes [0x04, 0x00, 0x00, 0x10, 0xAA] = some (.movImm 0 4, [0xAA]) ∧ decodeBytes [0x04, 0x00, 0x00] = none := by decide
theorem test_table_word :
    decodeTableWord 32 0x40B10018 = some (.blt 0x10018) ∧ decodeTableWord 32 0 = none := by decide

/-! ## The ALU at R98's corners, and the conditions (95_test_vectors.md 2.5) -/

/-- The `add` rows of R98's corner table: `a`, `b`, the result and `N Z C V`. -/
theorem test_add_corners :
    aluAdd 0x00000000 0x00000000 = (0x00000000, ⟨false, true, false, false⟩) ∧
    aluAdd 0xFFFFFFFF 0x00000001 = (0x00000000, ⟨false, true, true, false⟩) ∧
    aluAdd 0x7FFFFFFF 0x00000001 = (0x80000000, ⟨true, false, false, true⟩) ∧
    aluAdd 0x80000000 0x80000000 = (0x00000000, ⟨false, true, true, true⟩) ∧
    aluAdd 0x80000000 0xFFFFFFFF = (0x7FFFFFFF, ⟨false, false, true, true⟩) ∧
    aluAdd 0xFFFFFFFF 0xFFFFFFFF = (0xFFFFFFFE, ⟨true, false, true, false⟩) := by decide

/-- The `sub` rows of R98's corner table: `a`, `b`, the result and `N Z C V`. -/
theorem test_sub_corners :
    aluSub 0x00000000 0x00000000 = (0x00000000, ⟨false, true, true, false⟩) ∧
    aluSub 0x00000000 0x00000001 = (0xFFFFFFFF, ⟨true, false, false, false⟩) ∧
    aluSub 0x00000005 0x00000003 = (0x00000002, ⟨false, false, true, false⟩) ∧
    aluSub 0x00000003 0x00000005 = (0xFFFFFFFE, ⟨true, false, false, false⟩) ∧
    aluSub 0x80000000 0x00000001 = (0x7FFFFFFF, ⟨false, false, true, true⟩) ∧
    aluSub 0x7FFFFFFF 0xFFFFFFFF = (0x80000000, ⟨true, false, false, true⟩) ∧
    aluSub 0x00000000 0x80000000 = (0x80000000, ⟨true, false, false, true⟩) ∧
    aluSub 0xFFFFFFFF 0xFFFFFFFF = (0x00000000, ⟨false, true, true, false⟩) ∧
    aluSub 0x80000000 0x80000000 = (0x00000000, ⟨false, true, true, false⟩) := by decide

/-- The numbers of the conditions that hold, in rising order. -/
def holding (f : Flags) : List Nat := (List.range 15).filter (fun k =>
  match Cond.ofCode (BitVec.ofNat 4 k) with
  | some c => condHolds c f
  | none => false)

/-- The truth table of `CondHolds`, the rows with `N` = 0. -/
theorem test_conditions_n0 :
    holding ⟨false, false, false, false⟩ = [1, 3, 5, 7, 9, 10, 12, 14] ∧
    holding ⟨false, false, false, true⟩ = [1, 3, 5, 6, 9, 11, 13, 14] ∧
    holding ⟨false, false, true, false⟩ = [1, 2, 5, 7, 8, 10, 12, 14] ∧
    holding ⟨false, false, true, true⟩ = [1, 2, 5, 6, 8, 11, 13, 14] ∧
    holding ⟨false, true, false, false⟩ = [0, 3, 5, 7, 9, 10, 13, 14] ∧
    holding ⟨false, true, false, true⟩ = [0, 3, 5, 6, 9, 11, 13, 14] ∧
    holding ⟨false, true, true, false⟩ = [0, 2, 5, 7, 9, 10, 13, 14] ∧
    holding ⟨false, true, true, true⟩ = [0, 2, 5, 6, 9, 11, 13, 14] := by decide

/-- The truth table of `CondHolds`, the rows with `N` = 1. -/
theorem test_conditions_n1 :
    holding ⟨true, false, false, false⟩ = [1, 3, 4, 7, 9, 11, 13, 14] ∧
    holding ⟨true, false, false, true⟩ = [1, 3, 4, 6, 9, 10, 12, 14] ∧
    holding ⟨true, false, true, false⟩ = [1, 2, 4, 7, 8, 11, 13, 14] ∧
    holding ⟨true, false, true, true⟩ = [1, 2, 4, 6, 8, 10, 12, 14] ∧
    holding ⟨true, true, false, false⟩ = [0, 3, 4, 7, 9, 11, 13, 14] ∧
    holding ⟨true, true, false, true⟩ = [0, 3, 4, 6, 9, 10, 13, 14] ∧
    holding ⟨true, true, true, false⟩ = [0, 2, 4, 7, 9, 11, 13, 14] ∧
    holding ⟨true, true, true, true⟩ = [0, 2, 4, 6, 9, 10, 13, 14] := by decide

/-- The packed flags of vector A19, `NZCV` = 0011 (R18). -/
theorem test_flags_pack : Flags.pack ⟨false, false, true, true⟩ = 3 ∧ Flags.pack ⟨true, false, false, false⟩ = 8 := by decide

/-! ## One step (95_test_vectors.md 2.2 to 2.6) -/

/-- A machine in `Running` at `pc`, with some registers set, flags, and some words in memory. -/
def mk (pc : Word) (rs : List (RegNum × Word)) (f : Flags) (ws : List (Nat × Word)) : State :=
  { State.reset with
    pc := pc
    regs := rs.foldl (fun v x => setReg v x.1 x.2) State.reset.regs
    flags := f
    runState := .running
    mem := ws.foldl (fun m x => Memory.setWord m x.1 x.2) [] }

/-- All flags clear. -/
def f0 : Flags := Flags.clear

/-- One step of an instruction word placed at `pc`: a register, the flags and `pc` after it, and the run state. -/
def oneStep (s : State) (w : Nat) (r : RegNum) : Option (Word × Flags × Word × RunState) :=
  match step (s.withFetchWord 32 w) with
  | .next t => some (getReg t r, t.flags, t.pc, t.runState)
  | _ => none

/-- One step of a store placed at `pc`: the four bytes at an address, and the store events. -/
def oneStore (s : State) (w : Nat) (a : Nat) : Option (List Byte × List StoreEvent × Word) :=
  match step (s.withFetchWord 32 w) with
  | .next t => some (t.mem.readBytes a 4, t.storeEvents, t.pc)
  | _ => none

/-- One step that faults: the fault record, and that nothing else changed (R145). -/
def oneFault (s : State) (w : Nat) : Option FaultRecord :=
  match step (s.withFetchWord 32 w) with
  | .next t => if t = enterFault (t.faultRecord.getD (.decodeAbsent 0)) (s.withFetchWord 32 w) then t.faultRecord else none
  | _ => none

/-- Vector M2: `MOV R5, #1048575`. -/
theorem test_mov_imm_keeps_flags :
    oneStep (mk 0x10000 [(5, 0xDEADBEEF)] ⟨true, false, true, true⟩ []) 0x105FFFFF 5 =
      some (0x000FFFFF, ⟨true, false, true, true⟩, 0x00010004, .running) := by decide
/-- Vector M4: `MOV R7, R3`. -/
theorem test_mov_reg_keeps_flags :
    oneStep (mk 0x10000 [(3, 0x80000001), (7, 0x00000005)] ⟨false, true, true, false⟩ []) 0x11703000 7 =
      some (0x80000001, ⟨false, true, true, false⟩, 0x00010004, .running) := by decide
/-- Vector M6: `MOV R15, R14`. -/
theorem test_mov_reg_r15 :
    oneStep (mk 0x10000 [(14, 0xFFFFFFFF)] f0 []) 0x11F0E000 15 =
      some (0xFFFFFFFF, f0, 0x00010004, .running) := by decide
/-- Vector A1: `ADD R0, R1, R2`. -/
theorem test_add_reg_overflow :
    oneStep (mk 0x10000 [(1, 0x7FFFFFFF), (2, 0x00000001)] f0 []) 0x20012000 0 =
      some (0x80000000, ⟨true, false, false, true⟩, 0x00010004, .running) := by decide
/-- Vector A3: `ADD R1, R1, R1`. -/
theorem test_add_reg_same_register :
    oneStep (mk 0x10000 [(1, 0x80000000)] f0 []) 0x20111000 1 =
      some (0x00000000, ⟨false, true, true, true⟩, 0x00010004, .running) := by decide
/-- Vector A6: `ADD R2, R3, #65535`. -/
theorem test_add_imm_wraps :
    oneStep (mk 0x10000 [(2, 0x00000077), (3, 0xFFFF0001)] f0 []) 0x2123FFFF 2 =
      some (0x00000000, ⟨false, true, true, false⟩, 0x00010004, .running) := by decide
/-- Vector A7: `ADD R2, R3, #0`. -/
theorem test_add_imm_zero :
    oneStep (mk 0x10000 [(3, 0x80000000)] ⟨false, true, true, true⟩ []) 0x21230000 2 =
      some (0x80000000, ⟨true, false, false, false⟩, 0x00010004, .running) := by decide
/-- Vector A9: `SUB R0, R1, R2`. -/
theorem test_sub_reg_borrow :
    oneStep (mk 0x10000 [(1, 0x00000003), (2, 0x00000005)] f0 []) 0x22012000 0 =
      some (0xFFFFFFFE, ⟨true, false, false, false⟩, 0x00010004, .running) := by decide
/-- Vector A16: `SUB R0, R1, R2`. -/
theorem test_sub_reg_overflow :
    oneStep (mk 0x10000 [(1, 0x7FFFFFFF), (2, 0xFFFFFFFF)] f0 []) 0x22012000 0 =
      some (0x80000000, ⟨true, false, false, true⟩, 0x00010004, .running) := by decide
/-- Vector A13: `SUB R1, R1, #1`. -/
theorem test_sub_imm_borrow :
    oneStep (mk 0x10000 [(1, 0x00000000)] f0 []) 0x23110001 1 =
      some (0xFFFFFFFF, ⟨true, false, false, false⟩, 0x00010004, .running) := by decide
/-- Vector A17: `SUB R13, R13, #4`. -/
theorem test_sub_imm_r13 :
    oneStep (mk 0x10000 [(13, 0x00021000)] f0 []) 0x23DD0004 13 =
      some (0x00020FFC, ⟨false, false, true, false⟩, 0x00010004, .running) := by decide
/-- Vector A19: `CMP R0, R1`. -/
theorem test_cmp_reg_signed :
    oneStep (mk 0x10000 [(0, 0x80000000), (1, 0x00000001)] f0 []) 0x24001000 0 =
      some (0x80000000, ⟨false, false, true, true⟩, 0x00010004, .running) := by decide
/-- Vector A25: `CMP R4, R4`. -/
theorem test_cmp_reg_self :
    oneStep (mk 0x10000 [(4, 0x80000000)] ⟨true, false, false, true⟩ []) 0x24044000 4 =
      some (0x80000000, ⟨false, true, true, false⟩, 0x00010004, .running) := by decide
/-- Vector A21: `CMP R1, #7`. -/
theorem test_cmp_imm_less :
    oneStep (mk 0x10000 [(1, 0x00000006)] f0 []) 0x25010007 1 =
      some (0x00000006, ⟨true, false, false, false⟩, 0x00010004, .running) := by decide
/-- Vector A27: `CMP R0, #65535`. -/
theorem test_cmp_imm_max :
    oneStep (mk 0x10000 [(0, 0x0000FFFF)] f0 []) 0x2500FFFF 0 =
      some (0x0000FFFF, ⟨false, true, true, false⟩, 0x00010004, .running) := by decide
/-- Vector L1: `LDR R2, [#0x30010]`. -/
theorem test_ldr_abs :
    oneStep (mk 0x10000 [] f0 [(0x00030010, 0x12345678)]) 0x30230010 2 =
      some (0x12345678, f0, 0x00010004, .running) := by decide
/-- Vector L5: `LDR R0, [#0x10000]`. -/
theorem test_ldr_abs_code :
    oneStep (mk 0x10000 [] f0 []) 0x30010000 0 =
      some (0x30010000, f0, 0x00010004, .running) := by decide
/-- Vector L3: `LDR R1, [R13, #-4]`. -/
theorem test_ldr_off_negative :
    oneStep (mk 0x10000 [(13, 0x00021000)] f0 [(0x00020FFC, 0xA5A5A5A5)]) 0x311DFFFC 1 =
      some (0xA5A5A5A5, f0, 0x00010004, .running) := by decide
/-- Vector L4: `LDR R2, [R2, #0]`. -/
theorem test_ldr_off_same_register :
    oneStep (mk 0x10000 [(2, 0x00030020)] ⟨true, true, true, true⟩ [(0x00030020, 0x00030040)]) 0x31220000 2 =
      some (0x00030040, ⟨true, true, true, true⟩, 0x00010004, .running) := by decide
/-- Vector L21: `STR R0, [#0x30FFC]`. -/
theorem test_str_abs_last_word :
    oneStore (mk 0x10000 [(0, 0xDDCCBBAA)] f0 []) 0x32030FFC 0x00030FFC =
      some ([0xAA, 0xBB, 0xCC, 0xDD], [⟨0x00030FFC, 0xDDCCBBAA⟩], 0x00010004) := by decide
/-- Vector L6: `STR R0, [#0x30000]`. -/
theorem test_str_abs_mailbox :
    oneStore (mk 0x10000 [(0, 0x00000004)] f0 []) 0x32030000 0x00030000 =
      some ([0x04, 0x00, 0x00, 0x00], [⟨0x00030000, 0x00000004⟩], 0x00010004) := by decide
/-- Vector L8: `STR R6, [R6, #4]`. -/
theorem test_str_off_same_register :
    oneStore (mk 0x10000 [(6, 0x00030100)] f0 []) 0x33660004 0x00030104 =
      some ([0x00, 0x01, 0x03, 0x00], [⟨0x00030104, 0x00030100⟩], 0x00010004) := by decide
/-- Vector L23: `STR R0, [R1, #-32768]`. -/
theorem test_str_off_most_negative :
    oneStore (mk 0x10000 [(0, 0x00000042), (1, 0x00038000)] f0 []) 0x33018000 0x00030000 =
      some ([0x42, 0x00, 0x00, 0x00], [⟨0x00030000, 0x00000042⟩], 0x00010004) := by decide
/-- Vector L9: `LDR R1, [R0, #0]`. -/
theorem test_ldr_off_out_of_range :
    oneFault (mk 0x10000 [(0, 0x00031000), (1, 0x00000055)] f0 []) 0x31100000 =
      some (.memory .outOfRange 0x10000 0x31100000 0x00031000 false) := by decide
/-- Vector L16: `LDR R0, [R1, #4]`. -/
theorem test_ldr_off_wraps :
    oneFault (mk 0x10000 [(1, 0xFFFFFFFC)] f0 []) 0x31010004 =
      some (.memory .outOfRange 0x10000 0x31010004 0x00000000 false) := by decide
/-- Vector L10: `STR R1, [#0x31000]`. -/
theorem test_str_abs_out_of_range :
    oneFault (mk 0x10000 [(1, 0x00000009)] f0 []) 0x32131000 =
      some (.memory .outOfRange 0x10000 0x32131000 0x00031000 true) := by decide
/-- Vector L14: `STR R0, [R13, #0]`. -/
theorem test_str_off_above_map :
    oneFault (mk 0x10000 [(0, 0x00000007), (13, 0xFFFFFFFC)] f0 []) 0x330D0000 =
      some (.memory .outOfRange 0x10000 0x330D0000 0xFFFFFFFC true) := by decide
/-- Vector L17: `LDR R0, [#0x30001]`. -/
theorem test_ldr_abs_misaligned :
    oneFault (mk 0x10000 [] f0 []) 0x30030001 =
      some (.memory .misaligned 0x10000 0x30030001 0x00030001 false) := by decide
/-- Vector L19: `STR R0, [#0x31002]`. -/
theorem test_str_abs_misaligned_first :
    oneFault (mk 0x10000 [(0, 0x00000001)] f0 []) 0x32031002 =
      some (.memory .misaligned 0x10000 0x32031002 0x00031002 true) := by decide
/-- Vector T1: `HLT`. -/
theorem test_hlt :
    oneStep (mk 0x00010018 [(0, 0x0000000F)] ⟨false, true, true, false⟩ []) 0x01000000 0 =
      some (0x0000000F, ⟨false, true, true, false⟩, 0x00010018, .halted) := by decide

/-- Where a branch word at 0x10010 leads with given flags. -/
def goes (w : Nat) (f : Flags) : Option Word :=
  match step ((mk 0x10010 [] f []).withFetchWord 32 w) with
  | .next t => if t.flags = f ∧ t.runState = .running then some t.pc else none
  | _ => none

theorem test_beq :
    goes 0x40010008 ⟨true, true, true, true⟩ = some 0x10008 ∧
    goes 0x40010008 ⟨true, false, true, true⟩ = some 0x10014 := by decide
theorem test_bne :
    goes 0x40110008 ⟨true, false, true, true⟩ = some 0x10008 ∧
    goes 0x40110008 ⟨true, true, true, true⟩ = some 0x10014 := by decide
theorem test_bcs :
    goes 0x40210008 ⟨true, true, true, true⟩ = some 0x10008 ∧
    goes 0x40210008 ⟨true, true, false, true⟩ = some 0x10014 := by decide
theorem test_bcc :
    goes 0x40310008 ⟨true, true, false, true⟩ = some 0x10008 ∧
    goes 0x40310008 ⟨true, true, true, true⟩ = some 0x10014 := by decide
theorem test_bmi :
    goes 0x40410008 ⟨true, true, true, true⟩ = some 0x10008 ∧
    goes 0x40410008 ⟨false, true, true, true⟩ = some 0x10014 := by decide
theorem test_bpl :
    goes 0x40510008 ⟨false, true, true, true⟩ = some 0x10008 ∧
    goes 0x40510008 ⟨true, true, true, true⟩ = some 0x10014 := by decide
theorem test_bvs :
    goes 0x40610008 ⟨true, true, true, true⟩ = some 0x10008 ∧
    goes 0x40610008 ⟨true, true, true, false⟩ = some 0x10014 := by decide
theorem test_bvc :
    goes 0x40710008 ⟨true, true, true, false⟩ = some 0x10008 ∧
    goes 0x40710008 ⟨true, true, true, true⟩ = some 0x10014 := by decide
theorem test_bhi :
    goes 0x40810008 ⟨true, false, true, true⟩ = some 0x10008 ∧
    goes 0x40810008 ⟨true, true, true, true⟩ = some 0x10014 := by decide
theorem test_bls :
    goes 0x40910008 ⟨true, true, true, true⟩ = some 0x10008 ∧
    goes 0x40910008 ⟨true, false, true, true⟩ = some 0x10014 := by decide
theorem test_bge :
    goes 0x40A10008 ⟨true, true, true, true⟩ = some 0x10008 ∧
    goes 0x40A10008 ⟨true, true, true, false⟩ = some 0x10014 := by decide
theorem test_blt :
    goes 0x40B10008 ⟨true, true, true, false⟩ = some 0x10008 ∧
    goes 0x40B10008 ⟨true, true, true, true⟩ = some 0x10014 := by decide
theorem test_bgt :
    goes 0x40C10008 ⟨true, false, true, true⟩ = some 0x10008 ∧
    goes 0x40C10008 ⟨true, true, true, true⟩ = some 0x10014 := by decide
theorem test_ble :
    goes 0x40D10008 ⟨true, true, true, true⟩ = some 0x10008 ∧
    goes 0x40D10008 ⟨true, false, true, true⟩ = some 0x10014 := by decide
theorem test_b :
    goes 0x40E10008 ⟨true, true, true, true⟩ = some 0x10008 := by decide

/-! ## Fetch faults, reverse stepping and the host (95_test_vectors.md 2.7 to 2.9) -/

/-- The state a step leaves. -/
def next (s : State) : State :=
  match step s with
  | .next t => t
  | _ => s

/-- Vector F1: nothing is loaded. -/
theorem test_fetch_absent : next State.reset = enterFault (.decodeAbsent 0x10000) State.reset := by decide
/-- Vectors F2 and F10: misaligned, and past the loaded code whatever stands there. -/
theorem test_fetch_absent_pc :
    fetch { (mk 0x10002 [] f0 [(0x10000, 0x01000000)]) with codeLen := 1 } = none ∧
    fetch { (mk 0x10004 [] f0 [(0x10004, 0x01000000)]) with codeLen := 1 } = none := by decide
/-- Vector F7: `pc` ran off a full code region, and the last word of it is still fetched. -/
theorem test_fetch_end_of_region :
    fetch { (mk 0x11000 [] f0 []) with codeLen := 1024 } = none ∧
    fetch { (mk 0x10FFC [] f0 [(0x10FFC, 0x01000000)]) with codeLen := 1024 } = some 0x01000000 := by decide
/-- Vectors F8 and F9: an invalid word inside the loaded code. -/
theorem test_fetch_invalid :
    oneFault (mk 0x10000 [] f0 []) 0 = some (.decodeInvalid 0x10000 0) ∧
    oneFault (mk 0x10000 [] f0 []) 0x40F10008 = some (.decodeInvalid 0x10000 0x40F10008) := by decide

/-- Program P1 of 95_test_vectors.md, loaded: `MOV R0, #4`, `STR R0, [#0x30000]`. -/
def p1 : State :=
  { State.reset with mem := loadedMem [0x10000004, 0x32030000] [], codeLen := 2 }

/-- Vector K1: the record of the first step. -/
theorem test_record_register :
    (next p1).history = [⟨0x10000, .ready, some (0, 0), none, none⟩] := by decide
/-- Vector K2: the record of the store. -/
theorem test_record_store :
    (next (next p1)).history.head? = some ⟨0x10004, .running, none, none, some (0x30000, [0, 0, 0, 0])⟩ := by decide
/-- Vectors K3 and K4: stepping back gives the states before, all but the store event. -/
theorem test_step_back :
    stepBack (next (next p1)) = .ok { (next p1) with storeEvents := [⟨0x30000, 4⟩] } ∧
    stepBack (next p1) = .ok p1 := by decide
/-- Vectors K5, K7 and K8: what is refused. -/
theorem test_step_back_refused :
    stepBack p1 = .error .nothingToUndo ∧ stepBack (next State.reset) = .error .notReady ∧
    replayToStart (next State.reset) = .error .notReady ∧ replayToStart p1 = .ok p1 := by decide
/-- Vector K6: the third step of P1 faults, and the history keeps its two records, one for each committed step (R159). -/
theorem test_run_off_the_end :
    (next (next (next p1))).faultRecord = some (.decodeAbsent 0x10008) ∧
    historyLength p1 = 0 ∧ historyLength (next p1) = 1 ∧ historyLength (next (next (next p1))) = 2 := by decide
/-- Vectors H9 and H10: `loadCode` replaces the whole code region. -/
theorem test_load_code :
    loadCode [0x10000004, 0x32030000] State.reset = .ok p1 ∧
    loadCode [0x01000000] p1 = .ok { State.reset with mem := [(0x10003, 0x01)], codeLen := 1 } := by decide
/-- Vectors H11 and H13: what `loadCode` refuses. -/
theorem test_load_code_refused :
    loadCode (List.replicate 1025 0) State.reset = .error .loadRange ∧
    loadCode [] (next p1) = .error .notReady := by
  refine ⟨?_, by decide⟩
  unfold loadCode
  rw [if_pos (show State.reset.runState = .ready from rfl), if_neg (by rw [List.length_replicate]; decide)]
/-- Vectors H3 and H4: the host writes any byte of a region. -/
theorem test_write_memory :
    writeMemory 0x30010 [0, 0, 0, 0x80, 1] State.reset =
      .ok { State.reset with mem := [(0x30013, 0x80), (0x30014, 1)] } ∧
    writeMemory 0x30FFF [0xAA] State.reset = .ok { State.reset with mem := [(0x30FFF, 0xAA)] } := by decide
/-- Vectors H5 and H6: a range that leaves its region is refused. -/
theorem test_host_range_refused :
    writeMemory 0x30FFF [0xAA, 0xBB] State.reset = .error .memoryRange ∧
    readMemory 0x2FFFF 2 State.reset = .error .memoryRange ∧ readMemory 0x10000 4097 State.reset = .error .memoryRange := by decide
/-- Vector H7: a host read needs no alignment. -/
theorem test_read_memory : readMemory 0x10001 3 p1 = .ok [0x00, 0x00, 0x10] := by decide
/-- Vector H2: after power-on everything but `reset` is refused. -/
theorem test_power_on :
    (perform .step { p1 with runState := .uninitialized }).2 = .refused .notReady ∧
    getAllRegisters { p1 with runState := .uninitialized } = .error .notReady ∧
    resetMachine { p1 with runState := .uninitialized } = State.reset := by decide
/-- Scenario S2: writing the same move twice is two moves (R152). -/
theorem test_mailbox_moves :
    mailboxMoves { State.reset with storeEvents := [⟨0x30000, 4⟩, ⟨0x30000, 4⟩, ⟨0x30004, 1⟩, ⟨0x30000, 5⟩] } =
      [.right, .right] := by decide

/-! ## The assembler and the disassembler (95_test_vectors.md 2.10, E3, E18, E22) -/

/-- Vectors S1 and S2. -/
theorem test_asm_scenario :
    assemble "MOV R0, #4\nSTR R0, [#0x30000]".toList = .ok [0x10000004, 0x32030000] ∧
    assemble "  MOV   R0 , #4   ; comment".toList = .ok [0x10000004] := by decide
/-- Vectors S3, S4 and S14. -/
theorem test_asm_labels :
    assemble "start: B start".toList = .ok [0x40E10000] ∧ assemble "B end\nend:".toList = .ok [0x40E10004] ∧
    assemble "loop: HLT\nLoop: B loop".toList = .ok [0x01000000, 0x40E10000] := by decide
/-- Vector S5. -/
theorem test_asm_unresolved :
    assemble "MOV R0, #1\nB nowhere\nHLT".toList = .error (.unresolvedSymbol "nowhere".toList) := by decide
/-- Vectors S6 to S9. -/
theorem test_asm_encoding_error :
    assemble "MOV R0, #1048576".toList = .error (.encodingError 0) ∧
    assemble "MOV R16, #0".toList = .error (.encodingError 0) ∧
    assemble "ADD R0, R0, #65536".toList = .error (.encodingError 0) ∧
    assemble "ADD R0, R0, #-1".toList = .error (.encodingError 0) := by decide
/-- Vectors S10 and S11. -/
theorem test_asm_offset_error :
    assemble "LDR R0, [R1, #32768]".toList = .error (.encodingError 0) ∧
    assemble "LDR R0, [R1, #-32769]".toList = .error (.encodingError 0) := by decide
/-- Vectors S12 and S13. -/
theorem test_asm_syntax_error :
    assemble "a: MOV R0, #0\na: HLT".toList = .error (.syntaxError 2 1) ∧
    assemble "NOP".toList = .error (.syntaxError 1 1) := by decide
/-- The column of a `SyntaxError` (R61), by the convention of assumption log 13: where the instruction part begins, or the
first piece that is no token; and white space before a number, but not inside one (assumption log 12). -/
theorem test_asm_syntax_column :
    assemble "HLT\nx: NOP".toList = .error (.syntaxError 2 4) ∧
    assemble "MOV R0, @4".toList = .error (.syntaxError 1 9) ∧
    assemble "MOV R0, #- 4".toList = .error (.syntaxError 1 10) ∧
    assemble "MOV R0, # 4".toList = .ok [0x10000004] := by decide
/-- The alternative spellings of 95_test_vectors.md 2.1. -/
theorem test_asm_spellings :
    assemble "BHS #0x10008\nBLO #0x10008\nLDR R1, [R13]".toList = .ok [0x40210008, 0x40310008, 0x311D0000] := by decide
theorem test_disassemble :
    disassemble 0x10FFFFFF = some "MOV R15, #1048575".toList ∧
    disassemble 0x30FFFFFF = some "LDR R15, [#0xFFFFF]".toList ∧
    disassemble 0x31018000 = some "LDR R0, [R1, #-32768]".toList ∧ disassemble 0x40F10008 = none := by decide

/-! ## Witnesses: for each statement with hypotheses, a concrete state and operands that meet all of them

The hypotheses that the statements of `exec` put on the state alone (canonical memory, an admitted address) are met at the
last word of a region and at the reset memory; those about a step, by a loaded program. -/

/-- `ADD R1, R1, #4`, `STR R1, [#0x30FFC]`, `HLT`, loaded. -/
def demo : State :=
  { State.reset with mem := loadedMem [0x21110004, 0x32130FFC, 0x01000000] [], codeLen := 3 }

/-- After one, two and three steps: a register and flags written, a word stored, halted. -/
def demo1 : State := next demo
def demo2 : State := next demo1
def demo3 : State := next demo2

theorem demo_memory_wf : Memory.wf demo.mem ∧ Memory.wf demo2.mem := by decide
theorem demo_step1 : step demo = .next demo1 := rfl
theorem demo_step2 : step demo1 = .next demo2 := rfl
theorem demo_step3 : step demo2 = .next demo3 := rfl
theorem demo_ends_halted : demo3.runState = .halted ∧ demo3.history.length = 3 := by decide

/-- The invariant holds of the loaded program and of each state it reaches. -/
theorem witness_inv_ready : demo.inv := by
  refine ⟨by decide, by decide, by decide, ?_, trivial, by decide⟩
  show demo.fresh
  decide
theorem witness_inv_running : demo2.inv := by
  refine ⟨by decide, by decide, by decide, ?_, ?_, fun _ => by decide⟩
  · show demo2.history ≠ []
    decide
  · refine ⟨⟨by decide, ?_⟩, ⟨by decide, ?_⟩, trivial⟩
    · rintro ab hab
      have h : demo2.history.head?.bind StepRecord.oldBytes = some ab := hab
      revert h
      generalize hx : demo2.history.head?.bind StepRecord.oldBytes = x
      have hc : x = some (0x30FFC, [0, 0, 0, 0]) := by rw [← hx]; decide
      rintro rfl
      cases hc
      decide
    · rintro ab hab
      cases hab

/-- Halted after three steps, the invariant still holds. -/
theorem witness_inv_halted : demo3.inv := by
  refine ⟨by decide, by decide, by decide, ?_, ?_, fun _ => by decide⟩
  · show demo3.history ≠ [] ∧ demo3.mem.wordAt demo3.pc.toNat = 0x01000000
    decide
  · exact ⟨⟨by decide, fun ab h => by cases h⟩, witness_inv_running.2.2.2.2.1⟩

/-- The invariant holds in `Faulted` too. -/
theorem witness_inv_faulted : (next State.reset).inv := by
  refine ⟨by decide, by decide, by decide, trivial, trivial, by decide⟩

/-! ### Encoding -/

theorem witness_DecodedWordReencodes : decode 0x3356FFF8 = some (.strOff 5 6 0xFFF8) := by decide
/-- The third clause: an invalid word at the first and at the last word of the code region. -/
theorem witness_InvalidWords :
    (canStep (State.reset.withFetchWord 32 0) ∧ loadedAtPc (State.reset.withFetchWord 32 0) ∧
      (State.reset.withFetchWord 32 0).mem.wordAt 0x10000 = 0 ∧ decode 0 = none) ∧
    canStep ((mk 0x10FFC [] f0 []).withFetchWord 32 0x11010000) ∧
    loadedAtPc ((mk 0x10FFC [] f0 []).withFetchWord 32 0x11010000) ∧
    ((mk 0x10FFC [] f0 []).withFetchWord 32 0x11010000).mem.wordAt 0x10FFC = 0x11010000 ∧ decode 0x11010000 = none := by decide
theorem witness_OpcodeRowsNeverOverlap :
    (⟨0x40E00000, 0xFFF00000⟩ : OpRow) ∈ opcodeRows ∧ OpRow.covers ⟨0x40E00000, 0xFFF00000⟩ 0x40E10000 = true := by decide
/-- The clauses on must-be-zero fields, each field at its lowest and at its highest bit. -/
theorem witness_reserved_fields :
    (opField 0x11010000 = 0x11 ∧ rbField 0x11010000 ≠ 0) ∧ (opField 0x11000800 = 0x11 ∧ z12Field 0x11000800 ≠ 0) ∧
    (opField 0x20012001 = 0x20 ∧ z12Field 0x20012001 ≠ 0) ∧ (opField 0x22012800 = 0x22 ∧ z12Field 0x22012800 ≠ 0) ∧
    (opField 0x24101000 = 0x24 ∧ raField 0x24101000 ≠ 0) ∧ (opField 0x24001001 = 0x24 ∧ z12Field 0x24001001 ≠ 0) ∧
    (opField 0x25800007 = 0x25 ∧ raField 0x25800007 ≠ 0) ∧ opField 0x01800000 = 0x01 ∧ z24Field 0x01800000 ≠ 0 := by decide
theorem witness_FlagsPackInFixedOrder : demo1.runState ≠ .uninitialized := by decide

/-! ### Loads and stores -/

/-- Admitted: the first and the last word of each region. -/
theorem witness_word_addresses :
    wordAddress 0x10000 ∧ wordAddress 0x10FFC ∧ wordAddress 0x20000 ∧ wordAddress 0x20FFC ∧ wordAddress 0x30000 ∧
    wordAddress 0x30FFC := by decide
/-- Not admitted: misaligned at both ends of a region, and aligned just outside each region, at 0 and at the top. -/
theorem witness_not_word_addresses :
    0x30001 % 4 ≠ 0 ∧ 0x30FFE % 4 ≠ 0 ∧ ¬wordAddress 0 ∧ ¬wordAddress 0xFFFC ∧ ¬wordAddress 0x11000 ∧ ¬wordAddress 0x1FFFC ∧
    ¬wordAddress 0x21000 ∧ ¬wordAddress 0x2FFFC ∧ ¬wordAddress 0x31000 ∧ ¬wordAddress 0xFFFFFFFC := by decide
/-- The four load and store statements: an absolute and an offset address, admitted, misaligned and out of range. -/
theorem witness_loads_and_stores :
    wordAddress (eaAbs 0x30FFC).toNat ∧ (eaAbs 0x30FFE).toNat % 4 ≠ 0 ∧
    ((eaAbs 0x31000).toNat % 4 = 0 ∧ ¬wordAddress (eaAbs 0x31000).toNat) ∧
    wordAddress (eaOff 1 0x8000 (mk 0x10000 [(1, 0x38000)] f0 [])).toNat ∧
    (eaOff 1 2 (mk 0x10000 [(1, 0x30000)] f0 [])).toNat % 4 ≠ 0 ∧
    ((eaOff 1 4 (mk 0x10000 [(1, 0xFFFFFFFC)] f0 [])).toNat = 0 ∧ ¬wordAddress 0) ∧
    Memory.wf (mk 0x10000 [(1, 0x38000)] f0 []).mem := by decide
/-- Both forms of the store and of the load, at the last word of the data region and at the last word of the code region. -/
theorem witness_StoreThenLoadReturnsWord :
    (Memory.wf demo1.mem ∧ storeOf (.strAbs 1 0x30FFC) demo1 = some (0x30FFC, 4) ∧ wordAddress (0x30FFC : Word).toNat ∧
      exec (.strAbs 1 0x30FFC) demo1 = .next demo2 ∧ loadOf (.ldrAbs 5 0x30FFC) demo2 = some (5, 0x30FFC)) ∧
    storeOf (.strOff 2 1 0xFFFC) (mk 0x10000 [(1, 0x11000), (2, 7)] f0 []) = some (0x10FFC, 7) ∧
    wordAddress (0x10FFC : Word).toNat ∧
    loadOf (.ldrOff 1 1 0xFFFC) (mk 0x10000 [(1, 0x11000), (2, 7)] f0 []) = some (1, 0x10FFC) :=
  ⟨⟨by decide, by decide, by decide, rfl, by decide⟩, by decide, by decide, by decide⟩

/-- `STR R0, [#0x10008]` executed on the loaded program. -/
def patched : State := store (.strAbs 0 0x10008) 0 (eaAbs 0x10008) demo
theorem witness_StoredCodeIsFetchedNext :
    (Memory.wf demo.mem ∧ storeOf (.strAbs 0 0x10008) demo = some (0x10008, 0) ∧ wordAddress (0x10008 : Word).toNat ∧
      exec (.strAbs 0 0x10008) demo = .next patched) ∧
    (⟨patched.regs, 0x10008, patched.flags, patched.mem, patched.runState, none, patched.codeLen, [], []⟩ : State).mem =
      patched.mem ∧
    loadedAtPc ⟨patched.regs, 0x10008, patched.flags, patched.mem, patched.runState, none, patched.codeLen, [], []⟩ :=
  ⟨⟨by decide, by decide, by decide, rfl⟩, rfl, by decide⟩
/-- Every clause, at the first address past the code region and at the top of the address space. -/
theorem witness_UnmappedAddressesHoldNothing :
    demo.codeLen ≤ 1024 ∧
    (¬((0x10000 ≤ 0x11000 ∧ 0x11000 < 0x11000) ∨ (0x20000 ≤ 0x11000 ∧ 0x11000 < 0x21000) ∨
      (0x30000 ≤ 0x11000 ∧ 0x11000 < 0x31000))) ∧
    access (.ldrAbs 0 0x11000) demo = some (0x11000, false) ∧ (0x11000 : Word).toNat = 0x11000 ∧
    access (.strOff 0 1 0) (mk 0x10000 [(1, 0xFFFFFFFC)] f0 []) = some (0xFFFFFFFC, true) ∧
    (mk 0x11000 [] f0 []).pc.toNat = 0x11000 ∧ canStep (mk 0x11000 [] f0 []) ∧ demo.runState = .ready := by decide

/-! ### Branches, halt and the step -/

/-- A taken branch to a misaligned target, and one to the first word past the loaded code. -/
theorem witness_BadBranchTarget :
    (canStep ((mk 0x10000 [] f0 []).withFetchWord 32 0x40E10002) ∧
      loadedAtPc ((mk 0x10000 [] f0 []).withFetchWord 32 0x40E10002) ∧
      decode (((mk 0x10000 [] f0 []).withFetchWord 32 0x40E10002).mem.wordAt 0x10000) = some (branchInstr .al 0x10002) ∧
      condHolds .al f0 = true ∧ (0x10002 : Imm20).toNat % 4 ≠ 0) ∧
    decode (((mk 0x10000 [] f0 []).withFetchWord 32 0x40310004).mem.wordAt 0x10000) = some (branchInstr .cc 0x10004) ∧
    condHolds .cc f0 = true ∧
    ¬((0x10004 : Imm20).toNat < 0x10000 + 4 * ((mk 0x10000 [] f0 []).withFetchWord 32 0x40310004).codeLen) := by decide
/-- The last clauses of the halt: stepping back does change the halted state; a step past the last word can be taken. -/
theorem witness_HaltStopsOnItself :
    (perform .stepBack demo3).1 ≠ demo3 ∧ canStep { demo2 with pc := 0x1000C } ∧
    ({ demo2 with pc := 0x1000C } : State).pc.toNat = 0x10000 + 4 * demo2.codeLen := by decide
theorem witness_StepRunsDecodedInstruction :
    canStep demo ∧ loadedAtPc demo ∧ byteAt demo 0x10000 = some 0x04 ∧ byteAt demo 0x10001 = some 0x00 ∧
    byteAt demo 0x10002 = some 0x11 ∧ byteAt demo 0x10003 = some 0x21 ∧ demo.pc.toNat = 0x10000 ∧
    decodeBytes [0x04, 0x00, 0x11, 0x21] = some (.addImm 1 1 4, []) := by decide
theorem witness_StepAdmitted :
    canStep demo ∧ canStep demo1 ∧ ¬canStep demo3 ∧ ¬canStep (next State.reset) ∧
    ¬canStep { demo with runState := .uninitialized } := by decide
/-- Loaded: the first and the last word of a full region; not loaded: misaligned, below, one past, nothing loaded. -/
theorem witness_FetchReadsLoadedCodeOnly :
    loadedAtPc { (mk 0x10000 [] f0 []) with codeLen := 1024 } ∧ loadedAtPc { (mk 0x10FFC [] f0 []) with codeLen := 1024 } ∧
    ¬loadedAtPc { (mk 0x11000 [] f0 []) with codeLen := 1024 } ∧ ¬loadedAtPc { (mk 0xFFFC [] f0 []) with codeLen := 1024 } ∧
    ¬loadedAtPc { (mk 0x10002 [] f0 []) with codeLen := 1024 } ∧ canStep State.reset ∧ State.reset.codeLen = 0 := by decide
/-- Each clause of the statements about a step: it ends in `Running`, in `Halted`, in `Faulted`. -/
theorem witness_step_outcomes :
    (step demo = .next demo1 ∧ demo1.runState = .running) ∧ (step demo2 = .next demo3 ∧ demo3.runState = .halted) ∧
    step State.reset = .next (next State.reset) ∧ (next State.reset).runState = .faulted :=
  ⟨⟨rfl, rfl⟩, ⟨rfl, rfl⟩, rfl, rfl⟩
/-- Each clause of the statements about `exec`: a faulting load, `HLT`, a branch, a plain instruction. -/
theorem witness_exec_outcomes :
    exec (.ldrAbs 0 0) demo = .next (memoryFault (.ldrAbs 0 0) .outOfRange 0 false demo) ∧
    exec .hlt demo = .next (commit { nextPc := demo.pc, halts := true } demo) ∧
    exec (.bne 0x10008) demo = .next (branch .ne 0x10008 demo) ∧
    exec (.movImm 1 2) demo = .next (commit { reg := some (1, 2), nextPc := seqPc demo } demo) := ⟨rfl, rfl, rfl, rfl⟩
/-- The second step of P1 answers `Running` with `pc` one past the loaded code; a loaded instruction stands at the last word
of a full region. -/
theorem witness_NextPcTable :
    step (next p1) = .next (next (next p1)) ∧ (next (next p1)).runState = .running ∧ ¬loadedAtPc (next (next p1)) ∧
    ({ (mk 0x10FFC [] f0 []) with codeLen := 1024 } : State).codeLen ≤ 1024 ∧
    loadedAtPc { (mk 0x10FFC [] f0 []) with codeLen := 1024 } := ⟨rfl, by decide, by decide, by decide, by decide⟩
/-- The four arms of the priority: absent, invalid, misaligned, out of range. -/
theorem witness_FaultPriority :
    (canStep State.reset ∧ ¬loadedAtPc State.reset) ∧
    (loadedAtPc (State.reset.withFetchWord 32 0) ∧ decode ((State.reset.withFetchWord 32 0).mem.wordAt 0x10000) = none) ∧
    (loadedAtPc (State.reset.withFetchWord 32 0x32031002) ∧
      decode ((State.reset.withFetchWord 32 0x32031002).mem.wordAt 0x10000) = some (.strAbs 0 0x31002) ∧
      access (.strAbs 0 0x31002) State.reset = some (0x31002, true) ∧ (0x31002 : Word).toNat % 4 ≠ 0) ∧
    access (.strAbs 0 0x31000) State.reset = some (0x31000, true) ∧ (0x31000 : Word).toNat % 4 = 0 ∧
    ¬wordAddress (0x31000 : Word).toNat := by decide
theorem witness_OnlyLoadsAndStoresFault : access .hlt demo = none ∧ access (.b 0x10000) demo = none := by decide
/-- The clauses on stores and on what stores nothing. -/
theorem witness_StoreEvents :
    (storeOf (.strAbs 1 0x30FFC) demo1 = some (0x30FFC, 4) ∧ exec (.strAbs 1 0x30FFC) demo1 = .next demo2 ∧
      demo2.runState ≠ .faulted) ∧
    storeOf .hlt demo2 = none ∧ stepBack demo2 = .ok (undo (demo2.history.headD ⟨0, .ready, none, none, none⟩) demo1.history demo2) ∧
    replayToStart demo = .ok demo ∧ loadCode [] demo = .ok { demo with mem := [], codeLen := 0 } ∧
    writeMemory 0x30000 [] demo = .ok demo := ⟨⟨by decide, rfl, by decide⟩, by decide, by decide, rfl, by decide, by decide⟩
theorem witness_ChangedByteWasStored :
    Memory.wf demo1.mem ∧ step demo1 = .next demo2 ∧ byteAt demo2 0x30FFC ≠ byteAt demo1 0x30FFC := ⟨by decide, rfl, by decide⟩
/-- Two machines that differ in history and trace alone. -/
theorem witness_StepReadsOnlyItsInputs :
    sameInputs demo1 { demo1 with history := [], storeEvents := [⟨0x30000, 1⟩] } ∧ step demo1 = .next demo2 :=
  ⟨⟨rfl, rfl, rfl, rfl, rfl, rfl⟩, rfl⟩

/-! ### Invariants, reverse stepping and the host -/

theorem witness_StepKeepsInvariant : demo.inv ∧ step demo = .next demo1 := ⟨witness_inv_ready, rfl⟩
theorem witness_StepThenStepBackRestores :
    Memory.wf demo1.mem ∧ step demo1 = .next demo2 ∧ demo2.runState ≠ .faulted := ⟨by decide, rfl, by decide⟩
theorem witness_ReplayRestoresLoadedMachine :
    demo.inv ∧ demo.runState = .ready ∧ Sys2Proof.core.run 3 demo = .next demo3 ∧ demo3.runState ≠ .faulted :=
  ⟨witness_inv_ready, rfl, rfl, by decide⟩
/-- Every clause: `Ready`, `Uninitialized`, `Faulted`, and records with a register, with flags, with bytes, with none. -/
theorem witness_StepBackUndoesNewestRecord :
    (demo.inv ∧ demo.runState = .ready) ∧ (next State.reset).runState = .faulted ∧
    (demo1.runState = .running ∧ demo1.history = [⟨0x10000, .ready, some (1, 0), some f0, none⟩]) ∧
    (demo2.inv ∧ demo2.history.head? = some ⟨0x10004, .running, none, none, some (0x30FFC, [0, 0, 0, 0])⟩) ∧
    demo3.inv ∧ demo3.history.head? = some ⟨0x10008, .running, none, none, none⟩ :=
  ⟨⟨witness_inv_ready, rfl⟩, by decide, by decide, ⟨witness_inv_running, by decide⟩, witness_inv_halted, by decide⟩
theorem witness_StepPredicates : demo.inv ∧ ({ demo with runState := .uninitialized } : State).runState = .uninitialized :=
  ⟨witness_inv_ready, rfl⟩
theorem witness_CodeLenChanged :
    (perform (.loadCode []) demo).1.codeLen ≠ demo.codeLen ∧
    loadCode [0x01000000] demo = .ok { State.reset with mem := [(0x10003, 0x01)], codeLen := 1 } := by decide
theorem witness_RefusedOperationsChangeNothing : (perform .stepBack demo).2 = .refused .nothingToUndo := by decide
theorem witness_OperationValidityTable :
    (demo1.runState = .running ∧ demo1.history ≠ []) ∧ tableCell (.loadCode []) demo1.runState = some .notReady ∧
    tableCell .stepBack demo.runState = some .nothingToUndo ∧ tableCell .step demo1.runState = none := by decide
theorem witness_UninitializedIsUnobservable :
    ({ demo with runState := .uninitialized } : State).runState = .uninitialized ∧
    ({ State.reset with runState := .uninitialized } : State).runState = .uninitialized := by decide
/-- Each clause: the longest program that fits, one word too many, and a machine that is not `Ready`. -/
theorem witness_LoadCodeReplacesCodeRegion :
    Memory.wf demo.mem ∧ demo.runState = .ready ∧ (List.replicate 1024 (0 : Word)).length ≤ 1024 ∧
    1024 < (List.replicate 1025 (0 : Word)).length ∧ demo1.runState ≠ .ready := by
  refine ⟨by decide, rfl, ?_, ?_, by decide⟩
  · rw [List.length_replicate]
  · rw [List.length_replicate]; decide
/-- Each clause: the last byte of a region, an empty range outside every region, a range that leaves its region. -/
theorem witness_HostRawAccess :
    Memory.wf demo.mem ∧ demo.runState = .ready ∧ (regionOf 0x30FFF [(0xAA : Byte)].length).isSome = true ∧
    regionOf 0x30FFF [(0xAA : Byte), 0xBB].length = none ∧ regionOf 0x2FFFF 2 = none ∧ regionOf 0 1 = none ∧
    demo1.runState ≠ .ready ∧ demo1.runState ≠ .uninitialized ∧
    ({ demo with runState := .uninitialized } : State).runState = .uninitialized := by decide
/-- The image of program P6 of 95_test_vectors.md, and one with an empty block. -/
theorem witness_BootExecutesFirstWord :
    [(0x01000000 : Word)].length ≤ 1024 ∧ decode 0x01000000 = some .hlt ∧ ([] : List Word).length ≤ 1024 ∧
    (∀ blk ∈ [(0x30010, [(0x00 : Byte), 0x00, 0x00, 0x80, 0x01, 0x00, 0x00, 0x00]), (0, [])],
      blk.2 = [] ∨ (regionOf blk.1 blk.2.length).isSome = true) ∧
    (∀ blk ∈ [(0x30010, [(0x00 : Byte), 0x00, 0x00, 0x80, 0x01, 0x00, 0x00, 0x00]), (0, [])],
      blk.2 = [] ∨ regionOf blk.1 blk.2.length ≠ some .code) := by decide
/-- The mailbox address by both forms of the store, and a word elsewhere. -/
theorem witness_MailboxStoresAreMoves :
    (storeOf (.strAbs 1 0x30000) demo1 = some (0x30000, 4) ∧ wordAddress (0x30000 : Word).toNat ∧
      exec (.strAbs 1 0x30000) demo1 = .next (store (.strAbs 1 0x30000) 1 (eaAbs 0x30000) demo1)) ∧
    storeOf (.strOff 2 1 0) (mk 0x10000 [(1, 0x30000), (2, 3)] f0 []) = some (0x30000, 3) ∧
    storeOf (.strAbs 1 0x30004) demo1 = some (0x30004, 4) ∧ wordAddress (0x30004 : Word).toNat :=
  ⟨⟨by decide, by decide, rfl⟩, by decide, by decide, by decide⟩

/-! ### Assembly text -/

theorem witness_StatementRoundTrip :
    Stmt.toInstr (.memOff .load 0 1 (-32768)) = some (.ldrOff 0 1 0x8000) ∧ Stmt.wellFormed (.movImm 0 1048576) = false := by decide
theorem witness_DisassemblyAssembles : disassemble 0x40E10008 = some "B #0x10008".toList := by decide
theorem witness_AssembledProgramsAreValid :
    assemble "B end\nend:".toList = .ok [0x40E10004] ∧
    pass1 ⟨[], []⟩ 1 (splitLines [] "B x".toList) = .ok ⟨[], [.branch .al (.label "x".toList)]⟩ ∧
    Stmt.branch .al (.label "x".toList) ∈ [Stmt.branch .al (.label "x".toList)] ∧ Labels.find [] "x".toList = none ∧
    assemble "HLT\nx: NOP".toList = .error (.syntaxError 2 4) := by decide

end Sys2Proof.Tests
end

section
/-! SUPPORT. Which `pc` and which run state each instruction leaves (spec/10_state.md R14), and the packed flags with the
register projection (R18). -/

namespace Sys2Proof.Machine
open Sys2Proof.Claims

/-! ## The packed flags and the register projection (R18) -/

theorem Flags.toNat_pack (f : Flags) :
    f.pack.toNat = 8 * f.n.toNat + 4 * f.z.toNat + 2 * f.c.toNat + f.v.toNat := by
  have all_bits : ∀ n z c v : Bool,
      (Flags.pack ⟨n, z, c, v⟩).toNat = 8 * n.toNat + 4 * z.toNat + 2 * c.toNat + v.toNat := by decide
  exact all_bits f.n f.z f.c f.v

theorem getAllRegisters_ok {s : State} (h : s.runState ≠ .uninitialized) : getAllRegisters s = .ok (registerView s) :=
  if_neg h

/-- Settles O7: the packed number bit by bit, and the projection outside `Uninitialized`. -/
theorem flagsPackInFixedOrder : Obligations.FlagsPackInFixedOrder :=
  ⟨Flags.toNat_pack, fun _ h => getAllRegisters_ok h⟩

/-! ## What execution leaves in `pc` and in the run state -/

theorem seqPc_eq_ofNat (s : State) : seqPc s = BitVec.ofNat 32 ((s.pc.toNat + 4) % 2 ^ 32) :=
  BitVec.eq_of_toNat_eq (by simp [seqPc, BitVec.toNat_add])

theorem runStateAfter_ne_faulted (e : Effect) : runStateAfter e ≠ .faulted := by
  cases h : e.halts <;> simp [runStateAfter, h]

/-- The effect of an instruction that goes on with the next word: no branch and no halt. -/
structure Effect.Sequential (e : Effect) (s : State) : Prop where
  nextPc : e.nextPc = seqPc s
  halts : e.halts = false

theorem Effect.Sequential.runStateAfter {e : Effect} {s : State} (h : e.Sequential s) : runStateAfter e = .running := by
  simp [Machine.runStateAfter, h.halts]

/-- The two ways a data access at `ea` ends: admitted, with a sequential effect, or refused, with the `MemoryFault`. -/
def AccessOutcome (i : Instr) (ea : Word) (isStore : Bool) (s : State) : Prop :=
  (admission ea 4 = none ∧ ∃ e : Effect, e.Sequential s ∧ exec i s = .next (commit e s)) ∨
  ∃ c, admission ea 4 = some c ∧ exec i s = .next (memoryFault i c ea isStore s)

theorem accessOutcome_of_load {i : Instr} {t : RegNum} {ea : Word} {s : State}
    (h : exec i s = .next (load i t ea s)) : AccessOutcome i ea false s := by
  rcases load_cases s i t ea with ⟨ha, hl⟩ | ⟨c, hc, hl⟩
  · exact .inl ⟨ha, _, ⟨rfl, rfl⟩, h.trans (congrArg _ hl)⟩
  · exact .inr ⟨c, hc, h.trans (congrArg _ hl)⟩

theorem accessOutcome_of_store {i : Instr} {t : RegNum} {ea : Word} {s : State}
    (h : exec i s = .next (store i t ea s)) : AccessOutcome i ea true s := by
  rcases store_cases s i t ea with ⟨ha, hl⟩ | ⟨c, hc, hl⟩
  · exact .inl ⟨ha, _, ⟨rfl, rfl⟩, h.trans (congrArg _ hl)⟩
  · exact .inr ⟨c, hc, h.trans (congrArg _ hl)⟩

/-- The four loads and stores: each ends in one of the two ways of a data access. -/
theorem accessOutcome_of_access {i : Instr} {ea : Word} {isStore : Bool} {s : State}
    (h : access i s = some (ea, isStore)) : AccessOutcome i ea isStore s := by
  cases i with
  | ldrAbs t abs => cases h; exact accessOutcome_of_load (t := t) rfl
  | ldrOff t n off => cases h; exact accessOutcome_of_load (t := t) rfl
  | strAbs t abs => cases h; exact accessOutcome_of_store (t := t) rfl
  | strOff t n off => cases h; exact accessOutcome_of_store (t := t) rfl
  | _ => cases h

/-- An instruction without a data access is the halt or a branch, or it commits a sequential effect. -/
theorem exec_of_no_access {i : Instr} {s : State} (h : access i s = none) :
    i = .hlt ∨ (∃ c target, i = branchInstr c target) ∨
      i ≠ .hlt ∧ ∃ e : Effect, e.Sequential s ∧ exec i s = .next (commit e s) := by
  cases i with
  | hlt => exact .inl rfl
  | ldrAbs | ldrOff | strAbs | strOff => cases h
  | beq target => exact .inr (.inl ⟨.eq, target, rfl⟩)
  | bne target => exact .inr (.inl ⟨.ne, target, rfl⟩)
  | bcs target => exact .inr (.inl ⟨.cs, target, rfl⟩)
  | bcc target => exact .inr (.inl ⟨.cc, target, rfl⟩)
  | bmi target => exact .inr (.inl ⟨.mi, target, rfl⟩)
  | bpl target => exact .inr (.inl ⟨.pl, target, rfl⟩)
  | bvs target => exact .inr (.inl ⟨.vs, target, rfl⟩)
  | bvc target => exact .inr (.inl ⟨.vc, target, rfl⟩)
  | bhi target => exact .inr (.inl ⟨.hi, target, rfl⟩)
  | bls target => exact .inr (.inl ⟨.ls, target, rfl⟩)
  | bge target => exact .inr (.inl ⟨.ge, target, rfl⟩)
  | blt target => exact .inr (.inl ⟨.lt, target, rfl⟩)
  | bgt target => exact .inr (.inl ⟨.gt, target, rfl⟩)
  | ble target => exact .inr (.inl ⟨.le, target, rfl⟩)
  | b target => exact .inr (.inl ⟨.al, target, rfl⟩)
  | _ => exact .inr (.inr ⟨nofun, _, ⟨rfl, rfl⟩, rfl⟩)

theorem exec_hlt (s : State) : exec .hlt s = .next (commit { nextPc := s.pc, halts := true } s) := rfl

theorem branchInstr_ne_hlt (c : Cond) (target : Imm20) : branchInstr c target ≠ .hlt := by cases c <;> nofun

/-- The run state that executing an instruction leaves: decided by the admission of its data access, or by its being the
halt (R33, R75, R135). -/
def execRunState (i : Instr) (s : State) : RunState :=
  match access i s with
  | some (ea, _) => if admission ea 4 = none then .running else .faulted
  | none => if i = .hlt then .halted else .running

theorem exec_runState (i : Instr) (s : State) : ∃ t, exec i s = .next t ∧ t.runState = execRunState i s := by
  cases ha : access i s with
  | some a =>
    rcases accessOutcome_of_access ha with ⟨hn, e, he, hx⟩ | ⟨c, hc, hx⟩
    · exact ⟨_, hx, by simp [execRunState, ha, hn, he.runStateAfter]⟩
    · exact ⟨_, hx, by simp [execRunState, ha, hc, memoryFault]⟩
  | none =>
    rcases exec_of_no_access ha with rfl | ⟨c, target, rfl⟩ | ⟨hi, e, he, hx⟩
    · exact ⟨_, exec_hlt s, rfl⟩
    · refine ⟨_, exec_branchInstr s c target, ?_⟩
      simp [execRunState, ha, branchInstr_ne_hlt, branch_eq, runStateAfter]
    · exact ⟨_, hx, by simp [execRunState, ha, hi, he.runStateAfter]⟩

/-- The effective address is computed from the registers and the instruction alone, so `pc` does not enter it (R105). -/
theorem access_withPc (i : Instr) (s : State) (p : Word) : access i { s with pc := p } = access i s := by
  cases i <;> rfl

theorem execRunState_withPc (i : Instr) (s : State) (p : Word) : execRunState i { s with pc := p } = execRunState i s := by
  simp only [execRunState, access_withPc]

/-! ## The rows of the table of R14 -/

theorem exec_pc_of_faulted {i : Instr} {s t : State} (h : exec i s = .next t) (hf : t.runState = .faulted) :
    t.pc = s.pc := by
  rcases exec_cases s i with ⟨e, _, hx⟩ | ⟨c, ea, st, _, hx⟩ <;> cases hx.symm.trans h
  · exact absurd hf (runStateAfter_ne_faulted e)
  · rfl

theorem exec_pc_of_hlt {s t : State} (h : exec .hlt s = .next t) : t.pc = s.pc := by
  cases (exec_hlt s).symm.trans h
  rfl

theorem exec_pc_of_branch {c : Cond} {target : Imm20} {s t : State} (h : exec (branchInstr c target) s = .next t) :
    t.pc = if condHolds c s.flags then target.setWidth 32 else BitVec.ofNat 32 ((s.pc.toNat + 4) % 2 ^ 32) := by
  cases (exec_branchInstr s c target).symm.trans h
  rw [branch_eq, commit_pc, zext20, seqPc_eq_ofNat]

theorem exec_pc_of_sequential {i : Instr} {s t : State} (h : exec i s = .next t) (hf : t.runState ≠ .faulted)
    (hhlt : i ≠ .hlt) (hbranch : ∀ c target, i ≠ branchInstr c target) :
    t.pc = BitVec.ofNat 32 ((s.pc.toNat + 4) % 2 ^ 32) := by
  have pc_of_commit : ∀ e : Effect, e.Sequential s → exec i s = .next (commit e s) →
      t.pc = BitVec.ofNat 32 ((s.pc.toNat + 4) % 2 ^ 32) := by
    intro e he hx
    cases hx.symm.trans h
    rw [commit_pc, he.nextPc, seqPc_eq_ofNat]
  cases ha : access i s with
  | some a =>
    rcases accessOutcome_of_access ha with ⟨_, e, he, hx⟩ | ⟨c, _, hx⟩
    · exact pc_of_commit e he hx
    · cases hx.symm.trans h
      exact absurd rfl hf
  | none =>
    rcases exec_of_no_access ha with hi | ⟨c, target, hi⟩ | ⟨_, e, he, hx⟩
    · exact absurd hi hhlt
    · exact absurd hi (hbranch c target)
    · exact pc_of_commit e he hx

/-! ## The step (R14, R41) -/

theorem step_pc_of_faulted {s t : State} (h : step s = .next t) (hf : t.runState = .faulted) : t.pc = s.pc := by
  rcases step_cases s (canStep_of_step_next s h) with ⟨r, _, hr⟩ | ⟨i, _, hi⟩
  · cases hr.symm.trans h
    rfl
  · exact exec_pc_of_faulted (hi.symm.trans h) hf

/-- Where no loaded instruction stands at `pc`, the step's fetch enters `DecodeFault(absent)` (R41). -/
theorem step_decodeAbsent {s : State} (hs : s.runState.canStep = true) (hl : ¬loadedAtPc s) :
    step s = .next (faultedWith (.decodeAbsent s.pc) s) := by
  have hfetch : fetchable s = false := by
    rw [Bool.eq_false_iff]
    exact fun hf => hl ((fetchable_iff s).1 hf)
  have hdecode : fetchDecode s = .error (.decodeAbsent s.pc) := by
    simp only [fetchDecode, (fetch_none_iff s).2 hfetch]
  rcases step_cases s hs with ⟨r, hr, hx⟩ | ⟨i, hi, _⟩
  · cases hdecode.symm.trans hr
    exact hx
  · cases hdecode.symm.trans hi

theorem loadedAtPc_pc_lt {s : State} (hlen : s.codeLen ≤ 1024) (hl : loadedAtPc s) : s.pc.toNat < 0x11000 := by
  obtain ⟨_, _, hpc⟩ := hl
  omega

/-- Settles O33: the rows of R14's table one by one, the run state without `pc`, and the next fetch. -/
theorem nextPcTable : Obligations.NextPcTable := by
  refine ⟨fun s t => step_pc_of_faulted, ?_, ?_, ?_, ?_⟩
  · intro i s p
    obtain ⟨t, ht, hrt⟩ := exec_runState i s
    obtain ⟨t', ht', hrt'⟩ := exec_runState i { s with pc := p }
    exact ⟨t, t', ht, ht', by rw [hrt, hrt', execRunState_withPc]⟩
  · intro _ t _ hrun hl
    exact step_decodeAbsent ((canStep_iff _).2 (.inr hrun)) hl
  · intro s hlen hl
    have hpc := loadedAtPc_pc_lt hlen hl
    exact ⟨hpc, by omega⟩
  · intro i s t h
    refine ⟨exec_pc_of_faulted h, ?_, ?_, exec_pc_of_sequential h⟩
    · rintro rfl
      exact exec_pc_of_hlt h
    · rintro c target rfl
      exact exec_pc_of_branch h

end Sys2Proof.Machine
end

section
/-! SUPPORT. Where a fetch reads (spec/20_memory.md R41), which operations emit a store event (R39), and the host's raw access
to memory (R45). -/

namespace Sys2Proof.Machine
open Sys2Proof.Claims

/-! ## The byte and the word at an address (R23, R34) -/

theorem byteAt_of_backed {s : State} {a : Nat} (h : backed a = true) : byteAt s a = some (s.mem.byte a) := if_pos h

theorem byteAt_congr {s t : State} {a : Nat} (h : t.mem.byte a = s.mem.byte a) : byteAt t a = byteAt s a := by
  simp only [byteAt, h]

theorem byteOfWord_wordAt (m : Memory) (x k : Nat) (hk : k < 4) : byteOfWord (m.wordAt x) k = m.byte (x + k) := by
  match k, hk with
  | 0, _ => exact byteOfWord_zero ..
  | 1, _ => exact byteOfWord_one ..
  | 2, _ => exact byteOfWord_two ..
  | 3, _ => exact byteOfWord_three ..

theorem holdsWord_wordAt {s : State} {a : Nat} (hr : (regionOf a 4).isSome = true) :
    holdsWord s a (s.mem.wordAt a) := by
  intro k hk
  have hb : backed (a + k) = true := backed_of_region hr (by omega) (by omega)
  exact (byteAt_of_backed hb).trans (congrArg some (byteOfWord_wordAt s.mem a k hk).symm)

/-! ## The fetch (R41) -/

theorem regionOf_eq_code {a n : Nat} (h1 : 0x10000 ≤ a) (h2 : a + n ≤ 0x11000) : regionOf a n = some .code :=
  if_pos (decide_eq_true ⟨h1, h2⟩)

theorem regionOf_pc_of_loaded {s : State} (hlen : s.codeLen ≤ 1024) (hl : loadedAtPc s) :
    regionOf s.pc.toNat 4 = some .code := by
  obtain ⟨haligned, hbase, hend⟩ := hl
  exact regionOf_eq_code hbase (by omega)

theorem fetch_of_loaded {s : State} (hl : loadedAtPc s) : fetch s = some (s.mem.wordAt s.pc.toNat) :=
  (fetch_some_iff s _).2 ⟨(fetchable_iff s).2 hl, rfl⟩

theorem fetch_of_not_loaded {s : State} (hl : ¬loadedAtPc s) : fetch s = none :=
  (fetch_none_iff s).2 (Bool.eq_false_iff.2 fun hf => hl ((fetchable_iff s).1 hf))

theorem not_loadedAtPc_of_no_code {s : State} (h : s.codeLen = 0) : ¬loadedAtPc s := by
  rintro ⟨_, hbase, hend⟩
  omega

/-- Settles O31: the fetch inside the loaded code, elsewhere, and with no code loaded. -/
theorem fetchReadsLoadedCodeOnly : Obligations.FetchReadsLoadedCodeOnly := by
  intro s
  refine ⟨?_, ?_, ?_⟩
  · intro hl hlen
    have hcode := regionOf_pc_of_loaded hlen hl
    exact ⟨hcode, _, fetch_of_loaded hl, holdsWord_wordAt (Option.isSome_of_eq_some hcode)⟩
  · intro hl
    exact ⟨fetch_of_not_loaded hl, fun hs => step_decodeAbsent ((canStep_iff _).2 hs) hl⟩
  · intro hs h0
    exact step_decodeAbsent ((canStep_iff _).2 hs) (not_loadedAtPc_of_no_code h0)

/-! ## Store events (R39) -/

theorem admission_none_iff_wordAddress (ea : Word) : admission ea 4 = none ↔ wordAddress ea.toNat := by
  rw [admit_none_iff, regionOf_isSome_iff]

theorem exec_eq_store_of_storeOf {i : Instr} {s : State} {ea v : Word} (h : storeOf i s = some (ea, v)) :
    ∃ t, v = getReg s t ∧ exec i s = .next (store i t ea s) := by
  cases i with
  | strAbs t abs => cases h; exact ⟨t, rfl, rfl⟩
  | strOff t n off => cases h; exact ⟨t, rfl, rfl⟩
  | _ => cases h

/-- The two forms of `STR`: an admitted address commits the store of its address and word, any other faults (R108, R109). -/
theorem exec_of_storeOf {i : Instr} {s : State} {ea v : Word} (h : storeOf i s = some (ea, v)) :
    (admission ea 4 = none ∧ exec i s = .next (commit { store := some (ea, v), nextPc := seqPc s } s)) ∨
    ∃ c, admission ea 4 = some c ∧ exec i s = .next (memoryFault i c ea true s) := by
  obtain ⟨t, rfl, hx⟩ := exec_eq_store_of_storeOf h
  rcases store_cases s i t ea with ⟨ha, hs⟩ | ⟨c, hc, hs⟩
  · exact .inl ⟨ha, hx.trans (congrArg _ hs)⟩
  · exact .inr ⟨c, hc, hx.trans (congrArg _ hs)⟩

/-- An instruction that is no `STR` commits an effect without a store, or it is a faulting load (R74). -/
theorem exec_of_storeOf_none {i : Instr} {s : State} (h : storeOf i s = none) :
    (∃ e : Effect, e.store = none ∧ exec i s = .next (commit e s)) ∨
    ∃ c ea, exec i s = .next (memoryFault i c ea false s) := by
  have of_load : ∀ t ea, exec i s = .next (load i t ea s) →
      (∃ e : Effect, e.store = none ∧ exec i s = .next (commit e s)) ∨
      ∃ c ea, exec i s = .next (memoryFault i c ea false s) := by
    intro t ea hx
    rcases load_cases s i t ea with ⟨_, hl⟩ | ⟨c, _, hl⟩
    · exact .inl ⟨_, rfl, hx.trans (congrArg _ hl)⟩
    · exact .inr ⟨c, ea, hx.trans (congrArg _ hl)⟩
  cases i with
  | ldrAbs t abs => exact of_load t (eaAbs abs) rfl
  | ldrOff t n off => exact of_load t (eaOff n off s) rfl
  | strAbs | strOff => cases h
  | _ => exact .inl ⟨_, rfl, rfl⟩

theorem exec_storeEvents_of_storeOf {i : Instr} {s t : State} {ea v : Word} (h : storeOf i s = some (ea, v))
    (hx : exec i s = .next t) (ht : t.runState ≠ .faulted) : t.storeEvents = s.storeEvents ++ [⟨ea, v⟩] := by
  rcases exec_of_storeOf h with ⟨_, he⟩ | ⟨c, _, he⟩ <;> cases he.symm.trans hx
  · exact (commit_storeEvents _ s).trans (eventsAfter_some _ s rfl)
  · exact absurd rfl ht

theorem exec_storeEvents_of_storeOf_none {i : Instr} {s t : State} (h : storeOf i s = none)
    (hx : exec i s = .next t) : t.storeEvents = s.storeEvents := by
  rcases exec_of_storeOf_none h with ⟨e, hstore, he⟩ | ⟨c, ea, he⟩ <;> cases he.symm.trans hx
  · exact eventsAfter_none e s hstore
  · rfl

theorem exec_storeEvents_of_faulted {i : Instr} {s t : State} (hx : exec i s = .next t)
    (ht : t.runState = .faulted) : t.storeEvents = s.storeEvents := by
  rcases exec_cases s i with ⟨e, _, he⟩ | ⟨c, ea, st, _, he⟩ <;> cases he.symm.trans hx
  · exact absurd ht (runStateAfter_ne_faulted e)
  · rfl

/-- A `STR` ends in `Faulted` exactly where its address is not admitted (R33). -/
theorem exec_faulted_iff_of_storeOf {i : Instr} {s t : State} {ea v : Word} (h : storeOf i s = some (ea, v))
    (hx : exec i s = .next t) : t.runState = .faulted ↔ ¬wordAddress ea.toNat := by
  rw [← admission_none_iff_wordAddress]
  rcases exec_of_storeOf h with ⟨ha, he⟩ | ⟨c, hc, he⟩ <;> cases he.symm.trans hx
  · rw [commit_runState]
    exact iff_of_false (runStateAfter_ne_faulted _) (not_not_intro ha)
  · exact iff_of_true rfl (by simp [hc])

theorem stepBack_storeEvents {s t : State} (h : stepBack s = .ok t) : t.storeEvents = s.storeEvents := by
  obtain ⟨_, r, rest, _, rfl⟩ := (stepBack_ok_iff s t).1 h
  rfl

theorem undoAll_storeEvents (rs : List StepRecord) (s : State) : (undoAll rs s).storeEvents = s.storeEvents := by
  induction rs generalizing s with
  | nil => rfl
  | cons r rest ih => exact ih (undo r rest s)

/-- What `replayToStart` does where it succeeds: nothing in `Ready`, and elsewhere every record is undone (R155). -/
theorem replayToStart_ok {s t : State} (h : replayToStart s = .ok t) : t = s ∨ t = undoAll s.history s := by
  unfold replayToStart at h
  cases hr : s.runState <;> rw [hr] at h <;> cases h
  case ready => exact .inl rfl
  case running => exact .inr rfl
  case halted => exact .inr rfl

theorem replayToStart_storeEvents {s t : State} (h : replayToStart s = .ok t) : t.storeEvents = s.storeEvents := by
  rcases replayToStart_ok h with rfl | rfl
  · rfl
  · exact undoAll_storeEvents _ s

theorem loadCode_storeEvents {ws : List Word} {s t : State} (h : loadCode ws s = .ok t) :
    t.storeEvents = s.storeEvents := by
  obtain ⟨_, _, rfl⟩ := (loadCode_ok_iff s ws t).1 h
  rfl

theorem writeMemory_storeEvents {a : Nat} {bs : List Byte} {s t : State} (h : writeMemory a bs s = .ok t) :
    t.storeEvents = s.storeEvents := by
  obtain ⟨_, _, rfl⟩ := (writeMemory_ok_iff s a bs t).1 h
  rfl

/-- Settles O39: the instructions by what they store, then the other operations one by one. -/
theorem storeEventsOnePerCommittedStore : Obligations.StoreEventsOnePerCommittedStore := by
  refine ⟨?_, fun _ _ => stepBack_storeEvents, fun _ _ => replayToStart_storeEvents, fun _ _ _ => loadCode_storeEvents,
    fun _ _ _ _ => writeMemory_storeEvents, fun _ => rfl⟩
  intro i s t hx
  refine ⟨fun _ _ h => exec_storeEvents_of_storeOf h hx, fun _ _ h => exec_faulted_iff_of_storeOf h hx, ?_⟩
  rintro (h | ht)
  · exact exec_storeEvents_of_storeOf_none h hx
  · exact exec_storeEvents_of_faulted hx ht

/-! ## Bytes read back from a range -/

theorem readBytes_getElem? (m : Memory) {x n k : Nat} (h : k < n) : (m.readBytes x n)[k]? = some (m.byte (x + k)) := by
  have hk : k < (m.readBytes x n).length := by rwa [readBytes_length]
  rw [List.getElem?_eq_getElem hk, ← readBytes_getD m x n k 0 h, List.getD_eq_getElem _ _ hk]

theorem byte_writeBytes_at {bs : List Byte} {m : Memory} {x k : Nat} {b : Byte} (h : m.wf)
    (hb : ∀ z, x ≤ z → z < x + bs.length → backed z = true) (hk : bs[k]? = some b) :
    (m.writeBytes x bs).byte (x + k) = b := by
  rw [byte_writeBytes bs m x (x + k) h hb, if_pos (Nat.le_add_right x k), Nat.add_sub_cancel_left,
    List.getD_eq_getElem?_getD, hk, Option.getD_some]

theorem byte_writeBytes_off_range {bs : List Byte} {m : Memory} {x y : Nat} (h : m.wf)
    (hb : ∀ z, x ≤ z → z < x + bs.length → backed z = true) (hy : y < x ∨ x + bs.length ≤ y) :
    (m.writeBytes x bs).byte y = m.byte y := by
  rw [byte_writeBytes bs m x y h hb]
  split
  · exact List.getD_eq_default _ _ (by omega)
  · rfl

theorem readBytes_writeBytes {bs : List Byte} {m : Memory} {x : Nat} (h : m.wf)
    (hb : ∀ z, x ≤ z → z < x + bs.length → backed z = true) :
    (m.writeBytes x bs).readBytes x bs.length = bs := by
  refine List.ext_getElem? fun k => ?_
  by_cases hk : k < bs.length
  · have hbk := List.getElem?_eq_getElem hk
    rw [readBytes_getElem? _ hk, byte_writeBytes_at h hb hbk, hbk]
  · rw [List.getElem?_eq_none (by simpa using hk), List.getElem?_eq_none (by simpa using hk)]

/-! ## The host's raw access (R45) -/

theorem hostRange_iff (a n : Nat) : hostRange a n = true ↔ n = 0 ∨ (regionOf a n).isSome = true := by
  simp [hostRange]

theorem hostRange_false {a n : Nat} (hn : n ≠ 0) (hr : regionOf a n = none) : hostRange a n = false := by
  simp [hostRange, hn, hr]

theorem backed_of_hostRange {a n x : Nat} (h : hostRange a n = true) (h1 : a ≤ x) (h2 : x < a + n) :
    backed x = true := by
  rcases (hostRange_iff a n).1 h with rfl | hr
  · omega
  · exact backed_of_region hr h1 h2

theorem writeMemory_ok {a : Nat} {bs : List Byte} {s : State} (hs : s.runState = .ready)
    (hr : hostRange a bs.length = true) : writeMemory a bs s = .ok { s with mem := s.mem.writeBytes a bs } :=
  (writeMemory_ok_iff s a bs _).2 ⟨hs, hr, rfl⟩

theorem writeMemory_memoryRange {a : Nat} {bs : List Byte} {s : State} (hs : s.runState = .ready)
    (hr : hostRange a bs.length = false) : writeMemory a bs s = .error .memoryRange := by
  simp [writeMemory, hs, hr]

theorem writeMemory_notReady {a : Nat} {bs : List Byte} {s : State} (hs : s.runState ≠ .ready) :
    writeMemory a bs s = .error .notReady := if_neg hs

theorem readMemory_ok {a n : Nat} {s : State} (hs : s.runState ≠ .uninitialized) (hr : hostRange a n = true) :
    readMemory a n s = .ok (s.mem.readBytes a n) := by
  simp [readMemory, hs, hr]

theorem readMemory_memoryRange {a n : Nat} {s : State} (hs : s.runState ≠ .uninitialized)
    (hr : hostRange a n = false) : readMemory a n s = .error .memoryRange := by
  simp [readMemory, hs, hr]

theorem readMemory_notReady {a n : Nat} {s : State} (hs : s.runState = .uninitialized) :
    readMemory a n s = .error .notReady := if_pos hs

theorem perform_writeMemory_refused {a : Nat} {bs : List Byte} {s : State} {r : Refusal}
    (h : writeMemory a bs s = .error r) : perform (.writeMemory a bs) s = (s, .refused r) := by
  simp only [perform, h, answer]

theorem perform_readMemory_refused {a n : Nat} {s : State} {r : Refusal}
    (h : readMemory a n s = .error r) : perform (.readMemory a n) s = (s, .refused r) := by
  simp only [perform, h, answerRead]

/-- A write of an admitted range: exactly its bytes, and the host reads them back. -/
theorem writeMemory_spec {a : Nat} {bs : List Byte} {s : State} (hwf : s.mem.wf) (hs : s.runState = .ready)
    (hr : hostRange a bs.length = true) :
    ∃ t, writeMemory a bs s = .ok t ∧ (∀ k b, bs[k]? = some b → byteAt t (a + k) = some b) ∧
      sameMemoryOutside s t a bs.length ∧ readMemory a bs.length t = .ok bs ∧ t = { s with mem := t.mem } := by
  have hb : ∀ z, a ≤ z → z < a + bs.length → backed z = true := fun _ => backed_of_hostRange hr
  refine ⟨_, writeMemory_ok hs hr, ?_, ?_, ?_, rfl⟩
  · intro k b hk
    have hlt : k < bs.length := (List.getElem?_eq_some_iff.1 hk).1
    rw [byteAt_of_backed (hb (a + k) (by omega) (by omega)), byte_writeBytes_at hwf hb hk]
  · intro x hx
    exact byteAt_congr (byte_writeBytes_off_range hwf hb hx)
  · rw [readMemory_ok (by simp [hs]) hr, readBytes_writeBytes hwf hb]

/-- A read of an admitted range answers its bytes. -/
theorem readMemory_spec {a n : Nat} {s : State} (hs : s.runState ≠ .uninitialized) (hr : hostRange a n = true) :
    ∃ bs, readMemory a n s = .ok bs ∧ bs.length = n ∧ ∀ k, k < n → byteAt s (a + k) = bs[k]? := by
  refine ⟨_, readMemory_ok hs hr, readBytes_length _ _ _, fun k hk => ?_⟩
  rw [byteAt_of_backed (backed_of_hostRange hr (by omega) (by omega)), readBytes_getElem? _ hk]

/-- Settles O55: the admitted write and read, then the refusals, by range and by run state. -/
theorem hostRawAccess : Obligations.HostRawAccess := by
  intro a s hwf
  refine ⟨?_, ?_, ?_, ?_, ?_, ?_⟩
  · intro bs hs hr
    exact writeMemory_spec hwf hs ((hostRange_iff _ _).2 (hr.imp_left List.length_eq_zero_iff.2))
  · intro n hs hr
    exact readMemory_spec hs ((hostRange_iff _ _).2 hr)
  · intro bs hs hne hr
    have hlen : bs.length ≠ 0 := mt List.length_eq_zero_iff.1 hne
    exact perform_writeMemory_refused (writeMemory_memoryRange hs (hostRange_false hlen hr))
  · intro n hs hn hr
    exact perform_readMemory_refused (readMemory_memoryRange hs (hostRange_false hn hr))
  · intro bs hs
    exact perform_writeMemory_refused (writeMemory_notReady hs)
  · intro n hs
    exact perform_readMemory_refused (readMemory_notReady hs)

end Sys2Proof.Machine
end

section
/-! SUPPORT. Which words the decoder refuses (spec/30_encoding.md R56): the words with no row, told by the five fields of R51. -/

namespace Sys2Proof

/-! ## A word is its five fields (R51) -/

@[simp] theorem opField_and (w m : Word) : opField (w &&& m) = opField w &&& opField m := BitVec.extractLsb'_and ..
@[simp] theorem raField_and (w m : Word) : raField (w &&& m) = raField w &&& raField m := BitVec.extractLsb'_and ..
@[simp] theorem rbField_and (w m : Word) : rbField (w &&& m) = rbField w &&& rbField m := BitVec.extractLsb'_and ..
@[simp] theorem rcField_and (w m : Word) : rcField (w &&& m) = rcField w &&& rcField m := BitVec.extractLsb'_and ..
@[simp] theorem z12Field_and (w m : Word) : z12Field (w &&& m) = z12Field w &&& z12Field m := BitVec.extractLsb'_and ..

theorem word_eq_iff_fields (w v : Word) :
    w = v ↔ opField w = opField v ∧ raField w = raField v ∧ rbField w = rbField v ∧ rcField w = rcField v ∧
      z12Field w = z12Field v := by
  simp only [BitVec.toNat_eq, opField, raField, rbField, rcField, z12Field, BitVec.extractLsb'_toNat,
    Nat.shiftRight_eq_div_pow]
  omega

theorem z24Field_eq_zero_iff (w : Word) :
    z24Field w = 0 ↔ raField w = 0 ∧ rbField w = 0 ∧ rcField w = 0 ∧ z12Field w = 0 := by
  simp only [BitVec.toNat_eq, z24Field, raField, rbField, rcField, z12Field, BitVec.extractLsb'_toNat,
    Nat.shiftRight_eq_div_pow, BitVec.ofNat_eq_ofNat, BitVec.toNat_ofNat]
  omega

/-- The match of R54 splits into a match of each field. -/
theorem and_mask_eq_iff_fields (w m p : Word) :
    w &&& m = p ↔ opField w &&& opField m = opField p ∧ raField w &&& raField m = raField p ∧
      rbField w &&& rbField m = rbField p ∧ rcField w &&& rcField m = rcField p ∧
      z12Field w &&& z12Field m = z12Field p := by
  simp only [word_eq_iff_fields (w &&& m) p, opField_and, raField_and, rbField_and, rcField_and, z12Field_and]

/-! ## The opcodes of the map (R54) -/

/-- The fourteen opcodes of the opcode map. -/
def mapOpcodes : List (BitVec 8) :=
  [0x01, 0x10, 0x11, 0x20, 0x21, 0x22, 0x23, 0x24, 0x25, 0x30, 0x31, 0x32, 0x33, 0x40]

theorem mem_mapOpcodes_iff (op : BitVec 8) :
    op ∈ mapOpcodes ↔ op = 0x01 ∨ op = 0x10 ∨ op = 0x11 ∨ op = 0x20 ∨ op = 0x21 ∨ op = 0x22 ∨ op = 0x23 ∨
      op = 0x24 ∨ op = 0x25 ∨ op = 0x30 ∨ op = 0x31 ∨ op = 0x32 ∨ op = 0x33 ∨ op = 0x40 := by
  simp [mapOpcodes]

/-- Every row fixes the whole opcode byte, to one of the fourteen. -/
theorem opField_of_row {r : OpRow} (h : r ∈ opcodeRows) : opField r.mask = 0xFF ∧ opField r.pattern ∈ mapOpcodes := by
  revert r; decide

theorem opField_eq_of_match {r : OpRow} {w : Word} (h : r ∈ opcodeRows) (hw : w &&& r.mask = r.pattern) :
    opField w = opField r.pattern := by
  rw [← hw, opField_and, (opField_of_row h).1]
  exact BitVec.and_allOnes.symm

/-- The rows of the opcode map with a given opcode: the only ones a word with that opcode can match. -/
def rowsWithOpcode (op : BitVec 8) : List OpRow := opcodeRows.filter (fun r => opField r.pattern = op)

theorem unmatched_iff_rowsWithOpcode (w : Word) :
    (∀ r ∈ opcodeRows, w &&& r.mask ≠ r.pattern) ↔ ∀ r ∈ rowsWithOpcode (opField w), w &&& r.mask ≠ r.pattern := by
  simp only [rowsWithOpcode, List.mem_filter, decide_eq_true_eq]
  exact ⟨fun h r ⟨hr, _⟩ => h r hr, fun h r hr hw => h r ⟨hr, (opField_eq_of_match hr hw).symm⟩ hw⟩

/-! ## The seven cases of R56 -/

/-- The seven cases of R56, of the fields of a word. -/
def InvalidCase (w : Word) : Prop :=
  opField w ∉ mapOpcodes ∨
  (opField w = 0x01 ∧ z24Field w ≠ 0) ∨
  (opField w = 0x11 ∧ (rbField w ≠ 0 ∨ z12Field w ≠ 0)) ∨
  ((opField w = 0x20 ∨ opField w = 0x22) ∧ z12Field w ≠ 0) ∨
  (opField w = 0x24 ∧ (raField w ≠ 0 ∨ z12Field w ≠ 0)) ∨
  (opField w = 0x25 ∧ raField w ≠ 0) ∨
  (opField w = 0x40 ∧ raField w = 15)

/-- The reserved condition 15, told by the fifteen that have a branch row. -/
theorem eq_reserved_iff (k : BitVec 4) :
    k = 15 ↔ k ≠ 0 ∧ k ≠ 1 ∧ k ≠ 2 ∧ k ≠ 3 ∧ k ≠ 4 ∧ k ≠ 5 ∧ k ≠ 6 ∧ k ≠ 7 ∧ k ≠ 8 ∧ k ≠ 9 ∧ k ≠ 10 ∧ k ≠ 11 ∧
      k ≠ 12 ∧ k ≠ 13 ∧ k ≠ 14 := by
  revert k; decide

theorem decode_of_opField_not_mem {w : Word} (h : opField w ∉ mapOpcodes) : decode w = none := by
  unfold decode
  split <;> simp_all [mapOpcodes, BitVec.toNat_eq]

/-- The decoder tests, opcode by opcode, exactly the fields of the seven cases. -/
theorem decode_eq_none_iff_invalidCase (w : Word) : decode w = none ↔ InvalidCase w := by
  by_cases hmem : opField w ∈ mapOpcodes
  · rcases (mem_mapOpcodes_iff _).1 hmem with h | h | h | h | h | h | h | h | h | h | h | h | h | h <;>
      simp [decode, InvalidCase, mapOpcodes, h, ofCode_none_iff, imp_iff_not_or]
  · exact iff_of_true (decode_of_opField_not_mem hmem) (.inl hmem)

/-- Opcode by opcode, the masks of the rows cover exactly the fields of the seven cases. -/
theorem unmatched_iff_invalidCase (w : Word) :
    (∀ r ∈ opcodeRows, w &&& r.mask ≠ r.pattern) ↔ InvalidCase w := by
  by_cases hmem : opField w ∈ mapOpcodes
  · have and_ones4 (x : BitVec 4) : x &&& 15#4 = x := BitVec.and_allOnes
    have and_ones12 (x : BitVec 12) : x &&& 4095#12 = x := BitVec.and_allOnes
    have reserved := eq_reserved_iff (raField w)
    rw [unmatched_iff_rowsWithOpcode]
    rcases (mem_mapOpcodes_iff _).1 hmem with h | h | h | h | h | h | h | h | h | h | h | h | h | h
    all_goals
      simp only [InvalidCase, h, ne_eq, z24Field_eq_zero_iff, reserved]
      unfold opField at h
      simp [h, rowsWithOpcode, opcodeRows, mapOpcodes, and_mask_eq_iff_fields, opField, raField, rbField, rcField,
        z12Field, and_ones4, and_ones12, not_and_or, -not_and]
  · exact iff_of_true (fun r hr hw => hmem (opField_eq_of_match hr hw ▸ (opField_of_row hr).2)) (.inl hmem)

end Sys2Proof

namespace Sys2Proof.Machine
open Sys2Proof.Claims

/-! ## The step that fetches an invalid word (R71, R143) -/

theorem step_decodeInvalid {s : State} (hs : s.runState.canStep = true) (hl : loadedAtPc s)
    (hd : decode (s.mem.wordAt s.pc.toNat) = none) :
    step s = .next (faultedWith (.decodeInvalid s.pc (s.mem.wordAt s.pc.toNat)) s) := by
  have hdecode : fetchDecode s = .error (.decodeInvalid s.pc (s.mem.wordAt s.pc.toNat)) := by
    simp only [fetchDecode, fetch_of_loaded hl, hd]
  rcases step_cases s hs with ⟨r, hr, hx⟩ | ⟨i, hi, _⟩
  · cases hdecode.symm.trans hr
    exact hx
  · cases hdecode.symm.trans hi

/-- Settles O3: the decoder and the opcode map both refuse exactly the seven cases of R56. -/
theorem invalidWordsAreExactlyTheUnmatched : Obligations.InvalidWordsAreExactlyTheUnmatched := by
  refine ⟨fun w => ?_, decode_eq_none_iff_invalidCase, ?_, by decide, by decide⟩
  · exact (decode_eq_none_iff_invalidCase w).trans (unmatched_iff_invalidCase w).symm
  · rintro s w hs hl rfl hd
    exact step_decodeInvalid ((canStep_iff _).2 hs) hl hd

end Sys2Proof.Machine
end

section
/-! SUPPORT. Where a step is admitted and in which run state it ends (spec/40_step_cycle.md R70, R75). -/

namespace Sys2Proof.Machine
open Sys2Proof.Claims

/-! ## What a step does, by what stands at `pc` (R71) -/

theorem step_of_decoded {s : State} {i : Instr} (hs : s.runState.canStep = true) (hl : loadedAtPc s)
    (hd : decode (s.mem.wordAt s.pc.toNat) = some i) : step s = exec i s := by
  have hdecode : fetchDecode s = .ok i := by simp only [fetchDecode, fetch_of_loaded hl, hd]
  rcases step_cases s hs with ⟨r, hr, _⟩ | ⟨j, hj, hx⟩
  · cases hdecode.symm.trans hr
  · cases hdecode.symm.trans hj
    exact hx

/-- The three ways of an admitted step, said by the word at `pc`: no loaded word, an invalid word, an instruction. -/
theorem step_cases_loaded {s : State} (hs : s.runState.canStep = true) :
    (¬loadedAtPc s ∧ step s = .next (faultedWith (.decodeAbsent s.pc) s)) ∨
    (loadedAtPc s ∧ decode (s.mem.wordAt s.pc.toNat) = none ∧
      step s = .next (faultedWith (.decodeInvalid s.pc (s.mem.wordAt s.pc.toNat)) s)) ∨
    ∃ i, loadedAtPc s ∧ decode (s.mem.wordAt s.pc.toNat) = some i ∧ step s = exec i s := by
  by_cases hl : loadedAtPc s
  · cases hd : decode (s.mem.wordAt s.pc.toNat) with
    | none => exact .inr (.inl ⟨hl, rfl, step_decodeInvalid hs hl hd⟩)
    | some i => exact .inr (.inr ⟨i, hl, rfl, step_of_decoded hs hl hd⟩)
  · exact .inl ⟨hl, step_decodeAbsent hs hl⟩

/-! ## The admission of a step (R70) -/

theorem canStep_eq_false {s : State} (h : ¬canStep s) : s.runState.canStep = false :=
  Bool.eq_false_iff.2 (mt (canStep_iff s.runState).1 h)

theorem perform_step_refused {s : State} {r : Refusal} (h : step s = .refused r) :
    perform .step s = (s, .refused r) := by
  simp only [perform, performStep, h]

theorem step_answers {s : State} (h : canStep s) : ∃ t, step s = .next t := by
  rcases step_cases s ((canStep_iff _).2 h) with ⟨_, _, hx⟩ | ⟨i, _, hx⟩
  · exact ⟨_, hx⟩
  · obtain ⟨t, ht, _⟩ := exec_runState i s
    exact ⟨t, hx.trans ht⟩

/-- Settles O30: the refusal outside `Ready` and `Running`, and the answer inside them. -/
theorem stepAdmittedInReadyAndRunning : Obligations.StepAdmittedInReadyAndRunning := by
  intro s
  refine ⟨fun h => ?_, step_answers⟩
  have hrefused : step s = .refused .notReady := step_refused s (canStep_eq_false h)
  exact ⟨hrefused, perform_step_refused hrefused⟩

/-! ## The run state after a step (R75) -/

theorem execRunState_hlt (s : State) : execRunState .hlt s = .halted := rfl

theorem execRunState_of_ne_hlt {i : Instr} (s : State) (h : i ≠ .hlt) :
    execRunState i s = .running ∨ execRunState i s = .faulted := by
  cases ha : access i s with
  | none => exact .inl (by simp [execRunState, ha, h])
  | some a =>
    cases hadm : admission a.1 4 with
    | none => exact .inl (by simp [execRunState, ha, hadm])
    | some c => exact .inr (by simp [execRunState, ha, hadm])

theorem exec_next_runState {i : Instr} {s t : State} (h : exec i s = .next t) : t.runState = execRunState i s := by
  obtain ⟨u, hu, hrun⟩ := exec_runState i s
  cases hu.symm.trans h
  exact hrun

/-- Settles O32, along the three ways of an admitted step: the two decode faults, and the instruction, which is the halt or
not. -/
theorem runStateAfterStep : Obligations.RunStateAfterStep := by
  intro s t h
  rcases step_cases_loaded (canStep_of_step_next s h) with ⟨hl, hx⟩ | ⟨_, hd, hx⟩ | ⟨i, hl, hd, hx⟩
  · cases hx.symm.trans h
    exact .inr (.inr ⟨rfl, fun hl' => absurd hl' hl⟩)
  · cases hx.symm.trans h
    exact .inr (.inr ⟨rfl, fun _ => by simp [hd]⟩)
  · have hrun : t.runState = execRunState i s := exec_next_runState (hx.symm.trans h)
    by_cases hi : i = .hlt
    · subst hi
      exact .inl ⟨hrun.trans (execRunState_hlt s), hl, hd⟩
    · rcases execRunState_of_ne_hlt s hi with hr | hr
      · exact .inr (.inl ⟨hrun.trans hr, hl, i, hi, hd⟩)
      · exact .inr (.inr ⟨hrun.trans hr, fun _ hhlt => hi (Option.some.inj (hd.symm.trans hhlt))⟩)

end Sys2Proof.Machine
end

section
/-! SUPPORT. The move instructions: their words, the committed register write they share with the loads, and the
must-be-zero fields of the register form (spec/41_move.md R85, R86). -/

namespace Sys2Proof.Machine
open Sys2Proof.Claims

/-! ## A committed register write (R12, R73, R76) -/

theorem storesNothing_commit {e : Effect} (s : State) (h : e.store = none) : storesNothing s (commit e s) :=
  ⟨fun _ => byteAt_congr (by rw [commit_mem, memAfter_none e s h]), eventsAfter_none e s h⟩

/-- A sequential effect of one register alone is the register write of `MOV` and `LDR`. -/
theorem writesReg_commit (d : RegNum) (v : Word) (s : State) :
    writesReg d v s (commit { reg := some (d, v), nextPc := seqPc s } s) := by
  refine ⟨getReg_commit_same _ s rfl, fun q hq => getReg_commit_other _ s rfl hq, ?flags, ?pc,
    storesNothing_commit s rfl, ?control, ?runState, ?record⟩
  case flags => rfl
  case pc => rfl
  case control => exact ⟨rfl, rfl⟩
  case runState => rfl
  case record => rfl

/-! ## `MOV Rd, #imm20` (R85) -/

theorem encode_movImm (d : RegNum) (imm : Imm20) :
    encode (.movImm d imm) = (0x10000000 : Word) ||| d.setWidth 32 <<< 20 ||| imm.setWidth 32 := rfl

theorem exec_movImm (d : RegNum) (imm : Imm20) (s : State) :
    exec (.movImm d imm) s = .next (commit { reg := some (d, zext20 imm), nextPc := seqPc s } s) := rfl

theorem toNat_zext20_le (imm : Imm20) : (zext20 imm).toNat ≤ 0xFFFFF := by
  have hlt : imm.toNat < 2 ^ 20 := imm.isLt
  rw [zext20, BitVec.toNat_setWidth_of_le (by decide)]
  omega

/-- Settles O9: the word, the register write of the zero-extended immediate, and its bound. -/
theorem movImmediateWritesConstant : Obligations.MovImmediateWritesConstant := by
  intro d imm s
  refine ⟨encode_movImm d imm, _, exec_movImm d imm s, writesReg_commit d (zext20 imm) s, ?bound⟩
  case bound =>
    rw [getReg_commit_same _ s rfl]
    exact toNat_zext20_le imm

/-! ## `MOV Rd, Rm` (R86) -/

theorem encode_movReg (d m : RegNum) :
    encode (.movReg d m) = (0x11000000 : Word) ||| d.setWidth 32 <<< 20 ||| m.setWidth 32 <<< 12 := by
  have hzero : (0 : BitVec 4).setWidth 32 <<< 16 = 0#32 := rfl
  rw [encode, packR, hzero, BitVec.or_zero]
  rfl

theorem exec_movReg (d m : RegNum) (s : State) :
    exec (.movReg d m) s = .next (commit { reg := some (d, getReg s m), nextPc := seqPc s } s) := rfl

/-- The third of the seven cases of R56. -/
theorem decode_movReg_reserved {w : Word} (hop : opField w = 0x11) (hz : rbField w ≠ 0 ∨ z12Field w ≠ 0) :
    decode w = none :=
  (decode_eq_none_iff_invalidCase w).2 (.inr (.inr (.inl ⟨hop, hz⟩)))

/-- Settles O10: the word, the register write of the old `Rm`, and the must-be-zero fields. -/
theorem movRegisterCopies : Obligations.MovRegisterCopies :=
  ⟨fun d m s => ⟨encode_movReg d m, _, exec_movReg d m s, writesReg_commit d (getReg s m) s⟩,
    fun _ => decode_movReg_reserved⟩

end Sys2Proof.Machine
end

section
/-! SUPPORT. The ALU in closed form, with its corner values (spec/42_arithmetic.md R90), and the six instructions that
commit what it answers (R91 to R96). -/

namespace Sys2Proof.Machine
open Sys2Proof.Claims

/-! ## Words as signed numbers -/

/-- Bit 31 is the sign. -/
theorem getLsbD_31_iff (a : Word) : a.getLsbD 31 = true ↔ a.toInt < 0 := by
  rw [show a.getLsbD 31 = a.msb from a.msb_eq_getLsbD_last.symm, BitVec.msb_eq_toInt, decide_eq_true_iff]

theorem getLsbD_31_eq_iff (a b : Word) : a.getLsbD 31 = b.getLsbD 31 ↔ (a.toInt < 0 ↔ b.toInt < 0) := by
  rw [Bool.eq_iff_iff, getLsbD_31_iff, getLsbD_31_iff]

theorem toInt_bounds (a : Word) : -2 ^ 31 ≤ a.toInt ∧ a.toInt ≤ 2 ^ 31 - 1 :=
  ⟨a.le_toInt, Int.le_sub_one_of_lt a.toInt_lt⟩

/-- The complement reflects the signed range. -/
theorem toInt_complement (b : Word) : (~~~b).toInt = -b.toInt - 1 := by
  have hlt : b.toNat < 2 ^ 32 := b.isLt
  rw [BitVec.toInt_eq_toNat_cond, BitVec.toInt_eq_toNat_cond, BitVec.toNat_not]
  omega

/-! ## `AddWithCarry` (R90) -/

section AddWithCarry
variable (a b : Word) (cin : Bool)

theorem toNat_addWithCarry : (addWithCarry a b cin).1.toNat = (a.toNat + b.toNat + cin.toNat) % 2 ^ 32 :=
  BitVec.toNat_ofNat ..

theorem addWithCarry_n : (addWithCarry a b cin).2.n = (addWithCarry a b cin).1.getLsbD 31 :=
  BitVec.msb_eq_getLsbD_last (addWithCarry a b cin).1

theorem addWithCarry_z_iff : (addWithCarry a b cin).2.z = true ↔ (addWithCarry a b cin).1 = 0 := decide_eq_true_iff

theorem addWithCarry_c_iff : (addWithCarry a b cin).2.c = true ↔ 2 ^ 32 ≤ a.toNat + b.toNat + cin.toNat :=
  decide_eq_true_iff

theorem addWithCarry_v_iff :
    (addWithCarry a b cin).2.v = true ↔
      a.toInt + b.toInt + cin.toNat < -2 ^ 31 ∨ 2 ^ 31 - 1 < a.toInt + b.toInt + cin.toNat := decide_eq_true_iff

/-- The result is the signed sum too, up to a multiple of 2^32. -/
theorem toInt_addWithCarry :
    (addWithCarry a b cin).1.toInt = (a.toInt + b.toInt + cin.toNat).bmod (2 ^ 32) := by
  have hresult : (addWithCarry a b cin).1 = a + b + BitVec.ofNat 32 cin.toNat := by
    simp [addWithCarry, BitVec.ofNat_add]
  have hcin : (BitVec.ofNat 32 cin.toNat).toInt = cin.toNat := by cases cin <;> rfl
  rw [hresult, BitVec.toInt_add, BitVec.toInt_add, hcin, Int.bmod_add_bmod]

/-- Two operands of one sign, and a result of the other: the only way to leave the signed range. -/
theorem addWithCarry_v_iff_signs :
    (addWithCarry a b cin).2.v = true ↔
      a.getLsbD 31 = b.getLsbD 31 ∧ (addWithCarry a b cin).1.getLsbD 31 ≠ a.getLsbD 31 := by
  have ha := toInt_bounds a
  have hb := toInt_bounds b
  have hcin : cin.toNat ≤ 1 := cin.toNat_le
  rw [addWithCarry_v_iff, ne_eq, getLsbD_31_eq_iff, getLsbD_31_eq_iff, toInt_addWithCarry, Int.bmod_def]
  omega

end AddWithCarry

/-! ## Subtraction (R90, D7) -/

section Subtraction
variable (a b : Word)

theorem aluSub_result : (aluSub a b).1 = a - b := by
  have hb : b.toNat < 2 ^ 32 := b.isLt
  apply BitVec.eq_of_toNat_eq
  rw [aluSub, toNat_addWithCarry, BitVec.toNat_not, BitVec.toNat_sub, Bool.toNat_true]
  omega

theorem aluSub_c_iff : (aluSub a b).2.c = true ↔ b.toNat ≤ a.toNat := by
  have hb : b.toNat < 2 ^ 32 := b.isLt
  rw [aluSub, addWithCarry_c_iff, BitVec.toNat_not, Bool.toNat_true]
  omega

theorem aluSub_v_iff :
    (aluSub a b).2.v = true ↔ a.toInt - b.toInt < -2 ^ 31 ∨ 2 ^ 31 - 1 < a.toInt - b.toInt := by
  have hsum : a.toInt + (~~~b).toInt + (true.toNat : Int) = a.toInt - b.toInt := by
    rw [toInt_complement, Bool.toNat_true]
    omega
  rw [aluSub, addWithCarry_v_iff, hsum]

/-- The sign-bit form of the addition, with the sign of `NOT b` opposite to that of `b`. -/
theorem aluSub_v_iff_signs :
    (aluSub a b).2.v = true ↔ a.getLsbD 31 ≠ b.getLsbD 31 ∧ (aluSub a b).1.getLsbD 31 ≠ a.getLsbD 31 := by
  have hnot : a.getLsbD 31 = (~~~b).getLsbD 31 ↔ a.getLsbD 31 ≠ b.getLsbD 31 := by
    rw [BitVec.getLsbD_not]
    exact Bool.eq_not
  rw [aluSub, addWithCarry_v_iff_signs, hnot]

end Subtraction

/-- Settles O6: the result, the four flags and both forms of `V`, of the addition and of the subtraction. -/
theorem addWithCarryAndSubtraction : Obligations.AddWithCarryAndSubtraction :=
  ⟨fun a b cin => ⟨toNat_addWithCarry a b cin, addWithCarry_n a b cin, addWithCarry_z_iff a b cin,
      addWithCarry_c_iff a b cin, addWithCarry_v_iff a b cin, addWithCarry_v_iff_signs a b cin⟩,
    fun _ _ => rfl,
    fun a b => ⟨rfl, aluSub_result a b, aluSub_c_iff a b, aluSub_v_iff a b, aluSub_v_iff_signs a b⟩⟩

/-! ## The corner values of R92 to R96 -/

/-- `N` and `Z` are read off the result, so the result, `C` and `V` are all there is to an answer of the ALU. -/
theorem addWithCarry_eq {a b r : Word} {cin c v : Bool} (hr : (addWithCarry a b cin).1 = r)
    (hc : (addWithCarry a b cin).2.c = c) (hv : (addWithCarry a b cin).2.v = v) :
    addWithCarry a b cin = (r, ⟨r.getLsbD 31, decide (r = 0), c, v⟩) := by
  subst hr hc hv
  rw [← addWithCarry_n]
  rfl

@[simp] theorem zext16_zero : zext16 0 = 0 := rfl

section Corners
variable (a : Word)

/-- Adding zero copies the operand, and neither sum leaves its range. -/
theorem aluAdd_zero : aluAdd a 0 = (a, ⟨a.getLsbD 31, decide (a = 0), false, false⟩) := by
  refine addWithCarry_eq ?result ?c ?v
  case result =>
    apply BitVec.eq_of_toNat_eq
    rw [toNat_addWithCarry]
    exact Nat.mod_eq_of_lt a.isLt
  case c =>
    rw [← Bool.not_eq_true, addWithCarry_c_iff]
    exact not_le.2 a.isLt
  case v =>
    have ha := toInt_bounds a
    have hsum : a.toInt + (0 : Word).toInt + (false.toNat : Int) = a.toInt := by simp
    rw [← Bool.not_eq_true, addWithCarry_v_iff, hsum]
    omega

/-- Subtracting zero copies the operand, and never borrows. -/
theorem aluSub_zero : aluSub a 0 = (a, ⟨a.getLsbD 31, decide (a = 0), true, false⟩) := by
  refine addWithCarry_eq ?result ?c ?v
  case result => exact (aluSub_result a 0).trans (BitVec.sub_zero a)
  case c => exact (aluSub_c_iff a 0).2 (Nat.zero_le _)
  case v =>
    have ha := toInt_bounds a
    have hdiff : a.toInt - (0 : Word).toInt = a.toInt := Int.sub_zero _
    refine Bool.eq_false_iff.2 (mt (aluSub_v_iff a 0).1 ?_)
    rw [hdiff]
    omega

/-- A word minus itself is zero, whatever the word. -/
theorem aluSub_self : aluSub a a = (0, ⟨false, true, true, false⟩) := by
  refine addWithCarry_eq (r := 0) ?result ?c ?v
  case result => exact (aluSub_result a a).trans (BitVec.sub_self a)
  case c => exact (aluSub_c_iff a a).2 le_rfl
  case v =>
    refine Bool.eq_false_iff.2 (mt (aluSub_v_iff a a).1 ?_)
    rw [Int.sub_self]
    decide

end Corners

/-! ## What `ADD`, `SUB` and `CMP` commit (R12, R17, R76) -/

theorem writesRegAndFlags_writeAlu (d : RegNum) (r : Word × Flags) (s : State) :
    writesRegAndFlags d r s (writeAlu d r s) := by
  rw [writeAlu_eq]
  refine ⟨getReg_commit_same _ s rfl, fun q hq => getReg_commit_other _ s rfl hq, ?flags, ?pc,
    storesNothing_commit s rfl, ?control, ?runState, ?record⟩
  case flags => rfl
  case pc => rfl
  case control => exact ⟨rfl, rfl⟩
  case runState => rfl
  case record => rfl

theorem writesFlags_writeFlags (r : Word × Flags) (s : State) : writesFlags r.2 s (writeFlags r s) := by
  rw [writeFlags_eq]
  refine ⟨getReg_commit_none _ s rfl, ?flags, ?pc, storesNothing_commit s rfl, ?control, ?runState, ?record⟩
  case flags => rfl
  case pc => rfl
  case control => exact ⟨rfl, rfl⟩
  case runState => rfl
  case record => rfl

@[simp] theorem getReg_writeAlu (d : RegNum) (r : Word × Flags) (s : State) : getReg (writeAlu d r s) d = r.1 :=
  getReg_commit_same _ s rfl

@[simp] theorem writeAlu_flags (d : RegNum) (r : Word × Flags) (s : State) : (writeAlu d r s).flags = r.2 := rfl

@[simp] theorem writeFlags_flags (r : Word × Flags) (s : State) : (writeFlags r s).flags = r.2 := rfl

/-! ## The words of `ADD`, `SUB` and `CMP` (R54, R56) -/

/-- `CMP` leaves the field of `Rd` zero. -/
theorem packR_zero_ra (op : BitVec 8) (b c : BitVec 4) :
    packR op 0 b c = op.setWidth 32 <<< 24 ||| b.setWidth 32 <<< 16 ||| c.setWidth 32 <<< 12 := by
  have hzero : (0 : BitVec 4).setWidth 32 <<< 20 = 0#32 := rfl
  rw [packR, hzero, BitVec.or_zero]

theorem packI_zero_ra (op : BitVec 8) (b : BitVec 4) (imm : Imm16) :
    packI op 0 b imm = op.setWidth 32 <<< 24 ||| b.setWidth 32 <<< 16 ||| imm.setWidth 32 := by
  have hzero : (0 : BitVec 4).setWidth 32 <<< 20 = 0#32 := rfl
  rw [packI, hzero, BitVec.or_zero]

/-- The fourth of the seven cases of R56. -/
theorem decode_aluReg_reserved {w : Word} (hop : opField w = 0x20 ∨ opField w = 0x22) (hz : z12Field w ≠ 0) :
    decode w = none :=
  (decode_eq_none_iff_invalidCase w).2 (.inr (.inr (.inr (.inl ⟨hop, hz⟩))))

/-- The fifth of the seven cases of R56. -/
theorem decode_cmpReg_reserved {w : Word} (hop : opField w = 0x24) (hz : raField w ≠ 0 ∨ z12Field w ≠ 0) :
    decode w = none :=
  (decode_eq_none_iff_invalidCase w).2 (.inr (.inr (.inr (.inr (.inl ⟨hop, hz⟩)))))

/-- The sixth of the seven cases of R56. -/
theorem decode_cmpImm_reserved {w : Word} (hop : opField w = 0x25) (hz : raField w ≠ 0) : decode w = none :=
  (decode_eq_none_iff_invalidCase w).2 (.inr (.inr (.inr (.inr (.inr (.inl ⟨hop, hz⟩))))))

/-! ## `ADD` (R91, R92) -/

theorem exec_addReg (d n m : RegNum) (s : State) :
    exec (.addReg d n m) s = .next (writeAlu d (aluAdd (getReg s n) (getReg s m)) s) := rfl

theorem exec_addImm (d n : RegNum) (imm : Imm16) (s : State) :
    exec (.addImm d n imm) s = .next (writeAlu d (aluAdd (getReg s n) (zext16 imm)) s) := rfl

/-- Settles O11: the word, the committed sum, and the must-be-zero field. -/
theorem addRegisterResult : Obligations.AddRegisterResult := by
  refine ⟨fun d n m s => ⟨?word, _, exec_addReg d n m s, writesRegAndFlags_writeAlu d _ s⟩, ?reserved⟩
  case word => rfl
  case reserved => exact fun w hop hz => decode_aluReg_reserved (.inl hop) hz

/-- Settles O12: the word, the committed sum, and the copy that adding zero is. -/
theorem addImmediateResult : Obligations.AddImmediateResult := by
  refine fun d n imm s => ⟨?word, _, exec_addImm d n imm s, writesRegAndFlags_writeAlu d _ s, ?copies⟩
  case word => rfl
  case copies =>
    rintro rfl
    rw [getReg_writeAlu, writeAlu_flags, zext16_zero, aluAdd_zero]
    exact ⟨rfl, rfl⟩

/-! ## `SUB` (R93, R94) -/

theorem exec_subReg (d n m : RegNum) (s : State) :
    exec (.subReg d n m) s = .next (writeAlu d (aluSub (getReg s n) (getReg s m)) s) := rfl

theorem exec_subImm (d n : RegNum) (imm : Imm16) (s : State) :
    exec (.subImm d n imm) s = .next (writeAlu d (aluSub (getReg s n) (zext16 imm)) s) := rfl

/-- Settles O13: the word, the committed difference, a register minus itself, and the must-be-zero field. -/
theorem subRegisterResult : Obligations.SubRegisterResult := by
  refine ⟨fun d n m s => ⟨?word, _, exec_subReg d n m s, writesRegAndFlags_writeAlu d _ s, ?self⟩, ?reserved⟩
  case word => rfl
  case self =>
    rintro rfl
    rw [getReg_writeAlu, writeAlu_flags, aluSub_self]
    exact ⟨rfl, rfl⟩
  case reserved => exact fun w hop hz => decode_aluReg_reserved (.inr hop) hz

/-- Settles O14: the word, the committed difference, and the copy that subtracting zero is. -/
theorem subImmediateResult : Obligations.SubImmediateResult := by
  refine fun d n imm s => ⟨?word, _, exec_subImm d n imm s, writesRegAndFlags_writeAlu d _ s, ?copies⟩
  case word => rfl
  case copies =>
    rintro rfl
    rw [getReg_writeAlu, writeAlu_flags, zext16_zero, aluSub_zero]
    exact ⟨rfl, rfl, rfl⟩

/-! ## `CMP` (R95, R96) -/

theorem exec_cmpReg (n m : RegNum) (s : State) :
    exec (.cmpReg n m) s = .next (writeFlags (aluSub (getReg s n) (getReg s m)) s) := rfl

theorem exec_cmpImm (n : RegNum) (imm : Imm16) (s : State) :
    exec (.cmpImm n imm) s = .next (writeFlags (aluSub (getReg s n) (zext16 imm)) s) := rfl

/-- Settles O15: the word, the committed flags, a register against itself, and the must-be-zero fields. -/
theorem compareRegistersResult : Obligations.CompareRegistersResult := by
  refine ⟨fun n m s => ⟨packR_zero_ra 0x24 n m, _, exec_cmpReg n m s, writesFlags_writeFlags _ s, ?self⟩,
    fun _ => decode_cmpReg_reserved⟩
  case self =>
    rintro rfl
    rw [writeFlags_flags, aluSub_self]

/-- Settles O16: the word, the committed flags, the comparison with zero, and the must-be-zero field. -/
theorem compareImmediateResult : Obligations.CompareImmediateResult := by
  refine ⟨fun n imm s => ⟨packI_zero_ra 0x25 n imm, _, exec_cmpImm n imm s, writesFlags_writeFlags _ s, ?zero⟩,
    fun _ => decode_cmpImm_reserved⟩
  case zero =>
    rintro rfl
    rw [writeFlags_flags, zext16_zero, aluSub_zero]

end Sys2Proof.Machine
end

section
/-! SUPPORT. The load and store instructions: what an admitted access commits, and the `MemoryFault` of every other address
(spec/43_load_store.md R106 to R109). -/

namespace Sys2Proof.Machine
open Sys2Proof.Claims

/-! ## The `MemoryFault` of a data access (R33, R145) -/

theorem admission_outOfRange_iff_not_wordAddress {ea : Word} (haligned : ea.toNat % 4 = 0) :
    admission ea 4 = some .outOfRange ↔ ¬wordAddress ea.toNat := by
  rw [admit_outOfRange_iff, ← admission_none_iff_wordAddress, admit_none_iff, Option.isSome_iff_ne_none]
  simp [haligned]

theorem exec_of_access_refused {i : Instr} {ea : Word} {isStore : Bool} {s : State} {c : MemCause}
    (h : access i s = some (ea, isStore)) (hc : admission ea 4 = some c) :
    exec i s = .next (memoryFault i c ea isStore s) := by
  rcases accessOutcome_of_access h with ⟨hadmitted, _⟩ | ⟨c', hc', hx⟩
  · cases hadmitted.symm.trans hc
  · cases hc'.symm.trans hc
    exact hx

/-- Every instruction with a data access faults as R33 says, alignment first, and the fault entry changes nothing else. -/
theorem faultsOutside_of_access {i : Instr} {ea : Word} {isStore : Bool} {s : State}
    (h : access i s = some (ea, isStore)) : faultsOutside i ea isStore s :=
  ⟨fun hmisaligned => exec_of_access_refused h ((admit_misaligned_iff ea 4).2 hmisaligned),
    fun haligned hout => exec_of_access_refused h ((admission_outOfRange_iff_not_wordAddress haligned).2 hout)⟩

/-! ## `LDR` (R106, R107) -/

theorem exec_eq_load_of_loadOf {i : Instr} {s : State} {rt : RegNum} {ea : Word} (h : loadOf i s = some (rt, ea)) :
    exec i s = .next (load i rt ea s) := by
  cases i with
  | ldrAbs t abs => cases h; rfl
  | ldrOff t n off => cases h; rfl
  | _ => cases h

/-- The two forms of `LDR` at an admitted address commit the word that stands there. -/
theorem exec_of_loadOf_admitted {i : Instr} {s : State} {rt : RegNum} {ea : Word} (h : loadOf i s = some (rt, ea))
    (hw : wordAddress ea.toNat) :
    exec i s = .next (commit { reg := some (rt, s.mem.wordAt ea.toNat), nextPc := seqPc s } s) := by
  have hadmitted := (admission_none_iff_wordAddress ea).2 hw
  rcases load_cases s i rt ea with ⟨_, hl⟩ | ⟨c, hc, _⟩
  · exact (exec_eq_load_of_loadOf h).trans (congrArg _ hl)
  · cases hadmitted.symm.trans hc

theorem loadsWord_of_loadOf {i : Instr} {s : State} {rt : RegNum} {ea : Word} (h : loadOf i s = some (rt, ea))
    (hw : wordAddress ea.toNat) :
    ∃ t v, exec i s = .next t ∧ holdsWord s ea.toNat v ∧ writesReg rt v s t :=
  ⟨_, _, exec_of_loadOf_admitted h hw, holdsWord_wordAt ((regionOf_isSome_iff _ _).2 hw.2), writesReg_commit _ _ s⟩

/-- Settles O18: the word, the admitted load, and the faults. -/
theorem loadAbsoluteResult : Obligations.LoadAbsoluteResult := by
  refine fun rt abs s => ⟨?word, loadsWord_of_loadOf ?loads, faultsOutside_of_access ?accesses⟩
  case word => rfl
  case loads => rfl
  case accesses => rfl

/-- Settles O19: the word, the admitted load at the old base plus the offset, and the faults. -/
theorem loadOffsetResult : Obligations.LoadOffsetResult := by
  refine fun rt n off s => ⟨?word, loadsWord_of_loadOf ?loads, faultsOutside_of_access ?accesses⟩
  case word => rfl
  case loads => rfl
  case accesses => rfl

/-! ## `STR` (R108, R109) -/

theorem exec_of_storeOf_admitted {i : Instr} {s : State} {ea v : Word} (h : storeOf i s = some (ea, v))
    (hw : wordAddress ea.toNat) :
    exec i s = .next (commit { store := some (ea, v), nextPc := seqPc s } s) := by
  have hadmitted := (admission_none_iff_wordAddress ea).2 hw
  rcases exec_of_storeOf h with ⟨_, hx⟩ | ⟨c, hc, _⟩
  · exact hx
  · cases hadmitted.symm.trans hc

theorem holdsWord_of_setWord {s t : State} {a : Nat} {v : Word} (hwf : s.mem.wf) (hr : (regionOf a 4).isSome = true)
    (hmem : t.mem = s.mem.setWord a v) : holdsWord t a v := by
  have hstands : holdsWord t a (t.mem.wordAt a) := holdsWord_wordAt hr
  rwa [hmem, wordAt_setWord v hwf hr] at hstands

/-- The four bytes that a store's record keeps are those that stood there (R76). -/
theorem byteAt_eq_readBytes {s : State} {a k : Nat} (hr : (regionOf a 4).isSome = true) (hk : k < 4) :
    byteAt s (a + k) = (s.mem.readBytes a 4)[k]? := by
  rw [byteAt_of_backed (backed_of_region hr (by omega) (by omega)), readBytes_getElem? _ hk]

/-- A sequential effect of one admitted store alone is the store of `STR`. -/
theorem storesWord_commit {ea : Word} (v : Word) {s : State} (hwf : s.mem.wf) (hw : wordAddress ea.toNat) :
    storesWord ea v s (commit { store := some (ea, v), nextPc := seqPc s } s) := by
  have hr : (regionOf ea.toNat 4).isSome = true := (regionOf_isSome_iff _ _).2 hw.2
  refine ⟨holdsWord_of_setWord hwf hr ?memory, fun x hx => byteAt_congr (byte_setWord_outside v hwf hr hx),
    (commit_storeEvents _ s).trans (eventsAfter_some _ s rfl), getReg_commit_none _ s rfl, ?flags, ?pc, ?control, ?runState,
    s.mem.readBytes ea.toNat 4, readBytes_length _ _ _, fun k => byteAt_eq_readBytes hr, ?record⟩
  case memory => rfl
  case flags => rfl
  case pc => rfl
  case control => exact ⟨rfl, rfl⟩
  case runState => rfl
  case record => rfl

theorem storesWord_of_storeOf {i : Instr} {s : State} {ea v : Word} (hwf : s.mem.wf) (h : storeOf i s = some (ea, v))
    (hw : wordAddress ea.toNat) : ∃ t, exec i s = .next t ∧ storesWord ea v s t :=
  ⟨_, exec_of_storeOf_admitted h hw, storesWord_commit v hwf hw⟩

/-- Settles O20: the word, the admitted store, and the faults. -/
theorem storeAbsoluteResult : Obligations.StoreAbsoluteResult := by
  refine fun rt abs s hwf => ⟨?word, storesWord_of_storeOf hwf ?stores, faultsOutside_of_access ?accesses⟩
  case word => rfl
  case stores => rfl
  case accesses => rfl

/-- Settles O21: the word, the admitted store of the old `Rt` at the old base plus the offset, and the faults. -/
theorem storeOffsetResult : Obligations.StoreOffsetResult := by
  refine fun rt n off s hwf => ⟨?word, storesWord_of_storeOf hwf ?stores, faultsOutside_of_access ?accesses⟩
  case word => rfl
  case stores => rfl
  case accesses => rfl

end Sys2Proof.Machine
end

section
/-! SUPPORT. The branches: the conditions read off the flags, and the one effect that all fifteen commit
(spec/44_branch.md R115 to R130). -/

namespace Sys2Proof.Machine
open Sys2Proof.Claims

/-! ## The conditions over the flags (R115) -/

section Conditions
variable (f : Flags)

theorem condHolds_eq_iff : condHolds .eq f = true ↔ f.z = true := Iff.rfl

theorem condHolds_ne_iff : condHolds .ne f = true ↔ f.z = false := by simp [condHolds]

theorem condHolds_cs_iff : condHolds .cs f = true ↔ f.c = true := Iff.rfl

theorem condHolds_cc_iff : condHolds .cc f = true ↔ f.c = false := by simp [condHolds]

theorem condHolds_mi_iff : condHolds .mi f = true ↔ f.n = true := Iff.rfl

theorem condHolds_pl_iff : condHolds .pl f = true ↔ f.n = false := by simp [condHolds]

theorem condHolds_vs_iff : condHolds .vs f = true ↔ f.v = true := Iff.rfl

theorem condHolds_vc_iff : condHolds .vc f = true ↔ f.v = false := by simp [condHolds]

theorem condHolds_hi_iff : condHolds .hi f = true ↔ f.c = true ∧ f.z = false := by simp [condHolds]

theorem condHolds_ls_iff : condHolds .ls f = true ↔ f.c = false ∨ f.z = true := by simp [condHolds]

theorem condHolds_ge_iff : condHolds .ge f = true ↔ f.n = f.v := beq_iff_eq

theorem condHolds_lt_iff : condHolds .lt f = true ↔ f.n ≠ f.v := bne_iff_ne

theorem condHolds_gt_iff : condHolds .gt f = true ↔ f.z = false ∧ f.n = f.v := by simp [condHolds]

theorem condHolds_le_iff : condHolds .le f = true ↔ f.z = true ∨ f.n ≠ f.v := by simp [condHolds]

theorem condHolds_al_iff : condHolds .al f = true ↔ True := iff_true_intro rfl

end Conditions

/-! ## What a branch commits (R63, R76, R116 to R130) -/

theorem encodeBranch_eq (c : Cond) (target : Imm20) :
    encodeBranch c target = (0x40000000 : Word) ||| c.code.setWidth 32 <<< 20 ||| target.setWidth 32 := rfl

theorem branch_pc_of_holds {c : Cond} {s : State} (target : Imm20) (h : condHolds c s.flags = true) :
    (branch c target s).pc = target.setWidth 32 := if_pos h

theorem branch_pc_of_not_holds {c : Cond} {s : State} (target : Imm20) (h : ¬condHolds c s.flags = true) :
    (branch c target s).pc = s.pc + 4 := if_neg h

/-- The condition decides `pc` alone: the frame and the record are the same whether or not the branch is taken. -/
theorem branchesWhen_branchInstr (c : Cond) (target : Imm20) (s : State) {taken : Prop}
    (h : condHolds c s.flags = true ↔ taken) : branchesWhen (branchInstr c target) c.code target s taken := by
  refine ⟨(encode_branchInstr c target).trans (encodeBranch_eq c target), _, exec_branchInstr s c target,
    fun ht => branch_pc_of_holds target (h.2 ht), fun hn => branch_pc_of_not_holds target (mt h.1 hn), ?_⟩
  rw [branch_eq]
  refine ⟨getReg_commit_none _ s rfl, ?flags, storesNothing_commit s rfl, ?control, ?runState, ?record⟩
  case flags => rfl
  case control => exact ⟨rfl, rfl⟩
  case runState => rfl
  case record => rfl

/-- Settles O25: each of the eight is the branch of its condition, read off one flag. -/
theorem oneFlagBranches : Obligations.OneFlagBranches := fun target s =>
  ⟨branchesWhen_branchInstr .eq target s (condHolds_eq_iff s.flags),
    branchesWhen_branchInstr .ne target s (condHolds_ne_iff s.flags),
    branchesWhen_branchInstr .cs target s (condHolds_cs_iff s.flags),
    branchesWhen_branchInstr .cc target s (condHolds_cc_iff s.flags),
    branchesWhen_branchInstr .mi target s (condHolds_mi_iff s.flags),
    branchesWhen_branchInstr .pl target s (condHolds_pl_iff s.flags),
    branchesWhen_branchInstr .vs target s (condHolds_vs_iff s.flags),
    branchesWhen_branchInstr .vc target s (condHolds_vc_iff s.flags)⟩

/-- Settles O26: each of the seven is the branch of its condition, read off several flags or, for `B`, off none. -/
theorem comparisonBranches : Obligations.ComparisonBranches := fun target s =>
  ⟨branchesWhen_branchInstr .hi target s (condHolds_hi_iff s.flags),
    branchesWhen_branchInstr .ls target s (condHolds_ls_iff s.flags),
    branchesWhen_branchInstr .ge target s (condHolds_ge_iff s.flags),
    branchesWhen_branchInstr .lt target s (condHolds_lt_iff s.flags),
    branchesWhen_branchInstr .gt target s (condHolds_gt_iff s.flags),
    branchesWhen_branchInstr .le target s (condHolds_le_iff s.flags),
    branchesWhen_branchInstr .al target s (condHolds_al_iff s.flags)⟩

end Sys2Proof.Machine
end

section
/-! SUPPORT. The halt: its word, the state it commits, and what a machine in `Halted` still performs
(spec/45_system.md R135). -/

namespace Sys2Proof.Machine
open Sys2Proof.Claims

/-! ## The word of `HLT` (R54, R56) -/

/-- The second of the seven cases of R56. -/
theorem decode_hlt_reserved {w : Word} (hop : opField w = 0x01) (hz : z24Field w ≠ 0) : decode w = none :=
  (decode_eq_none_iff_invalidCase w).2 (.inr (.inl ⟨hop, hz⟩))

/-! ## Undoing a commit that stored nothing (R76, R154) -/

theorem undoRegs_stepRecord (e : Effect) (s : State) : undoRegs (stepRecord e s) (regsAfter e s) = s.regs := by
  cases h : e.reg with
  | none => simp [undoRegs, h, regsAfter_none e s h]
  | some rv => simp [undoRegs, h, regsAfter_some e s h, getReg]

theorem oldFlags_stepRecord_getD (e : Effect) (s : State) :
    (stepRecord e s).oldFlags.getD (e.flags.getD s.flags) = s.flags := by
  cases h : e.flags <;> simp [h]

theorem undoMem_stepRecord_of_no_store {e : Effect} (m : Memory) (s : State) (h : e.store = none) :
    undoMem (stepRecord e s) m = m := by
  simp [undoMem, h]

/-- Only a store leaves something that its record does not take back: the store event. -/
theorem undo_commit_of_no_store {e : Effect} (s : State) (h : e.store = none) :
    undo (stepRecord e s) s.history (commit e s) = s := by
  simp only [undo, commit_regs, commit_flags, commit_mem, commit_faultRecord, commit_codeLen, commit_storeEvents,
    stepRecord_oldPc, stepRecord_oldRunState, undoRegs_stepRecord, oldFlags_stepRecord_getD,
    undoMem_stepRecord_of_no_store _ s h, memAfter_none e s h, eventsAfter_none e s h]

theorem stepBack_commit_of_no_store {e : Effect} (s : State) (h : e.store = none) :
    stepBack (commit e s) = .ok s := by
  have hrun : (commit e s).runState = .running ∨ (commit e s).runState = .halted := by
    cases hh : e.halts <;> simp [runStateAfter, hh]
  exact (stepBack_ok_iff _ s).2 ⟨hrun, _, _, commit_history e s, (undo_commit_of_no_store s h).symm⟩

/-! ## What a machine in `Halted` performs (R157) -/

theorem answer_ok_of_changed {s : State} {reply : State → Reply} {x : Except Refusal State}
    (h : (answer s reply x).1 ≠ s) : ∃ t, x = .ok t := by
  cases x with
  | ok t => exact ⟨t, rfl⟩
  | error r => exact absurd rfl h

theorem canStep_of_halted {s : State} (h : s.runState = .halted) : s.runState.canStep = false := by
  rw [h]
  rfl

/-- `loadCode` and `writeMemory` change the state in `Ready` alone, a step is refused, and the other operations only read. -/
theorem op_of_perform_changes_halted {s : State} {op : HostOp} (hs : s.runState = .halted)
    (h : (perform op s).1 ≠ s) : op = .stepBack ∨ op = .replayToStart ∨ op = .reset ∨ op = .initMachine := by
  have not_ready : s.runState ≠ .ready := by simp [hs]
  cases op with
  | stepBack => exact .inl rfl
  | replayToStart => exact .inr (.inl rfl)
  | reset => exact .inr (.inr (.inl rfl))
  | initMachine => exact .inr (.inr (.inr rfl))
  | step =>
    rw [perform_step_refused (step_refused s (canStep_of_halted hs))] at h
    exact absurd rfl h
  | loadCode ws =>
    obtain ⟨t, ht⟩ := answer_ok_of_changed h
    obtain ⟨hready, _⟩ := (loadCode_ok_iff s ws t).1 ht
    exact absurd hready not_ready
  | writeMemory a bs =>
    obtain ⟨t, ht⟩ := answer_ok_of_changed h
    obtain ⟨hready, _⟩ := (writeMemory_ok_iff s a bs t).1 ht
    exact absurd hready not_ready
  | readMemory | getAllRegisters | canStepBack | canStepForward | assemble => exact absurd rfl h

/-! ## `HLT` (R135) -/

theorem hlt_of_step_halted {s t : State} (h : step s = .next t) (ht : t.runState = .halted) :
    loadedAtPc s ∧ decode (s.mem.wordAt s.pc.toNat) = some .hlt := by
  rcases runStateAfterStep s t h with ⟨_, hhlt⟩ | ⟨hr, _⟩ | ⟨hf, _⟩
  · exact hhlt
  · cases ht.symm.trans hr
  · cases ht.symm.trans hf

theorem not_loadedAtPc_past_code {s : State} (hpc : s.pc.toNat = 0x10000 + 4 * s.codeLen) : ¬loadedAtPc s := by
  rintro ⟨_, _, hend⟩
  omega

/-- Settles O28: the word, the only way into `Halted`, the step past the last word, and the committed halt with what is
performed after it. -/
theorem haltStopsOnItself : Obligations.HaltStopsOnItself := by
  refine ⟨rfl, fun _ => decode_hlt_reserved, fun _ _ => hlt_of_step_halted, ?past, fun s => ?halts⟩
  case past =>
    exact fun s hs hpc => step_decodeAbsent ((canStep_iff _).2 hs) (not_loadedAtPc_past_code hpc)
  case halts =>
    refine ⟨_, exec_hlt s, rfl, rfl, rfl, getReg_commit_none _ s rfl, storesNothing_commit s rfl, ⟨rfl, rfl⟩, ?record,
      step_refused _ (canStep_of_halted rfl), canStep_of_halted rfl, stepBack_commit_of_no_store s rfl,
      fun _ => op_of_perform_changes_halted rfl⟩
    case record => rfl

end Sys2Proof.Machine
end

section
/-! SUPPORT. The word of a decoded instruction (spec/30_encoding.md R58), and the faults of a step: the order in which they are
met and what their entry leaves unchanged (spec/60_exceptions.md R143, R145). -/

namespace Sys2Proof

/-! ## A decoded word is the word of its instruction (R58, R63) -/

theorem packA_of_fields {w : Word} {op : BitVec 8} {a : BitVec 4} {imm : Imm20} (hop : opField w = op)
    (ha : raField w = a) (himm : imm20Field w = imm) : packA op a imm = w := by
  rw [← hop, ← ha, ← himm, packA_fields]

theorem packI_of_fields {w : Word} {op : BitVec 8} {a b : BitVec 4} {imm : Imm16} (hop : opField w = op)
    (ha : raField w = a) (hb : rbField w = b) (himm : imm16Field w = imm) : packI op a b imm = w := by
  rw [← hop, ← ha, ← hb, ← himm, packI_fields]

theorem packR_of_fields {w : Word} {op : BitVec 8} {a b c : BitVec 4} (hop : opField w = op) (ha : raField w = a)
    (hb : rbField w = b) (hc : rcField w = c) (hz : z12Field w = 0) : packR op a b c = w := by
  rw [← hop, ← ha, ← hb, ← hc, packR_fields w hz]

theorem encode_hlt_of_fields {w : Word} (hop : opField w = 0x01) (hz : z24Field w = 0) : encode .hlt = w := by
  obtain ⟨hra, hrb, hrc, hz12⟩ := (z24Field_eq_zero_iff w).1 hz
  exact ((word_eq_iff_fields w (encode .hlt)).2 ⟨hop, hra, hrb, hrc, hz12⟩).symm

theorem opField_mem_of_decode {w : Word} {i : Instr} (h : decode w = some i) : opField w ∈ mapOpcodes := by
  by_contra hop
  cases (decode_of_opField_not_mem hop).symm.trans h

/-- Opcode by opcode: the word is the packing, in its format, of the fields that were read from it; the fields that the
instruction does not have were tested to be zero. -/
theorem encode_of_decode {w : Word} {i : Instr} (h : decode w = some i) : encode i = w := by
  rcases (mem_mapOpcodes_iff _).1 (opField_mem_of_decode h) with
    hhlt | hmovImm | hmovReg | haddReg | haddImm | hsubReg | hsubImm | hcmpReg | hcmpImm |
    hldrAbs | hldrOff | hstrAbs | hstrOff | hbranch
  · obtain ⟨hz, rfl⟩ : z24Field w = 0 ∧ .hlt = i := by simpa [decode, hhlt] using h
    exact encode_hlt_of_fields hhlt hz
  · obtain rfl : .movImm (raField w) (imm20Field w) = i := by simpa [decode, hmovImm] using h
    exact packA_of_fields hmovImm rfl rfl
  · obtain ⟨⟨hrb, hz⟩, rfl⟩ : (rbField w = 0 ∧ z12Field w = 0) ∧ .movReg (raField w) (rcField w) = i := by
      simpa [decode, hmovReg] using h
    exact packR_of_fields hmovReg rfl hrb rfl hz
  · obtain ⟨hz, rfl⟩ : z12Field w = 0 ∧ .addReg (raField w) (rbField w) (rcField w) = i := by
      simpa [decode, haddReg] using h
    exact packR_of_fields haddReg rfl rfl rfl hz
  · obtain rfl : .addImm (raField w) (rbField w) (imm16Field w) = i := by simpa [decode, haddImm] using h
    exact packI_of_fields haddImm rfl rfl rfl
  · obtain ⟨hz, rfl⟩ : z12Field w = 0 ∧ .subReg (raField w) (rbField w) (rcField w) = i := by
      simpa [decode, hsubReg] using h
    exact packR_of_fields hsubReg rfl rfl rfl hz
  · obtain rfl : .subImm (raField w) (rbField w) (imm16Field w) = i := by simpa [decode, hsubImm] using h
    exact packI_of_fields hsubImm rfl rfl rfl
  · obtain ⟨⟨hra, hz⟩, rfl⟩ : (raField w = 0 ∧ z12Field w = 0) ∧ .cmpReg (rbField w) (rcField w) = i := by
      simpa [decode, hcmpReg] using h
    exact packR_of_fields hcmpReg hra rfl rfl hz
  · obtain ⟨hra, rfl⟩ : raField w = 0 ∧ .cmpImm (rbField w) (imm16Field w) = i := by simpa [decode, hcmpImm] using h
    exact packI_of_fields hcmpImm hra rfl rfl
  · obtain rfl : .ldrAbs (raField w) (imm20Field w) = i := by simpa [decode, hldrAbs] using h
    exact packA_of_fields hldrAbs rfl rfl
  · obtain rfl : .ldrOff (raField w) (rbField w) (imm16Field w) = i := by simpa [decode, hldrOff] using h
    exact packI_of_fields hldrOff rfl rfl rfl
  · obtain rfl : .strAbs (raField w) (imm20Field w) = i := by simpa [decode, hstrAbs] using h
    exact packA_of_fields hstrAbs rfl rfl
  · obtain rfl : .strOff (raField w) (rbField w) (imm16Field w) = i := by simpa [decode, hstrOff] using h
    exact packI_of_fields hstrOff rfl rfl rfl
  · obtain ⟨c, hc, rfl⟩ : ∃ c, Cond.ofCode (raField w) = some c ∧ branchInstr c (imm20Field w) = i := by
      simpa [decode, hbranch] using h
    exact (encode_branchInstr c _).trans (packA_of_fields hbranch (code_of_ofCode _ c hc).symm rfl)

end Sys2Proof

namespace Sys2Proof.Machine
open Sys2Proof.Claims

/-! ## The entry of a fault (R145) -/

/-- An instruction that faults entered its record from the state it began in, for its own `pc`. -/
theorem exec_faulted {i : Instr} {s t : State} (h : exec i s = .next t) (ht : t.runState = .faulted) :
    ∃ r : FaultRecord, t = faultedWith r s ∧ r.pc = s.pc := by
  rcases exec_cases s i with ⟨e, _, hx⟩ | ⟨c, ea, st, _, hx⟩ <;> cases hx.symm.trans h
  · exact absurd ht (runStateAfter_ne_faulted e)
  · exact ⟨.memory c s.pc (encode i) ea st, rfl, rfl⟩

/-- Settles O34, along the three ways of an admitted step: the two decode faults, and the instruction, whose only fault is the
`MemoryFault`. -/
theorem faultEntryIsPrecise : Obligations.FaultEntryIsPrecise := by
  intro s t h ht
  rcases step_cases_loaded (canStep_of_step_next s h) with ⟨_, hx⟩ | ⟨_, _, hx⟩ | ⟨i, _, _, hx⟩
  · cases hx.symm.trans h
    exact ⟨.decodeAbsent s.pc, rfl, rfl⟩
  · cases hx.symm.trans h
    exact ⟨.decodeInvalid s.pc (s.mem.wordAt s.pc.toNat), rfl, rfl⟩
  · exact exec_faulted (hx.symm.trans h) ht

/-! ## The order of the faults (R143) -/

/-- The step that finds a load or store at `pc` faults as the instruction does, and the record's word is the fetched one. -/
theorem step_faultsOutside {s : State} {i : Instr} {ea : Word} {st : Bool} (hs : s.runState.canStep = true)
    (hl : loadedAtPc s) (hd : decode (s.mem.wordAt s.pc.toNat) = some i) (ha : access i s = some (ea, st)) :
    (ea.toNat % 4 ≠ 0 →
      step s = .next (faultedWith (.memory .misaligned s.pc (s.mem.wordAt s.pc.toNat) ea st) s)) ∧
    (ea.toNat % 4 = 0 → ¬wordAddress ea.toNat →
      step s = .next (faultedWith (.memory .outOfRange s.pc (s.mem.wordAt s.pc.toNat) ea st) s)) := by
  rw [step_of_decoded hs hl hd, ← encode_of_decode hd]
  exact faultsOutside_of_access ha

/-- Settles O35: the fetch, the decoder, and then the two tests of the data access. -/
theorem faultPriority : Obligations.FaultPriority := by
  intro s hcan
  have hs : s.runState.canStep = true := (canStep_iff _).2 hcan
  refine ⟨step_decodeAbsent hs, step_decodeInvalid hs, ?misaligned, ?outOfRange⟩
  case misaligned =>
    intro i ea st hl hd ha
    exact (step_faultsOutside hs hl hd ha).1
  case outOfRange =>
    intro i ea st hl hd ha
    exact (step_faultsOutside hs hl hd ha).2

end Sys2Proof.Machine
end

section
/-! SUPPORT. `stepBack()` and the two predicates: what a record's inverse writes back and leaves unchanged, and which history a
run state has under the invariant (spec/60_exceptions.md R151, R154, R156). -/

namespace Sys2Proof.Machine
open Sys2Proof.Claims

/-! ## What undoing a record writes back (R154) -/

section Undo
variable {r : StepRecord} (rest : List StepRecord) (s : State)

theorem undoRegs_none (regs : Vector Word 16) (h : r.oldReg = none) : undoRegs r regs = regs := by simp [undoRegs, h]

theorem undoRegs_some (regs : Vector Word 16) {i : RegNum} {v : Word} (h : r.oldReg = some (i, v)) :
    undoRegs r regs = setReg regs i v := by simp [undoRegs, h]

theorem undoMem_none (m : Memory) (h : r.oldBytes = none) : undoMem r m = m := by simp [undoMem, h]

theorem undoMem_some (m : Memory) {a : Word} {bs : List Byte} (h : r.oldBytes = some (a, bs)) :
    undoMem r m = m.writeBytes a.toNat bs := by simp [undoMem, h]

theorem getReg_undo_same {i : RegNum} {v : Word} (h : r.oldReg = some (i, v)) : getReg (undo r rest s) i = v := by
  simp [getReg, undoRegs_some s.regs h]

theorem sameRegsBut_undo {i : RegNum} {v : Word} (h : r.oldReg = some (i, v)) : sameRegsBut i s (undo r rest s) := by
  intro q hq
  simp [getReg, undoRegs_some s.regs h, setReg_other s.regs v hq]

theorem sameRegs_undo (h : r.oldReg = none) : sameRegs s (undo r rest s) := by
  intro q
  simp [getReg, undoRegs_none s.regs h]

theorem sameMemory_undo (h : r.oldBytes = none) : sameMemory s (undo r rest s) := fun _ =>
  byteAt_congr (by rw [undo_mem, undoMem_none s.mem h])

/-- The four old bytes of a sound record stand again at their address, which is backed (R33, R76). -/
theorem byteAt_undo {a : Word} {bs : List Byte} (hwf : s.mem.wf) (hsound : r.sound rest)
    (h : r.oldBytes = some (a, bs)) :
    (∀ k, k < 4 → byteAt (undo r rest s) (a.toNat + k) = bs[k]?) ∧ sameMemoryOutside s (undo r rest s) a.toNat 4 := by
  obtain ⟨hadmitted, hlen⟩ : admission a 4 = none ∧ bs.length = 4 := hsound.2 (a, bs) h
  have hr : (regionOf a.toNat bs.length).isSome = true := hlen ▸ ((admit_none_iff a 4).1 hadmitted).2
  have hb : ∀ z, a.toNat ≤ z → z < a.toNat + bs.length → backed z = true := fun _ => backed_of_region hr
  have hmem : (undo r rest s).mem = s.mem.writeBytes a.toNat bs := undoMem_some s.mem h
  refine ⟨fun k hk => ?_, fun x hx => byteAt_congr ?_⟩
  · have hbk := List.getElem?_eq_getElem (hlen ▸ hk : k < bs.length)
    rw [byteAt_of_backed (hb _ (by omega) (by omega)), hmem, byte_writeBytes_at hwf hb hbk, hbk]
  · rw [hmem, byte_writeBytes_off_range hwf hb (by omega)]

/-- A sound record leads back to `Ready` exactly where it is the oldest, and to `Running` elsewhere (R76, R151). -/
theorem oldRunState_of_sound (hsound : r.sound rest) :
    (r.oldRunState = .ready ↔ rest = []) ∧ (r.oldRunState = .running ↔ rest ≠ []) := by
  rw [hsound.1]
  by_cases hrest : rest = [] <;> simp [hrest]

end Undo

/-! ## The history of each run state under the invariant (R151) -/

/-- Only `Ready` and `Faulted` can have an empty history, and `Ready` has no other. -/
theorem history_ne_nil_iff_of_inv {s : State} (h : s.inv) (hf : s.runState ≠ .faulted) :
    s.history ≠ [] ↔ s.runState = .running ∨ s.runState = .halted := by
  obtain ⟨_, _, _, hrun, _⟩ := h
  unfold State.runStateInv at hrun
  cases hr : s.runState <;> simp only [hr] at hrun
  case ready =>
    obtain ⟨_, hnil, _⟩ := hrun
    simp [hnil]
  case running => simp [hrun]
  case halted => simp [hrun.1]
  case faulted => exact absurd hr hf

theorem runState_ne_faulted_of_undoable {s : State} (hr : s.runState = .running ∨ s.runState = .halted) :
    s.runState ≠ .faulted := by
  rcases hr with hr | hr <;> simp [hr]

/-- In `Running` and `Halted` there is a newest record, and it is sound over those below it. -/
theorem newestRecord_of_inv {s : State} (h : s.inv) (hr : s.runState = .running ∨ s.runState = .halted) :
    ∃ r rest, s.history = r :: rest ∧ r.sound rest := by
  have hne := (history_ne_nil_iff_of_inv h (runState_ne_faulted_of_undoable hr)).2 hr
  obtain ⟨r, rest, hh⟩ := List.exists_cons_of_ne_nil hne
  obtain ⟨_, _, _, _, hsound, _⟩ := h
  rw [hh] at hsound
  exact ⟨r, rest, hh, hsound.1⟩

/-- The machine after its first reset: `Running` and `Halted` are never `Uninitialized`. -/
theorem inv_of_undoable {s : State} (h : s.inv ∨ s.runState = .uninitialized)
    (hr : s.runState = .running ∨ s.runState = .halted) : s.inv :=
  h.resolve_right fun hu => by simp [hu] at hr

/-! ## `stepBack()` (R154) -/

theorem stepBack_ready {s : State} (h : s.runState = .ready) : stepBack s = .error .nothingToUndo := by
  simp [stepBack, h]

theorem stepBack_notReady {s : State} (h : s.runState = .uninitialized ∨ s.runState = .faulted) :
    stepBack s = .error .notReady := by
  rcases h with h | h <;> simp [stepBack, h]

/-- Settles O47: the refusals by run state, and the inverse of the newest record, field by field. -/
theorem stepBackUndoesNewestRecord : Obligations.StepBackUndoesNewestRecord := by
  refine fun s h => ⟨stepBack_ready, stepBack_notReady, fun hr => ?undone⟩
  case undone =>
    have hinv := inv_of_undoable h hr
    have hwf : s.mem.wf := hinv.1
    obtain ⟨r, rest, hh, hsound⟩ := newestRecord_of_inv hinv hr
    obtain ⟨hready, hrunning⟩ := oldRunState_of_sound rest hsound
    refine ⟨r, rest, undo r rest s, hh, (stepBack_ok_iff s _).2 ⟨hr, r, rest, hh, rfl⟩, undo_history .., undo_pc ..,
      fun i v hreg => ⟨getReg_undo_same rest s hreg, sameRegsBut_undo rest s hreg⟩, sameRegs_undo rest s, ?_, ?_,
      fun a bs => byteAt_undo rest s hwf hsound, sameMemory_undo rest s, undo_runState .., hready, hrunning,
      undo_storeEvents .., undo_codeLen ..⟩
    · intro f hf
      rw [undo_flags, hf, Option.getD_some]
    · intro hf
      rw [undo_flags, hf, Option.getD_none]

/-! ## The predicates (R156) -/

theorem canStepBack_iff (s : State) : canStepBack s = true ↔ s.runState = .running ∨ s.runState = .halted := by
  unfold canStepBack
  cases s.runState <;> simp

theorem canStepForward_iff (s : State) : canStepForward s = true ↔ s.runState = .ready ∨ s.runState = .running :=
  canStep_iff s.runState

theorem stepBack_answers_iff {s : State} (h : s.inv ∨ s.runState = .uninitialized) :
    (∃ t, stepBack s = .ok t) ↔ s.runState = .running ∨ s.runState = .halted := by
  constructor
  · rintro ⟨t, ht⟩
    exact ((stepBack_ok_iff s t).1 ht).1
  · intro hr
    obtain ⟨r, rest, hh, _⟩ := newestRecord_of_inv (inv_of_undoable h hr) hr
    exact ⟨_, (stepBack_ok_iff s _).2 ⟨hr, r, rest, hh, rfl⟩⟩

theorem step_answers_iff (s : State) : (∃ t, step s = .next t) ↔ canStep s :=
  ⟨fun ⟨_, ht⟩ => (canStep_iff _).1 (canStep_of_step_next s ht), step_answers⟩

/-- Settles O48: both predicates by run state, and where the operations answer. -/
theorem stepPredicates : Obligations.StepPredicates := by
  refine fun s h => ⟨canStepBack_iff s, fun hinv => ?history, canStepForward_iff s, ?back, ?forward⟩
  case history =>
    rw [canStepBack_iff]
    constructor
    · intro hr
      have hf := runState_ne_faulted_of_undoable hr
      exact ⟨(history_ne_nil_iff_of_inv hinv hf).2 hr, hf⟩
    · rintro ⟨hne, hf⟩
      exact (history_ne_nil_iff_of_inv hinv hf).1 hne
  case back => rw [canStepBack_iff, stepBack_answers_iff h]
  case forward => rw [canStepForward_iff, step_answers_iff]

end Sys2Proof.Machine
end

section
/-! SUPPORT. The two host operations that set the machine up: what stands in memory after `loadCode()`, and what `reset()`
leaves (spec/70_reset_and_hazards.md R170, R172, R173). -/

namespace Sys2Proof.Machine
open Sys2Proof.Claims

/-! ## The bytes of a list of words (R34) -/

theorem bytesOfWord_getElem? (w : Word) {k : Nat} (hk : k < 4) : (bytesOfWord w)[k]? = some (byteOfWord w k) := by
  match k, hk with
  | 0, _ => rfl
  | 1, _ => rfl
  | 2, _ => rfl
  | 3, _ => rfl

theorem flatMap_bytesOfWord_length (ws : List Word) : (ws.flatMap bytesOfWord).length = 4 * ws.length := by
  induction ws with
  | nil => rfl
  | cons w ws ih =>
    rw [List.flatMap_cons, List.length_append, bytesOfWord_length, ih, List.length_cons]
    omega

theorem flatMap_bytesOfWord_getElem? {ws : List Word} {i k : Nat} {w : Word} (hi : ws[i]? = some w) (hk : k < 4) :
    (ws.flatMap bytesOfWord)[4 * i + k]? = some (byteOfWord w k) := by
  induction ws generalizing i with
  | nil => cases hi
  | cons v ws ih =>
    rw [List.flatMap_cons]
    cases i with
    | zero =>
      obtain rfl : v = w := Option.some.inj hi
      rw [List.getElem?_append_left (by simpa using hk), Nat.mul_zero, Nat.zero_add, bytesOfWord_getElem? v hk]
    | succ i =>
      have hskip : 4 * (i + 1) + k - 4 = 4 * i + k := by omega
      rw [List.getElem?_append_right (by simp only [bytesOfWord_length]; omega), bytesOfWord_length, hskip]
      exact ih hi

/-! ## Memory after `loadCode()` (R173) -/

section LoadedMem
variable {ws : List Word} {m : Memory}

/-- At most 1024 words end inside the code region (R31). -/
theorem backed_of_code_words (hlen : ws.length ≤ 1024) (z : Nat) (h1 : Config.codeBase ≤ z)
    (h2 : z < Config.codeBase + (ws.flatMap bytesOfWord).length) : backed z = true := by
  rw [flatMap_bytesOfWord_length] at h2
  have hbase : Config.codeBase = 0x10000 := rfl
  exact (backed_iff z).2 (.inl (by omega))

theorem byte_loadedMem_word (hm : m.wf) (hlen : ws.length ≤ 1024) {i k : Nat} {w : Word} (hi : ws[i]? = some w)
    (hk : k < 4) : (loadedMem ws m).byte (0x10000 + 4 * i + k) = byteOfWord w k := by
  rw [Nat.add_assoc]
  exact byte_writeBytes_at (zeroRange_wf m _ _ hm) (backed_of_code_words hlen) (flatMap_bytesOfWord_getElem? hi hk)

/-- Past the words the bytes are those of the region after it was zero-filled. -/
theorem byte_loadedMem_off_words (hm : m.wf) (hlen : ws.length ≤ 1024) {a : Nat}
    (ha : a < 0x10000 ∨ 0x10000 + 4 * ws.length ≤ a) :
    (loadedMem ws m).byte a = if 0x10000 ≤ a ∧ a < 0x11000 then 0 else m.byte a := by
  have hoff : a < Config.codeBase ∨ Config.codeBase + (ws.flatMap bytesOfWord).length ≤ a := by
    rwa [flatMap_bytesOfWord_length]
  rw [loadedMem, byte_writeBytes_off_range (zeroRange_wf m _ _ hm) (backed_of_code_words hlen) hoff]
  exact byte_zeroRange m _ _ a

theorem byte_loadedMem_zero (hm : m.wf) (hlen : ws.length ≤ 1024) {a : Nat} (h1 : 0x10000 + 4 * ws.length ≤ a)
    (h2 : a < 0x11000) : (loadedMem ws m).byte a = 0 := by
  rw [byte_loadedMem_off_words hm hlen (.inr h1), if_pos ⟨by omega, h2⟩]

theorem byte_loadedMem_outside (hm : m.wf) (hlen : ws.length ≤ 1024) {a : Nat}
    (ha : a < 0x10000 ∨ 0x10000 + 0x1000 ≤ a) : (loadedMem ws m).byte a = m.byte a := by
  rw [byte_loadedMem_off_words hm hlen (by omega), if_neg (by omega)]

end LoadedMem

/-! ## `loadCode()` (R173) -/

theorem loadCode_ok {ws : List Word} {s : State} (hs : s.runState = .ready) (hlen : ws.length ≤ 1024) :
    loadCode ws s = .ok { s with mem := loadedMem ws s.mem, codeLen := ws.length } :=
  (loadCode_ok_iff s ws _).2 ⟨hs, hlen, rfl⟩

theorem loadCode_loadRange {ws : List Word} {s : State} (hs : s.runState = .ready) (hlen : 1024 < ws.length) :
    loadCode ws s = .error .loadRange := by
  rw [loadCode, if_pos hs, if_neg (Nat.not_le.2 hlen)]

theorem loadCode_notReady {ws : List Word} {s : State} (hs : s.runState ≠ .ready) :
    loadCode ws s = .error .notReady := if_neg hs

theorem perform_loadCode_refused {ws : List Word} {s : State} {r : Refusal} (h : loadCode ws s = .error r) :
    perform (.loadCode ws) s = (s, .refused r) := by
  simp only [perform, h, answer]

/-- Settles O54: the words, the zeroes behind them and the memory outside the code region, then the two refusals. -/
theorem loadCodeReplacesCodeRegion : Obligations.LoadCodeReplacesCodeRegion := by
  refine fun ws s hwf => ⟨fun hs hlen => ?loaded, fun hs hlen => perform_loadCode_refused (loadCode_loadRange hs hlen),
    fun hs => perform_loadCode_refused (loadCode_notReady hs)⟩
  case loaded =>
    refine ⟨_, loadCode_ok hs hlen, rfl, ?words, ?zeroes, fun x hx => byteAt_congr (byte_loadedMem_outside hwf hlen hx),
      fun _ => rfl, rfl, rfl, rfl, rfl, rfl, rfl⟩
    case words =>
      intro i w hi k hk
      have hlt : i < ws.length := (List.getElem?_eq_some_iff.1 hi).1
      have hb : backed (0x10000 + 4 * i + k) = true := (backed_iff _).2 (.inl (by omega))
      exact (byteAt_of_backed hb).trans (congrArg some (byte_loadedMem_word hwf hlen hi hk))
    case zeroes =>
      intro a h1 h2
      have hb : backed a = true := (backed_iff a).2 (.inl (by omega))
      exact (byteAt_of_backed hb).trans (congrArg some (byte_loadedMem_zero hwf hlen h1 h2))

/-! ## `reset()` and `initialize()` (R170, R172) -/

theorem perform_reset (s : State) : perform .reset s = (State.reset, .done) := rfl

theorem perform_initMachine (s : State) : perform .initMachine s = (State.reset, .done) := rfl

theorem getReg_reset (r : RegNum) : getReg State.reset r = 0 := by
  simp [getReg]

theorem byteAt_reset {a : Nat} (h : backed a = true) : byteAt State.reset a = some 0 := byteAt_of_backed h

/-- Settles O49: the state answered is `State.reset`, whatever the state before; its fields one by one. -/
theorem resetClearsEverything : Obligations.ResetClearsEverything := by
  refine fun s => ⟨State.reset, perform_reset s, perform_initMachine s, getReg_reset, reset_flags, reset_pc, ?memory,
    reset_codeLen, reset_faultRecord, reset_history, reset_storeEvents, reset_runState, perform_reset State.reset⟩
  case memory =>
    intro a ha
    exact byteAt_reset ((backed_iff a).2 ha)

end Sys2Proof.Machine
end

section
/-! SUPPORT. Decode and encode as inverses, and the opcode map as a partition of the valid words (spec/30_encoding.md R54, R58,
R63). -/

namespace Sys2Proof

/-! ## Encode, then decode (R58, R63) -/

theorem decode_encodeBranch (c : Cond) (t : Imm20) : decode (encodeBranch c t) = some (branchInstr c t) := by
  simp [decode, encodeBranch]

/-- The fields read back from the packed word are the operands, and the fields the format leaves zero pass their test. -/
theorem decode_encode (i : Instr) : decode (encode i) = some i := by
  cases i with
  | hlt => decide
  | beq t => exact decode_encodeBranch .eq t
  | bne t => exact decode_encodeBranch .ne t
  | bcs t => exact decode_encodeBranch .cs t
  | bcc t => exact decode_encodeBranch .cc t
  | bmi t => exact decode_encodeBranch .mi t
  | bpl t => exact decode_encodeBranch .pl t
  | bvs t => exact decode_encodeBranch .vs t
  | bvc t => exact decode_encodeBranch .vc t
  | bhi t => exact decode_encodeBranch .hi t
  | bls t => exact decode_encodeBranch .ls t
  | bge t => exact decode_encodeBranch .ge t
  | blt t => exact decode_encodeBranch .lt t
  | bgt t => exact decode_encodeBranch .gt t
  | ble t => exact decode_encodeBranch .le t
  | b t => exact decode_encodeBranch .al t
  | _ => simp [decode, encode]

/-- The four bytes of a word at the head of a sequence are decoded as the word (R34, R50). -/
theorem decodeBytes_bytesOfWord (w : Word) (rest : List Byte) :
    decodeBytes (bytesOfWord w ++ rest) = (decode w).map (fun i => (i, rest)) := by
  simp only [bytesOfWord, List.cons_append, List.nil_append, decodeBytes, Machine.wordOfBytes_bytes]

/-- Settles O1: the word instruction by instruction, and the bytes through their word. -/
theorem decodeEncodeRoundTrip : Obligations.DecodeEncodeRoundTrip := by
  refine fun i rest => ⟨decode_encode i, ?bytes⟩
  case bytes => rw [encodeBytes, decodeBytes_bytesOfWord, decode_encode, Option.map_some]

/-! ## The row of a word (R54) -/

/-- The row of an instruction is one of the opcode map's, and it covers the instruction's word. -/
theorem encode_matchesRow (i : Instr) : Laws.EncodeMatchesRow.Statement i := by
  cases i with
  | hlt => exact Laws.EncodeMatchesRow.hlt
  | movImm => exact Laws.EncodeMatchesRow.movImm ..
  | movReg => exact Laws.EncodeMatchesRow.movReg ..
  | addReg => exact Laws.EncodeMatchesRow.addReg ..
  | addImm => exact Laws.EncodeMatchesRow.addImm ..
  | subReg => exact Laws.EncodeMatchesRow.subReg ..
  | subImm => exact Laws.EncodeMatchesRow.subImm ..
  | cmpReg => exact Laws.EncodeMatchesRow.cmpReg ..
  | cmpImm => exact Laws.EncodeMatchesRow.cmpImm ..
  | ldrAbs => exact Laws.EncodeMatchesRow.ldrAbs ..
  | ldrOff => exact Laws.EncodeMatchesRow.ldrOff ..
  | strAbs => exact Laws.EncodeMatchesRow.strAbs ..
  | strOff => exact Laws.EncodeMatchesRow.strOff ..
  | beq => exact Laws.EncodeMatchesRow.beq _
  | bne => exact Laws.EncodeMatchesRow.bne _
  | bcs => exact Laws.EncodeMatchesRow.bcs _
  | bcc => exact Laws.EncodeMatchesRow.bcc _
  | bmi => exact Laws.EncodeMatchesRow.bmi _
  | bpl => exact Laws.EncodeMatchesRow.bpl _
  | bvs => exact Laws.EncodeMatchesRow.bvs _
  | bvc => exact Laws.EncodeMatchesRow.bvc _
  | bhi => exact Laws.EncodeMatchesRow.bhi _
  | bls => exact Laws.EncodeMatchesRow.bls _
  | bge => exact Laws.EncodeMatchesRow.bge _
  | blt => exact Laws.EncodeMatchesRow.blt _
  | bgt => exact Laws.EncodeMatchesRow.bgt _
  | ble => exact Laws.EncodeMatchesRow.ble _
  | b => exact Laws.EncodeMatchesRow.b _

/-- The word of an instruction is valid (R56). -/
theorem validWord_encode (i : Instr) : validWord (encode i) = true :=
  List.any_eq_true.2 ⟨i.row, (encode_matchesRow i).2, (encode_matchesRow i).1⟩

/-- Settles O2: the word is the encoding of what was read from it, and the row covers that encoding. -/
theorem decodedWordReencodes : Obligations.DecodedWordReencodes := by
  intro w i h
  have henc := encode_of_decode h
  exact ⟨henc, henc ▸ (encode_matchesRow i).1⟩

/-! ## Two rows match no word in common (R58) -/

/-- Two rows of the map differ in a bit that both their masks test. -/
theorem patterns_differ_under_masks {r r' : OpRow} (hr : r ∈ opcodeRows) (hr' : r' ∈ opcodeRows)
    (h : r.pattern &&& r'.mask = r'.pattern &&& r.mask) : r = r' := by
  have all_pairs : ∀ r ∈ opcodeRows, ∀ r' ∈ opcodeRows, r.pattern &&& r'.mask = r'.pattern &&& r.mask → r = r' := by
    decide
  exact all_pairs r hr r' hr' h

/-- A word that two rows cover has, under both masks, the bits of both patterns. -/
theorem patterns_agree_of_covers {r r' : OpRow} {w : Word} (h : r.covers w = true) (h' : r'.covers w = true) :
    r.pattern &&& r'.mask = r'.pattern &&& r.mask := by
  rw [← beq_iff_eq.1 h, ← beq_iff_eq.1 h', BitVec.and_assoc, BitVec.and_assoc, BitVec.and_comm r.mask]

/-- Settles O4: a word covered by two rows makes their patterns agree where both masks test it, and then they are one row. -/
theorem opcodeRowsNeverOverlap : Obligations.OpcodeRowsNeverOverlap :=
  ⟨rfl, fun _ _ _ hr hr' h h' => patterns_differ_under_masks hr hr' (patterns_agree_of_covers h h')⟩

/-- Settles O5: sixteen words written out, each decoded by evaluation, and the two extreme offsets. -/
theorem writtenOutWordsDecode : Obligations.WrittenOutWordsDecode := by
  unfold Obligations.WrittenOutWordsDecode
  decide

end Sys2Proof
end

section
/-! SUPPORT. The conditions after a compare (spec/42_arithmetic.md R97, spec/44_branch.md R115), and the effective addresses with
their admission (spec/43_load_store.md R105, spec/20_memory.md R33). -/

namespace Sys2Proof.Machine
open Sys2Proof.Claims

/-! ## The flags of a subtraction, as comparisons (R97) -/

section Compare
variable (a b : Word)

theorem aluSub_n : (aluSub a b).2.n = (a - b).getLsbD 31 := by
  rw [← aluSub_result a b]
  exact addWithCarry_n a (~~~b) true

theorem aluSub_z_iff : (aluSub a b).2.z = true ↔ a = b := by
  have hz : (aluSub a b).2.z = true ↔ (aluSub a b).1 = 0 := addWithCarry_z_iff a (~~~b) true
  rw [hz, aluSub_result]
  exact sub_eq_zero

theorem aluSub_z_false_iff : (aluSub a b).2.z = false ↔ a ≠ b := by
  rw [← Bool.not_eq_true, aluSub_z_iff]

theorem aluSub_c_false_iff : (aluSub a b).2.c = false ↔ a.toNat < b.toNat := by
  rw [← Bool.not_eq_true, aluSub_c_iff, Nat.not_le]

theorem aluSub_v_false_iff :
    (aluSub a b).2.v = false ↔ -2 ^ 31 ≤ a.toInt - b.toInt ∧ a.toInt - b.toInt ≤ 2 ^ 31 - 1 := by
  rw [← Bool.not_eq_true, aluSub_v_iff, not_or, Int.not_lt, Int.not_lt]

/-- The sign of the wrapped difference is that of the true one exactly where the difference is representable. -/
theorem aluSub_signed_lt_iff : (aluSub a b).2.n ≠ (aluSub a b).2.v ↔ a.toInt < b.toInt := by
  have ha := toInt_bounds a
  have hb := toInt_bounds b
  have hn : (aluSub a b).2.n = true ↔ (a.toInt - b.toInt).bmod (2 ^ 32) < 0 := by
    rw [aluSub_n, getLsbD_31_iff, BitVec.toInt_sub]
  rw [ne_eq, Bool.eq_iff_iff, hn, aluSub_v_iff, Int.bmod_def]
  omega

theorem aluSub_signed_ge_iff : (aluSub a b).2.n = (aluSub a b).2.v ↔ b.toInt ≤ a.toInt := by
  rw [← not_iff_not, ← ne_eq, aluSub_signed_lt_iff, Int.not_le]

end Compare

/-- Settles O8: each condition read off the flags, and the flags as comparisons of the operands. -/
theorem conditionsAfterCompare : Obligations.ConditionsAfterCompare := by
  intro a b
  have toNat_eq : a = b ↔ a.toNat = b.toNat := BitVec.toNat_eq
  have toInt_eq : a = b ↔ a.toInt = b.toInt := BitVec.toInt_inj.symm
  refine ⟨?eq, ?ne, aluSub_c_iff a b, ?cc, ?mi, ?pl, aluSub_v_iff a b, ?vc, ?hi, ?ls, ?ge, ?lt, ?gt, ?le, rfl⟩
  case eq => rw [condHolds_eq_iff, aluSub_z_iff]
  case ne => rw [condHolds_ne_iff, aluSub_z_false_iff]
  case cc => rw [condHolds_cc_iff, aluSub_c_false_iff]
  case mi => rw [condHolds_mi_iff, aluSub_n]
  case pl => rw [condHolds_pl_iff, aluSub_n]
  case vc => rw [condHolds_vc_iff, aluSub_v_false_iff]
  case hi =>
    rw [condHolds_hi_iff, aluSub_c_iff, aluSub_z_false_iff, ne_eq, toNat_eq]
    omega
  case ls =>
    rw [condHolds_ls_iff, aluSub_c_false_iff, aluSub_z_iff, toNat_eq]
    omega
  case ge => rw [condHolds_ge_iff, aluSub_signed_ge_iff]
  case lt => rw [condHolds_lt_iff, aluSub_signed_lt_iff]
  case gt =>
    rw [condHolds_gt_iff, aluSub_z_false_iff, aluSub_signed_ge_iff, ne_eq, toInt_eq]
    omega
  case le =>
    rw [condHolds_le_iff, aluSub_z_iff, aluSub_signed_lt_iff, toInt_eq]
    omega

/-! ## The effective addresses (R105) -/

theorem toNat_eaAbs (abs : Imm20) : (eaAbs abs).toNat = abs.toNat :=
  BitVec.toNat_setWidth_of_le (by decide)

/-- The wrapped sum of words is the exact signed sum up to a multiple of 2^32. -/
theorem toNat_eaOff (n : RegNum) (off : Imm16) (s : State) :
    ((eaOff n off s).toNat : Int) = (((getReg s n).toNat : Int) + off.toInt) % 2 ^ 32 := by
  have hoff : (sext16 off).toInt = off.toInt := BitVec.toInt_signExtend_of_le (by decide)
  have hlt : (sext16 off).toNat < 2 ^ 32 := (sext16 off).isLt
  rw [eaOff, BitVec.toNat_add, ← hoff, BitVec.toInt_eq_toNat_cond]
  omega

/-- Settles O17: both addresses as exact sums, and the admission check with its two causes. -/
theorem effectiveAddressesAndAdmission : Obligations.EffectiveAddressesAndAdmission := by
  refine ⟨toNat_eaAbs, toNat_eaOff, fun ea => ⟨admission_none_iff_wordAddress ea, admit_misaligned_iff ea 4, ?outOfRange⟩⟩
  case outOfRange =>
    constructor
    · intro h
      have haligned := ((admit_outOfRange_iff ea 4).1 h).1
      exact ⟨haligned, (admission_outOfRange_iff_not_wordAddress haligned).1 h⟩
    · rintro ⟨haligned, hout⟩
      exact (admission_outOfRange_iff_not_wordAddress haligned).2 hout

end Sys2Proof.Machine
end

section
/-! SUPPORT. What one step does, said once as an inversion, and what follows of registers, flags, bytes and inputs
(spec/40_step_cycle.md R71 to R77, spec/10_state.md R12, R17). -/

namespace Sys2Proof.Machine
open Sys2Proof.Claims

/-! ## A data access by its admission (R33, R106 to R109) -/

section Access
variable (i : Instr) (t : RegNum) {ea : Word} (s : State)

theorem load_of_admitted (h : admission ea 4 = none) :
    load i t ea s = commit { reg := some (t, s.mem.wordAt ea.toNat), nextPc := seqPc s } s := by
  rcases load_cases s i t ea with ⟨_, hl⟩ | ⟨c, hc, _⟩
  · exact hl
  · cases h.symm.trans hc

theorem load_of_refused {c : MemCause} (h : admission ea 4 = some c) :
    load i t ea s = faultedWith (.memory c s.pc (encode i) ea false) s := by
  rcases load_cases s i t ea with ⟨ha, _⟩ | ⟨c', hc, hl⟩
  · cases h.symm.trans ha
  · cases h.symm.trans hc
    exact hl

theorem store_of_admitted (h : admission ea 4 = none) :
    store i t ea s = commit { store := some (ea, getReg s t), nextPc := seqPc s } s := by
  rcases store_cases s i t ea with ⟨_, hl⟩ | ⟨c, hc, _⟩
  · exact hl
  · cases h.symm.trans hc

theorem store_of_refused {c : MemCause} (h : admission ea 4 = some c) :
    store i t ea s = faultedWith (.memory c s.pc (encode i) ea true) s := by
  rcases store_cases s i t ea with ⟨ha, _⟩ | ⟨c', hc, hl⟩
  · cases h.symm.trans ha
  · cases h.symm.trans hc
    exact hl

end Access

/-! ## The inversion of a step (R71) -/

/-- A step that answers entered a fault, which changes nothing else, or committed a sound effect of the decoded instruction. -/
theorem step_next_cases {s t : State} (h : step s = .next t) :
    (∃ r, t = faultedWith r s) ∨
    ∃ i e, loadedAtPc s ∧ decode (s.mem.wordAt s.pc.toNat) = some i ∧ Effect.Sound e i s ∧ t = commit e s := by
  rcases step_cases_loaded (canStep_of_step_next s h) with ⟨_, hx⟩ | ⟨_, _, hx⟩ | ⟨i, hl, hd, hx⟩
  · cases hx.symm.trans h
    exact .inl ⟨_, rfl⟩
  · cases hx.symm.trans h
    exact .inl ⟨_, rfl⟩
  · rcases exec_cases s i with ⟨e, he, hc⟩ | ⟨c, ea, st, _, hf⟩
    · cases (hx.trans hc).symm.trans h
      exact .inr ⟨i, e, hl, hd, he, rfl⟩
    · cases (hx.trans hf).symm.trans h
      exact .inl ⟨_, rfl⟩

theorem faultedWith_runState (r : FaultRecord) (s : State) : (faultedWith r s).runState = .faulted := rfl

/-- A step that does not end in `Faulted` committed. -/
theorem step_committed {s t : State} (h : step s = .next t) (ht : t.runState ≠ .faulted) :
    ∃ i e, loadedAtPc s ∧ decode (s.mem.wordAt s.pc.toNat) = some i ∧ Effect.Sound e i s ∧ t = commit e s := by
  rcases step_next_cases h with ⟨r, rfl⟩ | hc
  · exact absurd (faultedWith_runState r s) ht
  · exact hc

/-! ## The instruction at `pc` (R34, R41, R71) -/

theorem byte_of_byteAt {s : State} {a : Nat} {b : Byte} (h : byteAt s a = some b) : s.mem.byte a = b := by
  unfold byteAt at h
  split at h
  · exact Option.some.inj h
  · cases h

theorem decode_of_decodeBytes {b0 b1 b2 b3 : Byte} {i : Instr} (h : decodeBytes [b0, b1, b2, b3] = some (i, [])) :
    decode (wordOfBytes b0 b1 b2 b3) = some i := by
  simpa [decodeBytes] using h

/-- Settles O29: the four bytes make up the word that is fetched and decoded. -/
theorem stepRunsDecodedInstruction : Obligations.StepRunsDecodedInstruction := by
  intro s i b0 b1 b2 b3 hs hl h0 h1 h2 h3 hd
  have hword : s.mem.wordAt s.pc.toNat = wordOfBytes b0 b1 b2 b3 := by
    rw [Memory.wordAt, byte_of_byteAt h0, byte_of_byteAt h1, byte_of_byteAt h2, byte_of_byteAt h3]
  exact step_of_decoded ((canStep_iff _).2 hs) hl (hword ▸ decode_of_decodeBytes hd)

/-! ## Which instructions can fault (R140) -/

/-- Settles O36: the halt, the branches and the sequential instructions commit; the others have a data access. -/
theorem onlyLoadsAndStoresFault : Obligations.OnlyLoadsAndStoresFault := by
  intro i s
  obtain ⟨t, ht, hrun⟩ := exec_runState i s
  refine ⟨t, ht, fun hnone => ?_⟩
  have hrun' : t.runState = if i = .hlt then .halted else .running := by rw [hrun, execRunState, hnone]
  have hf : t.runState ≠ .faulted := by
    rw [hrun']
    split <;> nofun
  have hlen := exec_historyLength ht
  rw [if_neg hf] at hlen
  exact ⟨hrun', hlen⟩

/-! ## The register written (R12, R74) -/

theorem sameRegsBut_commit (e : Effect) (s : State) : ∃ d, sameRegsBut d s (commit e s) := by
  cases h : e.reg with
  | none => exact ⟨0, fun q _ => getReg_commit_none e s h q⟩
  | some rv => exact ⟨rv.1, fun q hq => getReg_commit_other e s h hq⟩

/-- Settles O37: a fault writes no register, a commit at most the one of its effect. -/
theorem stepWritesAtMostOneRegister : Obligations.StepWritesAtMostOneRegister := by
  intro s t h
  rcases step_next_cases h with ⟨r, rfl⟩ | ⟨i, e, _, _, _, rfl⟩
  · exact ⟨⟨0, fun _ _ => rfl⟩, fun _ _ => rfl⟩
  · exact ⟨sameRegsBut_commit e s, fun hf => absurd hf (runStateAfter_ne_faulted e)⟩

/-! ## The flags written (R17, R76, R91 to R96) -/

/-- A load or store that commits writes no flag, and one that faults neither. -/
theorem exec_access_flags {i : Instr} {ea : Word} {isStore : Bool} {s : State} (h : access i s = some (ea, isStore)) :
    aluFlags i s = none ∧
    ((∃ e : Effect, e.flags = none ∧ exec i s = .next (commit e s)) ∨ ∃ r, exec i s = .next (faultedWith r s)) := by
  have of_load : ∀ t, exec i s = .next (load i t ea s) →
      (∃ e : Effect, e.flags = none ∧ exec i s = .next (commit e s)) ∨ ∃ r, exec i s = .next (faultedWith r s) := by
    intro t hx
    cases ha : admission ea 4 with
    | none => exact .inl ⟨_, rfl, hx.trans (congrArg _ (load_of_admitted i t s ha))⟩
    | some c => exact .inr ⟨_, hx.trans (congrArg _ (load_of_refused i t s ha))⟩
  have of_store : ∀ t, exec i s = .next (store i t ea s) →
      (∃ e : Effect, e.flags = none ∧ exec i s = .next (commit e s)) ∨ ∃ r, exec i s = .next (faultedWith r s) := by
    intro t hx
    cases ha : admission ea 4 with
    | none => exact .inl ⟨_, rfl, hx.trans (congrArg _ (store_of_admitted i t s ha))⟩
    | some c => exact .inr ⟨_, hx.trans (congrArg _ (store_of_refused i t s ha))⟩
  cases i with
  | ldrAbs t abs => cases h; exact ⟨rfl, of_load t rfl⟩
  | ldrOff t n off => cases h; exact ⟨rfl, of_load t rfl⟩
  | strAbs t abs => cases h; exact ⟨rfl, of_store t rfl⟩
  | strOff t n off => cases h; exact ⟨rfl, of_store t rfl⟩
  | _ => cases h

/-- The effect of an instruction that commits has the flags of its sum or difference, or none; a fault leaves them. -/
theorem exec_flags_cases (i : Instr) (s : State) :
    (∃ e : Effect, e.flags = aluFlags i s ∧ exec i s = .next (commit e s)) ∨
    (aluFlags i s = none ∧ ∃ r, exec i s = .next (faultedWith r s)) := by
  cases ha : access i s with
  | some a =>
    obtain ⟨hnone, hx⟩ := exec_access_flags ha
    rw [hnone]
    exact hx.imp_right fun hf => ⟨rfl, hf⟩
  | none =>
    cases i with
    | ldrAbs | ldrOff | strAbs | strOff => cases ha
    | _ => exact .inl ⟨_, rfl, rfl⟩

/-- Settles O38: by the flags of the committed effect, which its record keeps the old values of. -/
theorem flagsWrittenByArithmeticOnly : Obligations.FlagsWrittenByArithmeticOnly := by
  intro i s t h
  rcases exec_flags_cases i s with ⟨e, he, hx⟩ | ⟨hnone, r, hx⟩ <;> cases hx.symm.trans h
  · rw [← he]
    exact ⟨commit_flags e s, fun _ => ⟨_, commit_history e s, stepRecord_oldFlags e s⟩⟩
  · rw [hnone]
    exact ⟨rfl, fun hf => absurd (faultedWith_runState r s) hf⟩

/-! ## The bytes written (R77) -/

/-- A committed sound effect changes only the four bytes of its store, for which it appends the event. -/
theorem event_of_changed_byte {i : Instr} {e : Effect} {s : State} {a : Nat} (hwf : s.mem.wf) (he : e.Sound i s)
    (h : byteAt (commit e s) a ≠ byteAt s a) :
    ∃ ev : StoreEvent, (commit e s).storeEvents = s.storeEvents ++ [ev] ∧ wordAddress ev.addr.toNat ∧
      ev.addr.toNat ≤ a ∧ a < ev.addr.toNat + 4 := by
  cases hst : e.store with
  | none => exact absurd ((storesNothing_commit s hst).1 a) h
  | some av =>
    obtain ⟨ea, v⟩ := av
    have hw : wordAddress ea.toNat := (admission_none_iff_wordAddress ea).1 (he.admitted (ea, v) hst)
    have hr : (regionOf ea.toNat 4).isSome = true := (regionOf_isSome_iff _ _).2 hw.2
    have inside : ea.toNat ≤ a ∧ a < ea.toNat + 4 := by
      by_contra hout
      refine h (byteAt_congr ?_)
      rw [commit_mem, memAfter_some e s hst]
      exact byte_setWord_outside v hwf hr (by omega)
    exact ⟨⟨ea, v⟩, eventsAfter_some e s hst, hw, inside⟩

/-- Settles O40: a fault changes no byte, a commit those of its store. -/
theorem changedByteWasStored : Obligations.ChangedByteWasStored := by
  intro s t a hwf h hne
  rcases step_next_cases h with ⟨r, rfl⟩ | ⟨i, e, _, _, he, rfl⟩
  · exact absurd rfl hne
  · exact event_of_changed_byte hwf he hne

/-! ## What a step reads (R72) -/

/-- The state with another fault record, history and trace: all that a step does not read. -/
def State.withUnread (s : State) (f : Option FaultRecord) (h : List StepRecord) (ev : List StoreEvent) : State :=
  { s with faultRecord := f, history := h, storeEvents := ev }

theorem eq_withUnread_of_sameInputs {s s' : State} (h : sameInputs s s') :
    s' = s.withUnread s'.faultRecord s'.history s'.storeEvents := by
  obtain ⟨hregs, hflags, hpc, hmem, hlen, hrun⟩ := h
  simp only [State.withUnread, ← hregs, ← hflags, ← hpc, ← hmem, ← hlen, ← hrun]

/-- The same effect committed, or the same fault entered, in two states. -/
def SameOutcome (x : State → Host.Outcome State Fault Refusal) (s s' : State) : Prop :=
  (∃ e : Effect, x s = .next (commit e s) ∧ x s' = .next (commit e s')) ∨
  ∃ r, x s = .next (faultedWith r s) ∧ x s' = .next (faultedWith r s')

section Unread
variable (s : State) (f : Option FaultRecord) (h : List StepRecord) (ev : List StoreEvent)

theorem load_withUnread (i : Instr) (t : RegNum) (ea : Word) :
    SameOutcome (fun s => .next (load i t ea s)) s (s.withUnread f h ev) := by
  cases ha : admission ea 4 with
  | none => exact .inl ⟨_, congrArg _ (load_of_admitted i t s ha), congrArg _ (load_of_admitted i t _ ha)⟩
  | some c => exact .inr ⟨_, congrArg _ (load_of_refused i t s ha), congrArg _ (load_of_refused i t _ ha)⟩

theorem store_withUnread (i : Instr) (t : RegNum) (ea : Word) :
    SameOutcome (fun s => .next (store i t ea s)) s (s.withUnread f h ev) := by
  cases ha : admission ea 4 with
  | none => exact .inl ⟨_, congrArg _ (store_of_admitted i t s ha), congrArg _ (store_of_admitted i t _ ha)⟩
  | some c => exact .inr ⟨_, congrArg _ (store_of_refused i t s ha), congrArg _ (store_of_refused i t _ ha)⟩

theorem exec_withUnread (i : Instr) : SameOutcome (exec i) s (s.withUnread f h ev) := by
  cases i with
  | ldrAbs t abs => exact load_withUnread s f h ev (.ldrAbs t abs) t (eaAbs abs)
  | ldrOff t n off => exact load_withUnread s f h ev (.ldrOff t n off) t (eaOff n off s)
  | strAbs t abs => exact store_withUnread s f h ev (.strAbs t abs) t (eaAbs abs)
  | strOff t n off => exact store_withUnread s f h ev (.strOff t n off) t (eaOff n off s)
  | _ => exact .inl ⟨_, rfl, rfl⟩

theorem step_withUnread (hs : s.runState.canStep = true) : SameOutcome step s (s.withUnread f h ev) := by
  rcases step_cases s hs with ⟨r, hr, hx⟩ | ⟨i, hi, hx⟩
  · rcases step_cases (s.withUnread f h ev) hs with ⟨r', hr', hx'⟩ | ⟨i, hi, _⟩
    · cases hr.symm.trans hr'
      exact .inr ⟨r, hx, hx'⟩
    · cases hr.symm.trans hi
  · rcases step_cases (s.withUnread f h ev) hs with ⟨r, hr, _⟩ | ⟨i', hi', hx'⟩
    · cases hi.symm.trans hr
    · cases hi.symm.trans hi'
      unfold SameOutcome
      rw [hx, hx']
      exact exec_withUnread s f h ev i

end Unread

theorem step_refused_iff (s : State) : step s = .refused .notReady ↔ s.runState.canStep = false := by
  refine ⟨fun h => ?_, step_refused s⟩
  by_contra hs
  obtain ⟨t, ht⟩ := step_answers ((canStep_iff _).1 (Bool.not_eq_false _ ▸ hs))
  cases ht.symm.trans h

/-- What an effect writes is computed from the inputs alone, whatever stands in the history and the trace. -/
theorem commit_sameInputs (e : Effect) {s s' : State} (h : sameInputs s s') :
    sameInputs (commit e s) (commit e s') ∧
    (∃ rs, (commit e s).history = rs ++ s.history ∧ (commit e s').history = rs ++ s'.history) ∧
    ∃ evs, (commit e s).storeEvents = s.storeEvents ++ evs ∧ (commit e s').storeEvents = s'.storeEvents ++ evs := by
  rw [eq_withUnread_of_sameInputs h]
  refine ⟨⟨rfl, rfl, rfl, rfl, rfl, rfl⟩, ⟨[stepRecord e s], rfl, rfl⟩, ?_⟩
  cases hst : e.store with
  | none => exact ⟨[], by simp [eventsAfter_none _ _ hst], by simp [eventsAfter_none _ _ hst]⟩
  | some av => exact ⟨[⟨av.1, av.2⟩], eventsAfter_some _ _ hst, eventsAfter_some _ _ hst⟩

/-- Settles O41: two states that agree on the inputs differ in what a step does not read, and commit one effect or enter one
fault. -/
theorem stepReadsOnlyItsInputs : Obligations.StepReadsOnlyItsInputs := by
  intro s s' hin
  obtain ⟨hregs, hflags, hpc, hmem, hlen, hrun⟩ := id hin
  refine ⟨by rw [step_refused_iff, step_refused_iff, hrun], fun t ht => ?_⟩
  have hout : SameOutcome step s s' := by
    rw [eq_withUnread_of_sameInputs hin]
    exact step_withUnread s _ _ _ (canStep_of_step_next s ht)
  rcases hout with ⟨e, hx, hx'⟩ | ⟨r, hx, hx'⟩ <;> cases hx.symm.trans ht
  · obtain ⟨hsame, hhist, hev⟩ := commit_sameInputs e hin
    exact ⟨_, hx', hsame, fun hf => absurd hf (runStateAfter_ne_faulted e), hhist, hev⟩
  · exact ⟨_, hx', ⟨hregs, hflags, hpc, hmem, hlen, rfl⟩, fun _ => rfl, ⟨[], rfl, rfl⟩,
      ⟨[], (List.append_nil _).symm, (List.append_nil _).symm⟩⟩

end Sys2Proof.Machine
end

section
/-! SUPPORT. What a store leaves for the load, the fetch and the observer after it, what stands outside the three regions, and
where a taken branch to a bad target faults (spec/20_memory.md R38, R44, R47, spec/60_exceptions.md R152, spec/44_branch.md
R131). -/

namespace Sys2Proof.Machine
open Sys2Proof.Claims

/-! ## After a committed store (R38, R44) -/

section Store
variable {i : Instr} {ea v : Word} {s t : State}

/-- An admitted `STR` has one next state: the commit of its address and word. -/
theorem eq_commit_of_storeOf (h : storeOf i s = some (ea, v)) (hw : wordAddress ea.toNat) (hx : exec i s = .next t) :
    t = commit { store := some (ea, v), nextPc := seqPc s } s := by
  cases (exec_of_storeOf_admitted h hw).symm.trans hx
  rfl

theorem wordAt_of_stored (hwf : s.mem.wf) (h : storeOf i s = some (ea, v)) (hw : wordAddress ea.toNat)
    (hx : exec i s = .next t) : t.mem.wordAt ea.toNat = v := by
  rw [eq_commit_of_storeOf h hw hx, commit_mem, memAfter_some _ s rfl]
  exact wordAt_setWord v hwf ((regionOf_isSome_iff _ _).2 hw.2)

end Store

/-- Settles O22: the load commits the word that stands at the address, which is the word stored. -/
theorem storeThenLoadReturnsWord : Obligations.StoreThenLoadReturnsWord := by
  intro i ea v s hwf h hw
  have hx := exec_of_storeOf_admitted h hw
  refine ⟨_, hx, fun j rt hload => ⟨_, exec_of_loadOf_admitted hload hw, ?_⟩⟩
  rw [getReg_commit_same _ _ rfl, wordAt_of_stored hwf h hw hx]

/-- Settles O23: the fetch reads the word that stands at `pc`, which is the word stored. -/
theorem storedCodeIsFetchedNext : Obligations.StoredCodeIsFetchedNext := by
  intro i ea v s t hwf h hw hx
  refine ⟨?codeLen, fun u hmem _ hpc hl => ?fetched⟩
  case codeLen => rw [eq_commit_of_storeOf h hw hx, commit_codeLen]
  case fetched => rw [fetch_of_loaded hl, hmem, hpc, wordAt_of_stored hwf h hw hx]

/-! ## The moves an observer reads (R152) -/

/-- The contract's table as a chain of tests. -/
theorem mailboxMeaning_toList (v : Word) :
    (mailboxMeaning v).toList =
      if v = 1 then [.up] else if v = 2 then [.down] else if v = 3 then [.left] else if v = 4 then [.right] else [] := by
  unfold mailboxMeaning
  simp only [BitVec.toNat_eq]
  split <;> simp_all

theorem move_toList (ea v : Word) :
    (StoreEvent.move ⟨ea, v⟩).toList = if ea = 0x30000 then (mailboxMeaning v).toList else [] := by
  have hbox : ea.toNat = Config.mailboxAddr ↔ ea = 0x30000 := (BitVec.toNat_eq (y := 0x30000)).symm
  by_cases hea : ea = 0x30000
  · simp only [StoreEvent.move, if_pos (hbox.2 hea), if_pos hea]
  · simp only [StoreEvent.move, if_neg (mt hbox.1 hea), if_neg hea, Option.toList_none]

theorem mailboxMoves_append {s t : State} {e : StoreEvent} (h : t.storeEvents = s.storeEvents ++ [e]) :
    mailboxMoves t = mailboxMoves s ++ e.move.toList := by
  rw [mailboxMoves, h, List.filterMap_append, mailboxMoves]
  cases hm : e.move <;> simp [hm]

/-- Settles O57: the one event of a committed store, and the move it is read as. -/
theorem mailboxStoresAreMoves : Obligations.MailboxStoresAreMoves := by
  intro i ea v s t h hw hx
  have hf : t.runState ≠ .faulted := fun hf => (exec_faulted_iff_of_storeOf h hx).1 hf hw
  rw [mailboxMoves_append (exec_storeEvents_of_storeOf h hx hf), move_toList, mailboxMeaning_toList]

/-! ## Outside the three regions (R47) -/

/-- The address is in none of the three ranges of R31. -/
abbrev Unmapped (a : Nat) : Prop :=
  ¬((0x10000 ≤ a ∧ a < 0x11000) ∨ (0x20000 ≤ a ∧ a < 0x21000) ∨ (0x30000 ≤ a ∧ a < 0x31000))

section Unmapped
variable {a : Nat} (h : Unmapped a)
include h

theorem byteAt_of_unmapped (s : State) : byteAt s a = none := if_neg (mt (backed_iff a).1 h)

theorem not_wordAddress_of_unmapped : ¬wordAddress a := by
  rintro ⟨_, hregion⟩
  omega

theorem not_loadedAtPc_of_unmapped {s : State} (hlen : s.codeLen ≤ 1024) (hpc : s.pc.toNat = a) : ¬loadedAtPc s := by
  rintro ⟨_, hbase, hend⟩
  omega

theorem hostRange_of_unmapped {n : Nat} (hn : n ≠ 0) : hostRange a n = false := by
  refine hostRange_false hn (Option.not_isSome_iff_eq_none.1 (mt (regionOf_isSome_iff a n).1 ?_))
  omega

end Unmapped

/-- Settles O24: the byte, the data access, the fetch and the host's two accesses at an unmapped address. -/
theorem unmappedAddressesHoldNothing : Obligations.UnmappedAddressesHoldNothing := by
  intro s a hlen h
  refine ⟨byteAt_of_unmapped h s, ?access, ?fetch, ?read, ?write⟩
  case access =>
    rintro i ea st hacc rfl haligned
    exact (faultsOutside_of_access hacc).2 haligned (not_wordAddress_of_unmapped h)
  case fetch =>
    intro hpc hs
    exact step_decodeAbsent ((canStep_iff _).2 hs) (not_loadedAtPc_of_unmapped h hlen hpc)
  case read =>
    intro n hn hs
    exact readMemory_memoryRange hs (hostRange_of_unmapped h (Nat.ne_of_gt hn))
  case write =>
    intro bs hne hs
    exact writeMemory_memoryRange hs (hostRange_of_unmapped h (mt List.length_eq_zero_iff.1 hne))

/-! ## A taken branch to a bad target (R131) -/

/-- Settles O27: the branch commits with the target as `pc`, where the next step finds no loaded instruction. -/
theorem badBranchTargetFaultsAtNextStep : Obligations.BadBranchTargetFaultsAtNextStep := by
  intro s c target hs hl hd hc hbad
  have hx : step s = .next (branch c target s) :=
    (step_of_decoded ((canStep_iff _).2 hs) hl hd).trans (exec_branchInstr s c target)
  have hpc : (branch c target s).pc = target.setWidth 32 := branch_pc_of_holds target hc
  have hpcNat : (branch c target s).pc.toNat = target.toNat := by
    rw [hpc]
    exact BitVec.toNat_setWidth_of_le (by decide)
  have not_loaded : ¬loadedAtPc (branch c target s) := by
    rw [loadedAtPc, hpcNat]
    exact hbad
  refine ⟨_, hx, rfl, rfl, ?_⟩
  rw [← hpc]
  exact step_decodeAbsent rfl not_loaded

end Sys2Proof.Machine
end

section
/-! SUPPORT. The invariant of every state after the first reset, kept by every step and every host operation, and reverse
stepping as the inverse of stepping (spec/60_exceptions.md R151, R154, R155, R157, spec/40_step_cycle.md R77). -/

namespace Sys2Proof.Machine
open Sys2Proof.Claims

/-! ## Undoing a commit (R76, R154) -/

section Undo
variable {e : Effect} {i : Instr} {s : State}

/-- The address of a sound effect's store lies in a region with its four bytes (R33). -/
theorem region_of_sound (he : e.Sound i s) {ea v : Word} (h : e.store = some (ea, v)) :
    (regionOf ea.toNat 4).isSome = true :=
  ((admit_none_iff ea 4).1 (he.admitted (ea, v) h)).2

theorem memAfter_wf (hwf : s.mem.wf) (he : e.Sound i s) : (memAfter e s).wf := by
  cases h : e.store with
  | none => rwa [memAfter_none e s h]
  | some av =>
    rw [memAfter_some e s h]
    exact setWord_wf av.2 hwf (region_of_sound he h)

theorem undoMem_stepRecord (hwf : s.mem.wf) (he : e.Sound i s) : undoMem (stepRecord e s) (memAfter e s) = s.mem := by
  cases h : e.store with
  | none => rw [undoMem_stepRecord_of_no_store _ s h, memAfter_none e s h]
  | some av =>
    have hback := writeBytes_back (bs := bytesOfWord av.2) hwf (region_of_sound he h)
    rw [undoMem_some _ (by rw [stepRecord_oldBytes, h, Option.map_some]), memAfter_some e s h]
    exact hback

/-- The record takes back everything but the store event (log 7). -/
theorem undo_commit (hwf : s.mem.wf) (he : e.Sound i s) :
    undo (stepRecord e s) s.history (commit e s) = { s with storeEvents := (commit e s).storeEvents } := by
  simp only [undo, commit_regs, commit_flags, commit_mem, commit_faultRecord, commit_codeLen, stepRecord_oldPc,
    stepRecord_oldRunState, undoRegs_stepRecord, oldFlags_stepRecord_getD, undoMem_stepRecord hwf he]

end Undo

theorem commit_undoable (e : Effect) (s : State) :
    (commit e s).runState = .running ∨ (commit e s).runState = .halted := by
  cases h : e.halts <;> simp [runStateAfter, h]

/-- Settles O45: the step committed, and its record is the newest. -/
theorem stepThenStepBackRestores : Obligations.StepThenStepBackRestores := by
  intro s t hwf h ht
  obtain ⟨i, e, _, _, he, rfl⟩ := step_committed h ht
  exact (stepBack_ok_iff _ _).2 ⟨commit_undoable e s, _, _, commit_history e s, (undo_commit hwf he).symm⟩

/-! ## Undoing a whole history (R155) -/

theorem undoAll_withEvents (rs : List StepRecord) (s : State) (ev : List StoreEvent) :
    undoAll rs { s with storeEvents := ev } = { undoAll rs s with storeEvents := ev } := by
  induction rs generalizing s with
  | nil => rfl
  | cons r rest ih => exact ih (undo r rest s)

/-- The machine that undoing the whole history leads back to. -/
def State.origin (s : State) : State := undoAll s.history s

theorem origin_of_no_history {s : State} (h : s.history = []) : s.origin = s := by
  rw [State.origin, h, undoAll]

theorem origin_undo {r : StepRecord} {rest : List StepRecord} {s : State} (h : s.history = r :: rest) :
    (undo r rest s).origin = s.origin := by
  rw [State.origin, State.origin, h, undo_history, undoAll]

/-- A committed step leads back to where the state before it does, but for the trace. -/
theorem origin_commit {e : Effect} {i : Instr} {s : State} (hwf : s.mem.wf) (he : e.Sound i s) :
    (commit e s).origin = { s.origin with storeEvents := (commit e s).storeEvents } := by
  rw [State.origin, commit_history, undoAll, undo_commit hwf he]
  exact undoAll_withEvents s.history s _

theorem fresh_withEvents {s : State} (ev : List StoreEvent) (h : s.fresh) : State.fresh { s with storeEvents := ev } := h

/-! ## The invariant by run state (R151) -/

theorem runStateInv_ready_iff {s : State} (h : s.runState = .ready) : s.runStateInv ↔ s.fresh := by
  simp only [State.runStateInv, h]

theorem runStateInv_running_iff {s : State} (h : s.runState = .running) : s.runStateInv ↔ s.history ≠ [] := by
  simp only [State.runStateInv, h]

theorem runStateInv_halted_iff {s : State} (h : s.runState = .halted) :
    s.runStateInv ↔ s.history ≠ [] ∧ s.mem.wordAt s.pc.toNat = 0x01000000 := by
  simp only [State.runStateInv, h]

theorem fresh_of_inv {s : State} (h : s.inv) (hs : s.runState = .ready) : s.fresh := by
  obtain ⟨_, _, _, hrun, _⟩ := h
  exact (runStateInv_ready_iff hs).1 hrun

theorem runState_ne_uninitialized_of_inv {s : State} (h : s.inv) : s.runState ≠ .uninitialized := by
  obtain ⟨_, _, _, hrun, _⟩ := h
  intro hu
  simp only [State.runStateInv, hu] at hrun

theorem history_of_fresh {s : State} (h : s.fresh) : s.history = [] := by
  obtain ⟨_, hnil, _⟩ := h
  exact hnil

/-! ## The invariant at reset and in a fault (R26, R151) -/

/-- Settles O42: the reset state is fresh, with no memory, no code, no history and no fault. -/
theorem resetSatisfiesInvariant : Obligations.ResetSatisfiesInvariant := by
  refine ⟨⟨List.Pairwise.nil, nofun⟩, Nat.zero_le _, by simp, ?fresh, trivial, by simp⟩
  case fresh => exact ⟨rfl, rfl, rfl, rfl, rfl⟩

theorem inv_faultedWith {s : State} (r : FaultRecord) (h : s.inv) : (faultedWith r s).inv := by
  obtain ⟨hwf, hlen, _, _, hsound, _⟩ := h
  exact ⟨hwf, hlen, by simp [faultedWith], trivial, hsound, by simp [faultedWith]⟩

/-! ## A committed step keeps the invariant (R71, R151) -/

/-- In `Ready` and `Running` a machine with the invariant holds no fault, its run state says whether it has a history, and
undoing that history leads to a fresh machine. -/
theorem canStep_of_inv {s : State} (h : s.inv) (hs : canStep s) :
    s.faultRecord = none ∧ s.runState = (if s.history = [] then .ready else .running) ∧ s.origin.fresh := by
  obtain ⟨_, _, hfault, hrun, _, hback⟩ := h
  rcases hs with hs | hs
  · have hfresh := (runStateInv_ready_iff hs).1 hrun
    have hnil := history_of_fresh hfresh
    refine ⟨hfault.2 (by simp [hs]), by simp [hs, hnil], ?_⟩
    rwa [origin_of_no_history hnil]
  · have hne := (runStateInv_running_iff hs).1 hrun
    exact ⟨hfault.2 (by simp [hs]), by simp [hs, hne], hback (.inl hs)⟩

theorem stepRecord_sound {e : Effect} {i : Instr} {s : State} (he : e.Sound i s)
    (hrun : s.runState = if s.history = [] then .ready else .running) : (stepRecord e s).sound s.history := by
  refine ⟨hrun, fun ab hab => ?_⟩
  obtain ⟨av, hav, rfl⟩ := Option.map_eq_some_iff.1 hab
  exact ⟨he.admitted av hav, readBytes_length _ _ _⟩

/-- Only `HLT` halts, on its own address, and it stores nothing: its word still stands at `pc`. -/
theorem runStateInv_commit {e : Effect} {i : Instr} {s : State} (he : e.Sound i s)
    (hd : decode (s.mem.wordAt s.pc.toNat) = some i) : (commit e s).runStateInv := by
  cases hh : e.halts with
  | false =>
    have hrun : (commit e s).runState = .running := by simp [runStateAfter, hh]
    exact (runStateInv_running_iff hrun).2 (List.cons_ne_nil _ _)
  | true =>
    obtain ⟨rfl, hpc, hstore⟩ := he.halting hh
    have hrun : (commit e s).runState = .halted := by simp [runStateAfter, hh]
    have hword : (commit e s).mem.wordAt (commit e s).pc.toNat = encode .hlt := by
      rw [commit_mem, memAfter_none e s hstore, commit_pc, hpc, encode_of_decode hd]
    exact (runStateInv_halted_iff hrun).2 ⟨List.cons_ne_nil _ _, hword⟩

theorem inv_commit {e : Effect} {i : Instr} {s : State} (h : s.inv) (hs : canStep s) (he : e.Sound i s)
    (hd : decode (s.mem.wordAt s.pc.toNat) = some i) : (commit e s).inv := by
  obtain ⟨hfault, hrun, horigin⟩ := canStep_of_inv h hs
  obtain ⟨hwf, hlen, _, _, hsound, _⟩ := h
  refine ⟨memAfter_wf hwf he, hlen, iff_of_true hfault (runStateAfter_ne_faulted e), runStateInv_commit he hd,
    ⟨stepRecord_sound he hrun, hsound⟩, fun _ => ?_⟩
  have hback := origin_commit hwf he
  unfold State.origin at hback
  rw [hback]
  exact fresh_withEvents _ horigin

/-- Settles O43: a step enters a fault or commits, and either keeps the invariant. -/
theorem stepKeepsInvariant : Obligations.StepKeepsInvariant := by
  intro s t hinv h
  have hs : canStep s := (canStep_iff _).1 (canStep_of_step_next s h)
  rcases step_next_cases h with ⟨r, rfl⟩ | ⟨i, e, _, hd, he, rfl⟩
  · exact inv_faultedWith r hinv
  · exact inv_commit hinv hs he hd

/-! ## Stepping back keeps the invariant (R154, R155) -/

theorem undoMem_wf {r : StepRecord} {rest : List StepRecord} {m : Memory} (hwf : m.wf) (hsound : r.sound rest) :
    (undoMem r m).wf := by
  cases h : r.oldBytes with
  | none => rwa [undoMem_none m h]
  | some ab =>
    obtain ⟨hadmitted, hlen⟩ : admission ab.1 4 = none ∧ ab.2.length = 4 := hsound.2 ab h
    rw [undoMem_some m h]
    exact writeBytes_wf_region hwf (hlen ▸ ((admit_none_iff ab.1 4).1 hadmitted).2)

/-- A state that a sound record leads back to is fresh where the record was the oldest, and has a history elsewhere. -/
theorem runStateInv_undo {r : StepRecord} {rest : List StepRecord} {s : State} (hsound : r.sound rest)
    (hfresh : (undo r rest s).origin.fresh) : (undo r rest s).runStateInv := by
  obtain ⟨hready, hrunning⟩ := oldRunState_of_sound rest hsound
  by_cases hrest : rest = []
  · subst hrest
    rw [origin_of_no_history rfl] at hfresh
    exact (runStateInv_ready_iff (hready.2 rfl)).2 hfresh
  · exact (runStateInv_running_iff (hrunning.2 hrest)).2 hrest

theorem oldRunState_ne_faulted {r : StepRecord} {rest : List StepRecord} (h : r.sound rest) :
    r.oldRunState ≠ .faulted := by
  rw [h.1]
  split <;> nofun

theorem inv_undo {r : StepRecord} {rest : List StepRecord} {s : State} (h : s.inv)
    (hs : s.runState = .running ∨ s.runState = .halted) (hh : s.history = r :: rest) : (undo r rest s).inv := by
  obtain ⟨hwf, hlen, hfault, _, hsound, hback⟩ := h
  have horigin : (undo r rest s).origin.fresh := by
    rw [origin_undo hh]
    exact hback hs
  rw [hh] at hsound
  obtain ⟨hr, hrest⟩ := hsound
  exact ⟨undoMem_wf hwf hr, hlen,
    iff_of_true (hfault.2 (runState_ne_faulted_of_undoable hs)) (oldRunState_ne_faulted hr),
    runStateInv_undo hr horigin, hrest, fun _ => horigin⟩

/-- Undoing the history record by record keeps the invariant: where a record is left, the machine is `Running` or `Halted`. -/
theorem inv_undoAll {rs : List StepRecord} {s : State} (h : s.inv) (hf : s.runState ≠ .faulted) (hrs : s.history = rs) :
    (undoAll rs s).inv := by
  induction rs generalizing s with
  | nil => exact h
  | cons r rest ih =>
    have hs := (history_ne_nil_iff_of_inv h hf).1 (by simp [hrs])
    have hr : r.sound rest := by
      obtain ⟨_, _, _, _, hsound, _⟩ := h
      rw [hrs] at hsound
      exact hsound.1
    exact ih (inv_undo h hs hrs) (oldRunState_ne_faulted hr) rfl

/-! ## The host's writes keep the invariant (R45, R173) -/

/-- In `Ready` a host may put any canonical memory and any `code_len` in its range. -/
theorem inv_withMemory {s : State} {m : Memory} {len : Nat} (h : s.inv) (hs : s.runState = .ready) (hm : m.wf)
    (hlen : len ≤ Config.codeWords) : State.inv { s with mem := m, codeLen := len } := by
  have hfresh := fresh_of_inv h hs
  obtain ⟨_, _, hfault, _, hsound, _⟩ := h
  refine ⟨hm, hlen, hfault, (runStateInv_ready_iff ?ready).2 ?fresh, hsound, by simp [hs]⟩
  case ready => exact hs
  case fresh => exact hfresh

theorem loadedMem_wf {ws : List Word} {m : Memory} (hm : m.wf) (hlen : ws.length ≤ 1024) : (loadedMem ws m).wf :=
  writeBytes_wf _ _ _ (zeroRange_wf m _ _ hm) (backed_of_code_words hlen)

theorem inv_loadCode {ws : List Word} {s t : State} (h : s.inv) (ht : loadCode ws s = .ok t) : t.inv := by
  obtain ⟨hs, hlen, rfl⟩ := (loadCode_ok_iff s ws t).1 ht
  exact inv_withMemory h hs (loadedMem_wf h.1 hlen) hlen

theorem inv_writeMemory {a : Nat} {bs : List Byte} {s t : State} (h : s.inv) (ht : writeMemory a bs s = .ok t) :
    t.inv := by
  obtain ⟨hs, hr, rfl⟩ := (writeMemory_ok_iff s a bs t).1 ht
  exact inv_withMemory h hs (writeBytes_wf bs s.mem a h.1 fun _ => backed_of_hostRange hr) h.2.1

theorem inv_stepBack {s t : State} (h : s.inv) (ht : stepBack s = .ok t) : t.inv := by
  obtain ⟨hs, r, rest, hh, rfl⟩ := (stepBack_ok_iff s t).1 ht
  exact inv_undo h hs hh

/-- `replayToStart` leads to the origin in every run state but `Faulted` (R155). -/
theorem replayToStart_eq_origin {s : State} (h : s.inv) (hf : s.runState ≠ .faulted) : replayToStart s = .ok s.origin := by
  unfold replayToStart
  cases hr : s.runState with
  | uninitialized => exact absurd hr (runState_ne_uninitialized_of_inv h)
  | ready => rw [origin_of_no_history (history_of_fresh (fresh_of_inv h hr))]
  | running => rfl
  | halted => rfl
  | faulted => exact absurd hr hf

theorem inv_replayToStart {s t : State} (h : s.inv) (ht : replayToStart s = .ok t) : t.inv := by
  have hf : s.runState ≠ .faulted := by
    intro hf
    simp [replayToStart, hf] at ht
  cases (replayToStart_eq_origin h hf).symm.trans ht
  exact inv_undoAll h hf rfl

/-! ## Every host operation and every session (R157) -/

/-- An operation that answers a state keeps the invariant where that state has it: a refusal leaves the state before. -/
theorem inv_answer {s : State} {reply : State → Reply} {x : Except Refusal State} (h : s.inv)
    (hx : ∀ t, x = .ok t → t.inv) : (answer s reply x).1.inv := by
  cases x with
  | ok t => exact hx t rfl
  | error r => exact h

theorem performStep_cases (s : State) :
    (∃ t, step s = .next t ∧ performStep s = (t, .stepped (stepOutcome t) (snapshot t))) ∨
    step s = .refused .notReady ∧ performStep s = (s, .refused .notReady) := by
  by_cases hs : canStep s
  · obtain ⟨t, ht⟩ := step_answers hs
    exact .inl ⟨t, ht, by simp only [performStep, ht]⟩
  · have hx := step_refused s (canStep_eq_false hs)
    exact .inr ⟨hx, by simp only [performStep, hx]⟩

theorem inv_perform {s : State} (op : HostOp) (h : s.inv) : (perform op s).1.inv := by
  cases op with
  | initMachine | reset => exact resetSatisfiesInvariant
  | loadCode ws => exact inv_answer h fun _ => inv_loadCode h
  | writeMemory a bs => exact inv_answer h fun _ => inv_writeMemory h
  | stepBack => exact inv_answer h fun _ => inv_stepBack h
  | replayToStart => exact inv_answer h fun _ => inv_replayToStart h
  | step =>
    rw [perform]
    rcases performStep_cases s with ⟨t, ht, hx⟩ | ⟨_, hx⟩ <;> rw [hx]
    · exact stepKeepsInvariant s t h ht
    · exact h
  | readMemory | getAllRegisters | canStepBack | canStepForward | assemble => exact h

theorem inv_performAll (ops : List HostOp) {s : State} (h : s.inv) : (performAll ops s).inv := by
  induction ops generalizing s with
  | nil => exact h
  | cons op ops ih => exact ih (inv_perform op h)

/-- Settles O44: operation by operation, and a session by its list from the reset state. -/
theorem hostOperationsKeepInvariant : Obligations.HostOperationsKeepInvariant :=
  ⟨fun op _ => inv_perform op, fun ops _ => inv_performAll ops resetSatisfiesInvariant⟩

/-! ## Replaying a run (R155) -/

/-- A run that goes on after a step did not fault in it: a faulted machine is refused its next step. -/
theorem step_of_run_succ {n : Nat} {s t : State} (h : Sys2Proof.core.run (n + 1) s = .next t) (ht : t.runState ≠ .faulted) :
    ∃ u, step s = .next u ∧ u.runState ≠ .faulted ∧ Sys2Proof.core.run n u = .next t := by
  cases hs : step s with
  | refused r => cases (run_succ_refused hs).symm.trans h
  | fault f => exact nomatch f
  | next u =>
    have hrun := (run_succ_next hs).symm.trans h
    refine ⟨u, rfl, fun hf => ?_, hrun⟩
    cases n with
    | zero =>
      cases hrun
      exact ht hf
    | succ n => cases (run_succ_refused (step_refused u (by rw [hf, RunState.canStep]))).symm.trans hrun

/-- Along a run the invariant is kept, and the origin moves in its trace alone. -/
theorem run_inv_and_origin {n : Nat} {s t : State} (h : s.inv) (hrun : Sys2Proof.core.run n s = .next t)
    (ht : t.runState ≠ .faulted) : t.inv ∧ ∃ ev, t.origin = { s.origin with storeEvents := ev } := by
  induction n generalizing s with
  | zero =>
    cases hrun
    exact ⟨h, _, rfl⟩
  | succ n ih =>
    obtain ⟨u, hu, huf, hrest⟩ := step_of_run_succ hrun ht
    obtain ⟨i, e, _, _, he, rfl⟩ := step_committed hu huf
    obtain ⟨hinv, ev, hev⟩ := ih (stepKeepsInvariant s _ h hu) hrest
    refine ⟨hinv, ev, ?_⟩
    rw [hev, origin_commit h.1 he]

theorem origin_storeEvents (s : State) : s.origin.storeEvents = s.storeEvents := undoAll_storeEvents _ s

/-- Settles O46: the origin of the state reached is that of the loaded machine, which is the machine itself. -/
theorem replayRestoresLoadedMachine : Obligations.ReplayRestoresLoadedMachine := by
  intro n s t h hs hrun ht
  obtain ⟨hinv, ev, hev⟩ := run_inv_and_origin h hrun ht
  have hstart : s.origin = s := origin_of_no_history (history_of_fresh (fresh_of_inv h hs))
  have htrace : t.storeEvents = ev := by rw [← origin_storeEvents, hev]
  rw [replayToStart_eq_origin hinv ht, hev, hstart, htrace]

end Sys2Proof.Machine
end

section
/-! SUPPORT. The host interface as a whole: which operation is refused in which run state and what a refusal leaves, what changes
`code_len`, and the boot (spec/60_exceptions.md R149, R157, spec/10_state.md R21, spec/70_reset_and_hazards.md R171, R174). -/

namespace Sys2Proof.Machine
open Sys2Proof.Claims

/-! ## What an operation answers (R149) -/

/-- An operation that answers a state does so with its reply, or is refused in the state before. -/
theorem answer_cases (s : State) (reply : State → Reply) (x : Except Refusal State) :
    (∃ t, x = .ok t ∧ answer s reply x = (t, reply t)) ∨ ∃ r, x = .error r ∧ answer s reply x = (s, .refused r) := by
  cases x with
  | ok t => exact .inl ⟨t, rfl, rfl⟩
  | error r => exact .inr ⟨r, rfl, rfl⟩

/-- Such an operation, refused, leaves the state: its replies to an answered state are no refusals. -/
theorem answer_state_of_refused {s : State} {reply : State → Reply} {x : Except Refusal State} {r : Refusal}
    (hreply : ∀ t, reply t ≠ .refused r) (h : (answer s reply x).2 = .refused r) : (answer s reply x).1 = s := by
  rcases answer_cases s reply x with ⟨t, _, hx⟩ | ⟨r', _, hx⟩ <;> rw [hx] at h ⊢
  exact absurd h (hreply t)

/-- Settles O51: the operations that can move the state answer one or are refused; the others never move it, and `reset` is
never refused. -/
theorem refusedOperationsChangeNothing : Obligations.RefusedOperationsChangeNothing := by
  intro op s r h
  cases op with
  | initMachine | reset => cases h
  | loadCode | writeMemory | stepBack | replayToStart => exact answer_state_of_refused (fun _ => by simp) h
  | step =>
    rw [perform] at h ⊢
    rcases performStep_cases s with ⟨t, _, hx⟩ | ⟨_, hx⟩ <;> rw [hx] at h ⊢
    cases h
  | readMemory | getAllRegisters | canStepBack | canStepForward | assemble => rfl

/-! ## What changes `code_len` (R21) -/

theorem step_codeLen {s t : State} (h : step s = .next t) : t.codeLen = s.codeLen := by
  rcases step_next_cases h with ⟨r, rfl⟩ | ⟨i, e, _, _, _, rfl⟩
  · rfl
  · exact commit_codeLen e s

theorem undoAll_codeLen (rs : List StepRecord) (s : State) : (undoAll rs s).codeLen = s.codeLen := by
  induction rs generalizing s with
  | nil => rfl
  | cons r rest ih => exact ih (undo r rest s)

theorem stepBack_codeLen {s t : State} (h : stepBack s = .ok t) : t.codeLen = s.codeLen := by
  obtain ⟨_, r, rest, _, rfl⟩ := (stepBack_ok_iff s t).1 h
  exact undo_codeLen s r rest

theorem replayToStart_codeLen {s t : State} (h : replayToStart s = .ok t) : t.codeLen = s.codeLen := by
  rcases replayToStart_ok h with rfl | rfl
  · rfl
  · exact undoAll_codeLen _ s

theorem writeMemory_codeLen {a : Nat} {bs : List Byte} {s t : State} (h : writeMemory a bs s = .ok t) :
    t.codeLen = s.codeLen := by
  obtain ⟨_, _, rfl⟩ := (writeMemory_ok_iff s a bs t).1 h
  rfl

theorem answer_codeLen {s : State} {reply : State → Reply} {x : Except Refusal State}
    (hx : ∀ t, x = .ok t → t.codeLen = s.codeLen) : (answer s reply x).1.codeLen = s.codeLen := by
  rcases answer_cases s reply x with ⟨t, ht, h⟩ | ⟨r, _, h⟩ <;> rw [h]
  exact hx t ht

theorem performStep_codeLen (s : State) : (performStep s).1.codeLen = s.codeLen := by
  rcases performStep_cases s with ⟨t, ht, hx⟩ | ⟨_, hx⟩ <;> rw [hx]
  exact step_codeLen ht

/-- Settles O50: operation by operation, then the step and `loadCode` themselves. -/
theorem codeLenChangedByResetAndLoadOnly : Obligations.CodeLenChangedByResetAndLoadOnly := by
  refine ⟨fun op s h => ?operations, fun _ _ => step_codeLen, fun ws s t h => ?loaded⟩
  case operations =>
    cases op with
    | reset => exact .inl rfl
    | initMachine => exact .inr (.inl rfl)
    | loadCode ws => exact .inr (.inr ⟨ws, rfl⟩)
    | writeMemory => exact (h (answer_codeLen fun _ => writeMemory_codeLen)).elim
    | stepBack => exact (h (answer_codeLen fun _ => stepBack_codeLen)).elim
    | replayToStart => exact (h (answer_codeLen fun _ => replayToStart_codeLen)).elim
    | step => exact (h (performStep_codeLen s)).elim
    | readMemory | getAllRegisters | canStepBack | canStepForward | assemble => exact absurd rfl h
  case loaded =>
    obtain ⟨_, hlen, rfl⟩ := (loadCode_ok_iff s ws t).1 h
    exact ⟨rfl, hlen⟩

/-! ## The table of operations and run states (R157) -/

/-- The operation does in this state what its cell of the table says. -/
def AnswersCell (op : HostOp) (s : State) : Prop :=
  (∀ r, tableCell op s.runState = some r → perform op s = (s, .refused r)) ∧
  (tableCell op s.runState = none →
    (perform op s).2 ≠ .refused .notReady ∧ (perform op s).2 ≠ .refused .nothingToUndo)

section Cells
variable {op : HostOp} {s : State}

theorem answersCell_of_refused {r : Refusal} (hcell : tableCell op s.runState = some r)
    (h : perform op s = (s, .refused r)) : AnswersCell op s := by
  refine ⟨fun r' hr' => ?_, fun hnone => ?_⟩
  · cases hcell.symm.trans hr'
    exact h
  · cases hcell.symm.trans hnone

theorem answersCell_of_performed {reply : Reply} (hcell : tableCell op s.runState = none) (h : (perform op s).2 = reply)
    (hreply : reply ≠ .refused .notReady ∧ reply ≠ .refused .nothingToUndo) : AnswersCell op s := by
  refine ⟨fun r hr => ?_, fun _ => ?_⟩
  · cases hcell.symm.trans hr
  · rwa [h]

end Cells

section Operations
variable (s : State)

theorem tableCell_loadCode {r : RunState} (ws : List Word) (h : r ≠ .ready) :
    tableCell (.loadCode ws) r = some .notReady := by
  cases r with
  | ready => exact absurd rfl h
  | _ => rfl

theorem tableCell_writeMemory {r : RunState} (a : Nat) (bs : List Byte) (h : r ≠ .ready) :
    tableCell (.writeMemory a bs) r = some .notReady := by
  cases r with
  | ready => exact absurd rfl h
  | _ => rfl

theorem tableCell_readMemory {r : RunState} (a n : Nat) (h : r ≠ .uninitialized) :
    tableCell (.readMemory a n) r = none := by
  cases r with
  | uninitialized => exact absurd rfl h
  | _ => rfl

theorem tableCell_getAllRegisters {r : RunState} (h : r ≠ .uninitialized) : tableCell .getAllRegisters r = none := by
  cases r with
  | uninitialized => exact absurd rfl h
  | _ => rfl

theorem tableCell_step (r : RunState) : tableCell .step r = if r.canStep then none else some .notReady := by
  cases r <;> rfl

theorem answersCell_loadCode (ws : List Word) : AnswersCell (.loadCode ws) s := by
  by_cases hs : s.runState = .ready
  · have hcell : tableCell (.loadCode ws) s.runState = none := by rw [hs, tableCell]
    by_cases hlen : ws.length ≤ 1024
    · have hx : (perform (.loadCode ws) s).2 = .done := by simp only [perform, loadCode_ok hs hlen, answer]
      exact answersCell_of_performed hcell hx (by simp)
    · have hx := perform_loadCode_refused (loadCode_loadRange hs (Nat.lt_of_not_le hlen))
      exact answersCell_of_performed hcell (congrArg Prod.snd hx) (by simp)
  · exact answersCell_of_refused (tableCell_loadCode ws hs) (perform_loadCode_refused (loadCode_notReady hs))

theorem answersCell_writeMemory (a : Nat) (bs : List Byte) : AnswersCell (.writeMemory a bs) s := by
  by_cases hs : s.runState = .ready
  · have hcell : tableCell (.writeMemory a bs) s.runState = none := by rw [hs, tableCell]
    cases hr : hostRange a bs.length with
    | true =>
      have hx : (perform (.writeMemory a bs) s).2 = .done := by simp only [perform, writeMemory_ok hs hr, answer]
      exact answersCell_of_performed hcell hx (by simp)
    | false =>
      have hx := perform_writeMemory_refused (writeMemory_memoryRange hs hr)
      exact answersCell_of_performed hcell (congrArg Prod.snd hx) (by simp)
  · exact answersCell_of_refused (tableCell_writeMemory a bs hs) (perform_writeMemory_refused (writeMemory_notReady hs))

theorem answersCell_readMemory (a n : Nat) : AnswersCell (.readMemory a n) s := by
  by_cases hs : s.runState = .uninitialized
  · have hcell : tableCell (.readMemory a n) s.runState = some .notReady := by rw [hs, tableCell]
    exact answersCell_of_refused hcell (perform_readMemory_refused (readMemory_notReady hs))
  · cases hr : hostRange a n with
    | true =>
      have hx : (perform (.readMemory a n) s).2 = .bytes (s.mem.readBytes a n) := by
        simp only [perform, readMemory_ok hs hr, answerRead]
      exact answersCell_of_performed (tableCell_readMemory a n hs) hx (by simp)
    | false =>
      have hx := perform_readMemory_refused (readMemory_memoryRange hs hr)
      exact answersCell_of_performed (tableCell_readMemory a n hs) (congrArg Prod.snd hx) (by simp)

theorem answersCell_getAllRegisters : AnswersCell .getAllRegisters s := by
  by_cases hs : s.runState = .uninitialized
  · have hcell : tableCell .getAllRegisters s.runState = some .notReady := by rw [hs, tableCell]
    exact answersCell_of_refused hcell (by simp only [perform, getAllRegisters, if_pos hs, answerRead])
  · have hx : (perform .getAllRegisters s).2 = .registers (registerView s) := by
      simp only [perform, getAllRegisters_ok hs, answerRead]
    exact answersCell_of_performed (tableCell_getAllRegisters hs) hx (by simp)

theorem answersCell_step : AnswersCell .step s := by
  have hcell := tableCell_step s.runState
  rcases performStep_cases s with ⟨t, ht, hx⟩ | ⟨hr, hx⟩
  · rw [canStep_of_step_next s ht, if_pos rfl] at hcell
    exact answersCell_of_performed hcell (congrArg Prod.snd hx) (by simp)
  · rw [(step_refused_iff s).1 hr, if_neg Bool.false_ne_true] at hcell
    exact answersCell_of_refused hcell hx

/-- Where there is a history, the newest record is undone (log 9). -/
theorem answersCell_stepBack (hh : s.runState = .running ∨ s.runState = .halted → s.history ≠ []) :
    AnswersCell .stepBack s := by
  have refused : ∀ r, stepBack s = .error r → perform .stepBack s = (s, .refused r) := by
    intro r h
    simp only [perform, h, answer]
  have undone : s.runState = .running ∨ s.runState = .halted →
      ∃ v, (perform .stepBack s).2 = .snapshot v := by
    intro hs
    obtain ⟨r, rest, hcons⟩ := List.exists_cons_of_ne_nil (hh hs)
    have hx := (stepBack_ok_iff s _).2 ⟨hs, r, rest, hcons, rfl⟩
    exact ⟨_, by simp only [perform, hx, answer]; rfl⟩
  cases hs : s.runState with
  | uninitialized => exact answersCell_of_refused (by rw [hs]; rfl) (refused _ (stepBack_notReady (.inl hs)))
  | faulted => exact answersCell_of_refused (by rw [hs]; rfl) (refused _ (stepBack_notReady (.inr hs)))
  | ready => exact answersCell_of_refused (by rw [hs]; rfl) (refused _ (stepBack_ready hs))
  | running =>
    obtain ⟨v, hv⟩ := undone (.inl hs)
    exact answersCell_of_performed (by rw [hs]; rfl) hv (by simp)
  | halted =>
    obtain ⟨v, hv⟩ := undone (.inr hs)
    exact answersCell_of_performed (by rw [hs]; rfl) hv (by simp)

theorem answersCell_replayToStart : AnswersCell .replayToStart s := by
  have refused : ∀ r, replayToStart s = .error r → perform .replayToStart s = (s, .refused r) := by
    intro r h
    simp only [perform, h, answer]
  have replayed : ∀ t, replayToStart s = .ok t → (perform .replayToStart s).2 = .snapshot (snapshot t) := by
    intro t h
    simp only [perform, h, answer]
  cases hs : s.runState with
  | uninitialized => exact answersCell_of_refused (by rw [hs]; rfl) (refused _ (by rw [replayToStart, hs]))
  | faulted => exact answersCell_of_refused (by rw [hs]; rfl) (refused _ (by rw [replayToStart, hs]))
  | ready =>
    exact answersCell_of_performed (by rw [hs]; rfl) (replayed _ (by rw [replayToStart, hs])) (by simp)
  | running =>
    exact answersCell_of_performed (by rw [hs]; rfl) (replayed _ (by rw [replayToStart, hs])) (by simp)
  | halted =>
    exact answersCell_of_performed (by rw [hs]; rfl) (replayed _ (by rw [replayToStart, hs])) (by simp)

theorem answersCell_assemble (src : List Char) : AnswersCell (.assemble src) s := by
  cases hx : assemble src with
  | ok ws =>
    have hreply : (perform (.assemble src) s).2 = .words ws := by simp only [perform, assembleReply, hx]
    exact answersCell_of_performed rfl hreply (by simp)
  | error e =>
    have hreply : (perform (.assemble src) s).2 = .asmError e := by simp only [perform, assembleReply, hx]
    exact answersCell_of_performed rfl hreply (by simp)

theorem perform_answersCell (op : HostOp) (hh : s.runState = .running ∨ s.runState = .halted → s.history ≠ []) :
    AnswersCell op s := by
  cases op with
  | initMachine | reset => exact answersCell_of_performed (reply := .done) rfl rfl (by simp)
  | loadCode ws => exact answersCell_loadCode s ws
  | writeMemory a bs => exact answersCell_writeMemory s a bs
  | readMemory a n => exact answersCell_readMemory s a n
  | getAllRegisters => exact answersCell_getAllRegisters s
  | step => exact answersCell_step s
  | stepBack => exact answersCell_stepBack s hh
  | replayToStart => exact answersCell_replayToStart s
  | canStepBack => exact answersCell_of_performed (reply := .verdict (canStepBack s)) rfl rfl (by simp)
  | canStepForward => exact answersCell_of_performed (reply := .verdict (canStepForward s)) rfl rfl (by simp)
  | assemble src => exact answersCell_assemble s src

end Operations

/-- Settles O52: the cells operation by operation, and the two predicates by run state. -/
theorem operationValidityTable : Obligations.OperationValidityTable := by
  intro op s hh
  obtain ⟨hrefused, hperformed⟩ := perform_answersCell s op hh
  have hback : canStepBack s = decide (s.runState = .running ∨ s.runState = .halted) := by
    rw [Bool.eq_iff_iff, canStepBack_iff, decide_eq_true_iff]
  have hforward : canStepForward s = decide (s.runState = .ready ∨ s.runState = .running) := by
    rw [Bool.eq_iff_iff, canStepForward_iff, decide_eq_true_iff]
  exact ⟨hrefused, hperformed, congrArg Reply.verdict hback, congrArg Reply.verdict hforward⟩

/-! ## Before the first reset (R171) -/

/-- In `Uninitialized` the table refuses every operation that would read or use the contents. -/
theorem perform_uninitialized_refused {op : HostOp} {s : State} (hs : s.runState = .uninitialized)
    (hcell : tableCell op .uninitialized = some .notReady) : perform op s = (s, .refused .notReady) :=
  (perform_answersCell s op fun h => by simp [hs] at h).1 _ (hs ▸ hcell)

theorem verdicts_uninitialized {s : State} (hs : s.runState = .uninitialized) :
    canStepBack s = false ∧ canStepForward s = false := by
  simp [canStepBack, canStepForward, RunState.canStep, hs]

/-- The operations of `Uninitialized`: refused by the table, a reset, or an answer that no contents enter. -/
theorem perform_uninitialized {s s' : State} (op : HostOp) (hs : s.runState = .uninitialized)
    (hs' : s'.runState = .uninitialized) :
    (perform op s).2 = (perform op s').2 ∧ (op ≠ .reset → op ≠ .initMachine → (perform op s).1 = s) := by
  have refused (hcell : tableCell op .uninitialized = some .notReady) :
      (perform op s).2 = (perform op s').2 ∧ (op ≠ .reset → op ≠ .initMachine → (perform op s).1 = s) := by
    rw [perform_uninitialized_refused hs hcell, perform_uninitialized_refused hs' hcell]
    exact ⟨rfl, fun _ _ => rfl⟩
  have hverdicts := verdicts_uninitialized hs
  have hverdicts' := verdicts_uninitialized hs'
  cases op with
  | initMachine => exact ⟨rfl, fun _ h => absurd rfl h⟩
  | reset => exact ⟨rfl, fun h => absurd rfl h⟩
  | assemble => exact ⟨rfl, fun _ _ => rfl⟩
  | canStepBack => exact ⟨congrArg Reply.verdict (hverdicts.1.trans hverdicts'.1.symm), fun _ _ => rfl⟩
  | canStepForward => exact ⟨congrArg Reply.verdict (hverdicts.2.trans hverdicts'.2.symm), fun _ _ => rfl⟩
  | _ => exact refused rfl

/-- Settles O53: two machines before their first reset answer alike, and the table refuses what would use the contents. -/
theorem uninitializedIsUnobservable : Obligations.UninitializedIsUnobservable := by
  intro op s s' hs hs'
  obtain ⟨hreply, hstate⟩ := perform_uninitialized op hs hs'
  refine ⟨hreply, hstate, ?reset, ?refused⟩
  case reset => rintro (rfl | rfl) <;> exact ⟨rfl, rfl⟩
  case refused =>
    rintro ws a bs n (rfl | rfl | rfl | rfl | rfl | rfl | rfl) <;>
      exact congrArg Prod.snd (perform_uninitialized_refused hs rfl)

/-! ## The boot (R174) -/

section PreSeed

/-- A block that the host may write and that is not in the code region ends below it or begins above it. -/
theorem block_off_code {a n : Nat} (hr : hostRange a n = true) (hne : n = 0 ∨ regionOf a n ≠ some .code) {x : Nat}
    (h1 : 0x10000 ≤ x) (h2 : x < 0x11000) : x < a ∨ a + n ≤ x := by
  rcases (hostRange_iff a n).1 hr with rfl | hsome
  · omega
  · rcases hne with rfl | hne
    · omega
    · have hcode : ¬(0x10000 ≤ a ∧ a + n ≤ 0x11000) := fun h => hne (regionOf_eq_code h.1 h.2)
      rw [regionOf_isSome_iff] at hsome
      omega

/-- Writing an admissible image in `Ready` changes the memory alone, and the code region only by a block in it. -/
theorem preSeed_ok {image : List (Nat × List Byte)} {s : State} (hwf : s.mem.wf) (hs : s.runState = .ready)
    (hr : ∀ blk ∈ image, hostRange blk.1 blk.2.length = true) :
    ∃ m, preSeed image s = .ok { s with mem := m } ∧
      ((∀ blk ∈ image, blk.2.length = 0 ∨ regionOf blk.1 blk.2.length ≠ some .code) →
        ∀ x, 0x10000 ≤ x → x < 0x11000 → m.byte x = s.mem.byte x) := by
  induction image generalizing s with
  | nil => exact ⟨s.mem, rfl, fun _ _ _ _ => rfl⟩
  | cons blk image ih =>
    obtain ⟨a, bs⟩ := blk
    have hblk : hostRange a bs.length = true := hr (a, bs) List.mem_cons_self
    have hb : ∀ z, a ≤ z → z < a + bs.length → backed z = true := fun _ => backed_of_hostRange hblk
    obtain ⟨m, hm, hsame⟩ := ih (s := { s with mem := s.mem.writeBytes a bs }) (writeBytes_wf bs s.mem a hwf hb) hs
      fun blk h => hr blk (List.mem_cons_of_mem _ h)
    refine ⟨m, ?written, fun hoff x h1 h2 => ?kept⟩
    case written => rw [preSeed, writeMemory_ok hs hblk]; exact hm
    case kept =>
      rw [hsame (fun blk h => hoff blk (List.mem_cons_of_mem _ h)) x h1 h2]
      exact byte_writeBytes_off_range hwf hb (block_off_code hblk (hoff (a, bs) List.mem_cons_self) h1 h2)

end PreSeed

/-- The word at `CODE_BASE` where the code region reads as `loadCode` left it. -/
theorem wordAt_codeBase {w : Word} {rest : List Word} {m : Memory} (hlen : (w :: rest).length ≤ 1024)
    (hm : ∀ x, 0x10000 ≤ x → x < 0x11000 → m.byte x = (loadedMem (w :: rest) []).byte x) :
    m.wordAt 0x10000 = w := by
  have hbyte : ∀ k, k < 4 → m.byte (0x10000 + k) = byteOfWord w k := by
    intro k hk
    rw [hm _ (by omega) (by omega)]
    exact byte_loadedMem_word (i := 0) ⟨List.Pairwise.nil, nofun⟩ hlen rfl hk
  have h0 : m.byte 0x10000 = byteOfWord w 0 := hbyte 0 (by omega)
  rw [Memory.wordAt, h0, hbyte 1 (by omega), hbyte 2 (by omega), hbyte 3 (by omega), wordOfBytes_bytes]

theorem loadedAtPc_codeBase {s : State} (hpc : s.pc = Config.resetPc) (hlen : 0 < s.codeLen) : loadedAtPc s := by
  have hbase : s.pc.toNat = 0x10000 := by rw [hpc]; rfl
  rw [loadedAtPc, hbase]
  omega

/-- Settles O56: the boot is `loadCode` on the reset machine and then the image; word 0 stands at `pc` where no block of the
image covers it, and with no words nothing is loaded there. -/
theorem bootExecutesFirstWord : Obligations.BootExecutesFirstWord := by
  intro ws image s hlen himage
  have hload := loadCode_ok (ws := ws) reset_runState hlen
  obtain ⟨m, hm, hsame⟩ := preSeed_ok (image := image)
    (s := { State.reset with mem := loadedMem ws [], codeLen := ws.length })
    (loadedMem_wf ⟨List.Pairwise.nil, nofun⟩ hlen) rfl
    fun blk h => (hostRange_iff _ _).2 ((himage blk h).imp_left List.length_eq_zero_iff.2)
  refine ⟨{ State.reset with mem := m, codeLen := ws.length }, ?booted, rfl, rfl, rfl, ?first, ?nothing⟩
  case booted =>
    rw [boot, resetMachine, hload]
    exact hm
  case first =>
    rintro hoff w rest i rfl hd
    have hword := wordAt_codeBase hlen (hsame fun blk h => (hoff blk h).imp_left List.length_eq_zero_iff.2)
    exact step_of_decoded rfl (loadedAtPc_codeBase rfl (Nat.succ_pos rest.length)) ((congrArg decode hword).trans hd)
  case nothing =>
    rintro rfl
    exact step_decodeAbsent rfl (not_loadedAtPc_of_no_code rfl)

end Sys2Proof.Machine
end

section
/-! SUPPORT. A statement and its instruction: numbers in range and the fields that hold them determine each other
(spec/30_encoding.md R53, R61, R63). -/

namespace Sys2Proof.Machine

/-! ## A number in range and its field (R53) -/

section Fields
variable {n : Nat} {v : Int}

@[simp] theorem regInRange_toNat (r : RegNum) : regInRange r.toNat = true := decide_eq_true r.isLt

@[simp] theorem fitsU20_toNat (x : Imm20) : fitsU20 (x.toNat : Int) = true := by
  have hlt : x.toNat < 2 ^ 20 := x.isLt
  exact decide_eq_true (by omega)

@[simp] theorem fitsU16_toNat (x : Imm16) : fitsU16 (x.toNat : Int) = true := by
  have hlt : x.toNat < 2 ^ 16 := x.isLt
  exact decide_eq_true (by omega)

@[simp] theorem fitsS16_toInt (x : Imm16) : fitsS16 x.toInt = true := by
  have hlo : -2 ^ 15 ≤ x.toInt := x.le_toInt
  have hhi : x.toInt < 2 ^ 15 := x.toInt_lt
  exact decide_eq_true (by omega)

theorem toNat_field_of_regInRange (h : regInRange n = true) : (BitVec.ofNat 4 n).toNat = n :=
  (BitVec.toNat_ofNat n 4).trans (Nat.mod_eq_of_lt (of_decide_eq_true h))

theorem toNat_field_of_fitsU20 (h : fitsU20 v = true) : ((BitVec.ofInt 20 v).toNat : Int) = v := by
  have hv : 0 ≤ v ∧ v ≤ 0xFFFFF := of_decide_eq_true h
  rw [BitVec.toNat_ofInt]
  omega

theorem toNat_field_of_fitsU16 (h : fitsU16 v = true) : ((BitVec.ofInt 16 v).toNat : Int) = v := by
  have hv : 0 ≤ v ∧ v ≤ 0xFFFF := of_decide_eq_true h
  rw [BitVec.toNat_ofInt]
  omega

theorem toInt_field_of_fitsS16 (h : fitsS16 v = true) : (BitVec.ofInt 16 v).toInt = v := by
  have hv : -32768 ≤ v ∧ v ≤ 32767 := of_decide_eq_true h
  rw [BitVec.toInt_ofInt, Int.bmod_def]
  omega

end Fields

/-! ## The statement of an instruction (R59) -/

@[simp] theorem stmtOfInstr_branchInstr (c : Cond) (t : Imm20) :
    stmtOfInstr (branchInstr c t) = .branch c (.addr t.toNat) := by
  cases c <;> rfl

theorem wellFormed_stmtOfInstr (i : Instr) : (stmtOfInstr i).wellFormed = true := by
  cases i <;> simp [stmtOfInstr, Stmt.wellFormed, Target.inRange]

theorem instr_stmtOfInstr (i : Instr) : Stmt.instr (stmtOfInstr i) = some i := by
  cases i <;> simp [stmtOfInstr, Stmt.instr, branchInstr]

theorem toInstr_eq_some_iff (st : Stmt) (i : Instr) :
    Stmt.toInstr st = some i ↔ st.wellFormed = true ∧ Stmt.instr st = some i := by
  cases h : st.wellFormed <;> simp [Stmt.toInstr, h]

theorem toInstr_stmtOfInstr (i : Instr) : Stmt.toInstr (stmtOfInstr i) = some i :=
  (toInstr_eq_some_iff _ _).2 ⟨wellFormed_stmtOfInstr i, instr_stmtOfInstr i⟩

/-- The fields of a well-formed statement's instruction hold the numbers that were written. -/
theorem eq_stmtOfInstr {st : Stmt} {i : Instr} (hwf : st.wellFormed = true) (h : Stmt.instr st = some i) :
    st = stmtOfInstr i := by
  cases st with
  | hlt => cases h; rfl
  | movImm d imm =>
    obtain ⟨hd, himm⟩ := Bool.and_eq_true_iff.1 hwf
    cases h
    simp only [stmtOfInstr, toNat_field_of_regInRange hd, toNat_field_of_fitsU20 himm]
  | movReg d m =>
    obtain ⟨hd, hm⟩ := Bool.and_eq_true_iff.1 hwf
    cases h
    simp only [stmtOfInstr, toNat_field_of_regInRange hd, toNat_field_of_regInRange hm]
  | alu op d n m =>
    obtain ⟨⟨hd, hn⟩, hm⟩ := (Bool.and_eq_true_iff.1 hwf).imp_left Bool.and_eq_true_iff.1
    cases op <;> cases h <;>
      simp only [stmtOfInstr, toNat_field_of_regInRange hd, toNat_field_of_regInRange hn, toNat_field_of_regInRange hm]
  | aluImm op d n imm =>
    obtain ⟨⟨hd, hn⟩, himm⟩ := (Bool.and_eq_true_iff.1 hwf).imp_left Bool.and_eq_true_iff.1
    cases op <;> cases h <;>
      simp only [stmtOfInstr, toNat_field_of_regInRange hd, toNat_field_of_regInRange hn, toNat_field_of_fitsU16 himm]
  | cmpReg n m =>
    obtain ⟨hn, hm⟩ := Bool.and_eq_true_iff.1 hwf
    cases h
    simp only [stmtOfInstr, toNat_field_of_regInRange hn, toNat_field_of_regInRange hm]
  | cmpImm n imm =>
    obtain ⟨hn, himm⟩ := Bool.and_eq_true_iff.1 hwf
    cases h
    simp only [stmtOfInstr, toNat_field_of_regInRange hn, toNat_field_of_fitsU16 himm]
  | memAbs dir t abs =>
    obtain ⟨ht, habs⟩ := Bool.and_eq_true_iff.1 hwf
    cases dir <;> cases h <;> simp only [stmtOfInstr, toNat_field_of_regInRange ht, toNat_field_of_fitsU20 habs]
  | memOff dir t n off =>
    obtain ⟨⟨ht, hn⟩, hoff⟩ := (Bool.and_eq_true_iff.1 hwf).imp_left Bool.and_eq_true_iff.1
    cases dir <;> cases h <;>
      simp only [stmtOfInstr, toNat_field_of_regInRange ht, toNat_field_of_regInRange hn, toInt_field_of_fitsS16 hoff]
  | branch c target =>
    cases target with
    | label x => cases h
    | addr v =>
      cases h
      rw [stmtOfInstr_branchInstr, toNat_field_of_fitsU20 hwf]

theorem eq_stmtOfInstr_of_toInstr {st : Stmt} {i : Instr} (h : Stmt.toInstr st = some i) : st = stmtOfInstr i := by
  obtain ⟨hwf, hi⟩ := (toInstr_eq_some_iff st i).1 h
  exact eq_stmtOfInstr hwf hi

/-- Settles O58: the instruction of a statement in range and the statement of an instruction are inverse, and a statement out
of range has no instruction. -/
theorem statementRoundTrip : Obligations.StatementRoundTrip := by
  refine ⟨fun i => ⟨wellFormed_stmtOfInstr i, toInstr_stmtOfInstr i⟩, fun _ _ => eq_stmtOfInstr_of_toInstr,
    fun st h => ?outOfRange⟩
  case outOfRange => rw [Stmt.toInstr, h, if_neg Bool.false_ne_true]

end Sys2Proof.Machine
end

section
/-! SUPPORT. The canonical text read back: the digits of a number, the tokens of a line, the statement of an instruction, and the
one-word program (spec/30_encoding.md R59, R64). -/

namespace Sys2Proof.Machine

/-! ## Digits (R59) -/

/-- The letter case `f` of the digits leaves each its value in the base. -/
def RendersDigits (base : Nat) (f : Char → Char) : Prop := ∀ d, d < base → hexValue (f (Nat.digitChar d)) = some d

theorem rendersDigits_decimal : RendersDigits 10 id := by
  unfold RendersDigits
  decide

theorem rendersDigits_hex : RendersDigits 16 Char.toUpper := by
  unfold RendersDigits
  decide

theorem digitsValue_append (base acc : Nat) (xs ys : List Char) :
    digitsValue base acc (xs ++ ys) = (digitsValue base acc xs).bind fun v => digitsValue base v ys := by
  induction xs generalizing acc with
  | nil => rfl
  | cons c xs ih =>
    simp only [List.cons_append, digitsValue]
    cases hexValue c with
    | none => rfl
    | some d =>
      by_cases hd : d < base
      · simp only [if_pos hd, ih]
      · simp only [if_neg hd, Option.bind_none]

theorem digitsValue_digit {base d : Nat} {f : Char → Char} (acc : Nat) (hf : RendersDigits base f) (hd : d < base) :
    digitsValue base acc [f (Nat.digitChar d)] = some (base * acc + d) := by
  simp only [digitsValue, hf d hd, if_pos hd]

/-- Reading the digits of a number gives the number, by the digits from the last one back. -/
theorem digitsValue_toDigits {base : Nat} {f : Char → Char} (hb : 1 < base) (hf : RendersDigits base f) (n : Nat) :
    digitsValue base 0 ((Nat.toDigits base n).map f) = some n := by
  induction n using Nat.base_induction base hb with
  | single d hd =>
    rw [Nat.toDigits_of_lt_base hd, List.map_singleton, digitsValue_digit 0 hf hd, Nat.mul_zero, Nat.zero_add]
  | digit n d hd hn ih =>
    rw [← Nat.toDigits_append_toDigits hb hn hd, List.map_append, digitsValue_append, ih, Nat.toDigits_of_lt_base hd,
      List.map_singleton, Option.bind_some, digitsValue_digit n hf hd]

theorem numeral_toDigits {base : Nat} {f : Char → Char} (hb : 1 < base) (hf : RendersDigits base f) (n : Nat) :
    numeral base ((Nat.toDigits base n).map f) = some n := by
  have hvalue := digitsValue_toDigits hb hf n
  cases h : (Nat.toDigits base n).map f with
  | nil => exact absurd (List.map_eq_nil_iff.1 h) Nat.toDigits_ne_nil
  | cons c cs => rwa [h] at hvalue

theorem mem_toDigits {base n : Nat} {c : Char} (hb : 1 < base) (h : c ∈ Nat.toDigits base n) :
    ∃ d, d < base ∧ c = Nat.digitChar d := by
  induction n using Nat.base_induction base hb with
  | single d hd =>
    rw [Nat.toDigits_of_lt_base hd] at h
    exact ⟨d, hd, List.mem_singleton.1 h⟩
  | digit n d hd hn ih =>
    rw [← Nat.toDigits_append_toDigits hb hn hd, List.mem_append, Nat.toDigits_of_lt_base hd] at h
    rcases h with h | h
    · exact ih h
    · exact ⟨d, hd, List.mem_singleton.1 h⟩

/-! ## Numbers (R59) -/

/-- A decimal digit belongs to a word, opens no identifier, and is neither the sign nor the mark of a hexadecimal number. -/
theorem decimal_char {n : Nat} {c : Char} (h : c ∈ printNat n) :
    (isWordChar c = true ∧ isIdentStart c = false) ∧ c ≠ 'x' ∧ c ≠ '-' := by
  have all_digits : ∀ d, d < 10 → (isWordChar (Nat.digitChar d) = true ∧ isIdentStart (Nat.digitChar d) = false) ∧
      Nat.digitChar d ≠ 'x' ∧ Nat.digitChar d ≠ '-' := by decide
  obtain ⟨d, hd, rfl⟩ := mem_toDigits (by decide) h
  exact all_digits d hd

theorem hex_char {n : Nat} {c : Char} (h : c ∈ (Nat.toDigits 16 n).map Char.toUpper) : isWordChar c = true := by
  have all_digits : ∀ d, d < 16 → isWordChar (Nat.digitChar d).toUpper = true := by decide
  obtain ⟨c', hc', rfl⟩ := List.mem_map.1 h
  obtain ⟨d, hd, rfl⟩ := mem_toDigits (by decide) hc'
  exact all_digits d hd

theorem number_unsigned {cs : List Char} (hx : 'x' ∉ cs) (hm : '-' ∉ cs) :
    number cs = (numeral 10 cs).map Int.ofNat := by
  unfold number
  split
  · simp at hx
  · simp at hm
  · rfl

theorem numeral_printNat (n : Nat) : numeral 10 (printNat n) = some n := by
  simpa [printNat] using numeral_toDigits (by decide) rendersDigits_decimal n

theorem number_printNat (n : Nat) : number (printNat n) = some (n : Int) := by
  have hx : 'x' ∉ printNat n := by
    intro h
    obtain ⟨_, hx, _⟩ := decimal_char h
    exact hx rfl
  have hm : '-' ∉ printNat n := by
    intro h
    obtain ⟨_, _, hm⟩ := decimal_char h
    exact hm rfl
  rw [number_unsigned hx hm, numeral_printNat, Option.map_some, Int.ofNat_eq_natCast]

theorem number_negative (n : Nat) : number ('-' :: printNat n) = some (-(n : Int)) := by
  have hneg : number ('-' :: printNat n) = (numeral 10 (printNat n)).map fun n => -(Int.ofNat n) := rfl
  rw [hneg, numeral_printNat, Option.map_some, Int.ofNat_eq_natCast]

theorem number_printHex (n : Nat) : number (printHex n) = some (n : Int) := by
  have hhex : number (printHex n) = (numeral 16 ((Nat.toDigits 16 n).map Char.toUpper)).map Int.ofNat := rfl
  rw [hhex, numeral_toDigits (by decide) rendersDigits_hex, Option.map_some, Int.ofNat_eq_natCast]

/-- The text is one word that spells the number. -/
def SpellsNumber (w : List Char) (v : Int) : Prop :=
  (∀ c ∈ w, isWordChar c = true) ∧ wordTokens w = some [.num v]

theorem spellsNumber_of_number {c : Char} {cs : List Char} {v : Int} (hword : ∀ x ∈ c :: cs, isWordChar x = true)
    (hstart : isIdentStart c = false) (h : number (c :: cs) = some v) : SpellsNumber (c :: cs) v := by
  refine ⟨hword, ?_⟩
  rw [wordTokens, if_neg (by simp [hstart]), h, Option.map_some]

theorem spellsNumber_printNat (n : Nat) : SpellsNumber (printNat n) (n : Int) := by
  have hvalue := number_printNat n
  have hchar : ∀ c ∈ printNat n, isWordChar c = true ∧ isIdentStart c = false := fun c h =>
    (decimal_char h).1
  cases h : printNat n with
  | nil => exact absurd h Nat.toDigits_ne_nil
  | cons c cs =>
    rw [h] at hvalue hchar
    exact spellsNumber_of_number (fun x hx => (hchar x hx).1) (hchar c List.mem_cons_self).2 hvalue

theorem spellsNumber_printInt (v : Int) : SpellsNumber (printInt v) v := by
  by_cases hv : v < 0
  · have hvalue : number ('-' :: printNat v.natAbs) = some v := by
      rw [number_negative]
      exact congrArg some (by omega)
    have hword : ∀ c ∈ '-' :: printNat v.natAbs, isWordChar c = true := by
      intro c hc
      rcases List.mem_cons.1 hc with rfl | hc
      · decide
      · exact (decimal_char hc).1.1
    rw [printInt, if_pos hv]
    exact spellsNumber_of_number hword (by decide) hvalue
  · have habs : (v.natAbs : Int) = v := by omega
    rw [printInt, if_neg hv]
    exact habs ▸ spellsNumber_printNat v.natAbs

theorem spellsNumber_printHex (n : Nat) : SpellsNumber (printHex n) (n : Int) := by
  have hword : ∀ c ∈ printHex n, isWordChar c = true := by
    intro c hc
    rcases List.mem_cons.1 hc with rfl | hc
    · decide
    · rcases List.mem_cons.1 hc with rfl | hc
      · decide
      · exact hex_char hc
  exact spellsNumber_of_number hword (by decide) (number_printHex n)

/-! ## The tokens of a line (R59) -/

/-- Nothing, or a character that ends the word before it. -/
def endsWord : List Char → Bool
  | [] => true
  | c :: _ => !isWordChar c

/-- The text is words and separators, no comment among them, and these spell the tokens. -/
inductive Lexes : List Char → List Token → Prop where
  | nil : Lexes [] []
  | separator {c : Char} {cs : List Char} {ts us : List Token} (hc : separatorTokens c = some ts) (h : Lexes cs us) :
      Lexes (c :: cs) (ts ++ us)
  | word {w cs : List Char} {ts us : List Token} (hw : ∀ c ∈ w, isWordChar c = true) (ht : wordTokens w = some ts)
      (hend : endsWord cs = true) (h : Lexes cs us) : Lexes (w ++ cs) (ts ++ us)

/-- The seven separators. -/
theorem separator_cases {c : Char} {ts : List Token} (h : separatorTokens c = some ts) :
    c ∈ [' ', '\t', '\r', '#', ',', ':', '[', ']'] := by
  unfold separatorTokens at h
  by_contra hc
  simp only [List.mem_cons, List.not_mem_nil, or_false, not_or] at hc
  simp [hc] at h

theorem separator_not_word {c : Char} {ts : List Token} (h : separatorTokens c = some ts) :
    isWordChar c = false ∧ c ≠ ';' := by
  have all_separators :
      ([' ', '\t', '\r', '#', ',', ':', '[', ']'].all fun c => !isWordChar c && c != ';') = true := by decide
  simpa using List.all_eq_true.1 all_separators c (separator_cases h)

theorem endsWord_append {xs ys : List Char} (hx : endsWord xs = true) (hy : endsWord ys = true) :
    endsWord (xs ++ ys) = true := by
  cases xs with
  | nil => exact hy
  | cons c xs => exact hx

/-- Two texts one after the other, where the second does not go on with a word of the first. -/
theorem Lexes.append {xs ys : List Char} {ts us : List Token} (hx : Lexes xs ts) (hend : endsWord ys = true)
    (hy : Lexes ys us) : Lexes (xs ++ ys) (ts ++ us) := by
  induction hx with
  | nil => exact hy
  | separator hc _ ih =>
    rw [List.append_assoc]
    exact .separator hc ih
  | word hw ht hend' _ ih =>
    rw [List.append_assoc, List.append_assoc]
    exact .word hw ht (endsWord_append hend' hend) ih

theorem lexes_word {w : List Char} {ts : List Token} (hw : ∀ c ∈ w, isWordChar c = true) (ht : wordTokens w = some ts) :
    Lexes w ts := by
  have h := Lexes.word hw ht rfl .nil
  rwa [List.append_nil, List.append_nil] at h

theorem SpellsNumber.lexes {w : List Char} {v : Int} (h : SpellsNumber w v) : Lexes w [.num v] := lexes_word h.1 h.2

/-- The word characters at the head of a line are gathered. -/
theorem lexLine_word {w : List Char} (hw : ∀ c ∈ w, isWordChar c = true) (col : Nat) (pre cs : List Char) :
    lexLine col pre (w ++ cs) = lexLine (col + w.length) (pre ++ w) cs := by
  induction w generalizing col pre with
  | nil => simp
  | cons c w ih =>
    rw [List.cons_append, lexLine, if_pos (hw c List.mem_cons_self), ih fun x hx => hw x (List.mem_cons_of_mem _ hx)]
    congr 1
    · rw [List.length_cons]
      omega
    · rw [List.append_assoc, List.singleton_append]

theorem joinPlaced_nil (x : Except Nat (List Placed)) : joinPlaced (.ok []) x = x := by
  cases x <;> rfl

/-- Where a word ends its tokens come first, and the line goes on without it. -/
theorem lexLine_endsWord {w cs : List Char} (col : Nat) (hend : endsWord cs = true) :
    lexLine col w cs = joinPlaced (placeAt (col - w.length) (wordTokens w)) (lexLine col [] cs) := by
  cases cs with
  | nil =>
    have hnil : lexLine col [] [] = .ok [] := rfl
    rw [lexLine, hnil]
    cases wordTokens w with
    | none => rfl
    | some ts => rw [placeAt, joinPlaced, List.append_nil]
  | cons c cs =>
    have hc : isWordChar c = false := by simpa [endsWord] using hend
    simp [lexLine, hc, wordTokens, placeAt, joinPlaced_nil]

theorem map_token_placed (col : Nat) (ts : List Token) : (ts.map (Placed.mk col)).map Placed.token = ts := by
  simp [Function.comp_def]

/-- A line that is spelled so is lexed so, at whatever columns. -/
theorem Lexes.lexLine {cs : List Char} {ts : List Token} (h : Lexes cs ts) (col : Nat) :
    ∃ ps, lexLine col [] cs = .ok ps ∧ ps.map Placed.token = ts := by
  induction h generalizing col with
  | nil => exact ⟨[], rfl, rfl⟩
  | @separator c cs ts us hc _ ih =>
    obtain ⟨ps, hps, htok⟩ := ih (col + 1)
    obtain ⟨hword, hcomment⟩ := separator_not_word hc
    refine ⟨ts.map (Placed.mk col) ++ ps, ?_, by rw [List.map_append, map_token_placed, htok]⟩
    simp [Machine.lexLine, hword, hcomment, hc, hps, wordTokens, placeAt, joinPlaced]
  | @word w cs ts us hw ht hend _ ih =>
    obtain ⟨ps, hps, htok⟩ := ih (col + w.length)
    refine ⟨ts.map (Placed.mk col) ++ ps, ?_, by rw [List.map_append, map_token_placed, htok]⟩
    rw [lexLine_word hw, List.nil_append, lexLine_endsWord _ hend, ht, hps, Nat.add_sub_cancel]
    rfl

theorem Lexes.no_newline {cs : List Char} {ts : List Token} (h : Lexes cs ts) : '\n' ∉ cs := by
  have newline_not_word : isWordChar '\n' = false := by decide
  have newline_no_separator : separatorTokens '\n' = none := by decide
  induction h with
  | nil => exact List.not_mem_nil
  | separator hc _ ih =>
    rw [List.mem_cons, not_or]
    refine ⟨?_, ih⟩
    rintro rfl
    cases newline_no_separator.symm.trans hc
  | word hw _ _ _ ih =>
    rw [List.mem_append, not_or]
    exact ⟨fun hmem => Bool.false_ne_true (newline_not_word.symm.trans (hw _ hmem)), ih⟩

/-! ## The printed operands (R64) -/

/-- The sixteen register names. -/
@[simp] theorem registerName_printReg : ∀ r : RegNum, registerName (printReg r) = some r.toNat := by decide

theorem lexes_printReg (r : RegNum) : Lexes (printReg r) [.ident (printReg r)] := by
  have word_chars : ∀ r : RegNum, (printReg r).all isWordChar = true := by decide
  have one_token : ∀ r : RegNum, wordTokens (printReg r) = some [.ident (printReg r)] := by decide
  exact lexes_word (List.all_eq_true.1 (word_chars r)) (one_token r)

theorem lexes_hash {w : List Char} {v : Int} (h : SpellsNumber w v) : Lexes ('#' :: w) [.hash, .num v] :=
  .separator (ts := [.hash]) rfl h.lexes

theorem lexes_printImm (n : Nat) : Lexes (printImm n) [.hash, .num n] := lexes_hash (spellsNumber_printNat n)

theorem lexes_printTarget (t : Imm20) : Lexes (printTarget t) [.hash, .num t.toNat] :=
  lexes_hash (spellsNumber_printHex t.toNat)

theorem lexes_rbrack : Lexes "]".toList [.rbrack] := .separator (ts := [.rbrack]) rfl .nil

theorem lexes_printAbs (a : Imm20) : Lexes (printAbs a) [.lbrack, .hash, .num a.toNat, .rbrack] :=
  .separator (ts := [.lbrack]) rfl ((lexes_hash (spellsNumber_printHex a.toNat)).append rfl lexes_rbrack)

/-- A text after a comma and a space. -/
theorem lexes_comma {cs : List Char} {ts : List Token} (h : Lexes cs ts) : Lexes (", ".toList ++ cs) (.comma :: ts) :=
  .separator (ts := [.comma]) rfl (.separator (ts := []) rfl h)

theorem lexes_printOff (n : RegNum) (off : Imm16) :
    Lexes (printOff n off) [.lbrack, .ident (printReg n), .comma, .hash, .num off.toInt, .rbrack] := by
  have hoff := (lexes_comma (lexes_hash (spellsNumber_printInt off.toInt))).append rfl lexes_rbrack
  have hbase := Lexes.separator (ts := [.lbrack]) (c := '[') rfl ((lexes_printReg n).append rfl hoff)
  have htext : printOff n off =
      '[' :: (printReg n ++ (", ".toList ++ '#' :: printInt off.toInt ++ "]".toList)) := by simp [printOff]
  rw [htext]
  exact hbase

/-! ## The printed statements (R64) -/

/-- The text of a mnemonic is one word, an identifier, and `f` makes a statement of its operands. -/
structure MnemonicOf (m : String) (f : List Operand → Option Stmt) : Prop where
  word_chars : m.toList.all isWordChar = true
  one_token : wordTokens m.toList = some [.ident m.toList]
  stmtOf_eq : ∀ os, stmtOf m.toList os = f os

theorem mnemonicOf_hlt : MnemonicOf "HLT" fun os => if os = [] then some .hlt else none := ⟨rfl, rfl, fun _ => rfl⟩

theorem mnemonicOf_mov : MnemonicOf "MOV" movStmt := ⟨rfl, rfl, fun _ => rfl⟩

theorem mnemonicOf_add : MnemonicOf "ADD" (aluStmt .add) := ⟨rfl, rfl, fun _ => rfl⟩

theorem mnemonicOf_sub : MnemonicOf "SUB" (aluStmt .sub) := ⟨rfl, rfl, fun _ => rfl⟩

theorem mnemonicOf_cmp : MnemonicOf "CMP" cmpStmt := ⟨rfl, rfl, fun _ => rfl⟩

theorem mnemonicOf_ldr : MnemonicOf "LDR" (memStmt .load) := ⟨rfl, rfl, fun _ => rfl⟩

theorem mnemonicOf_str : MnemonicOf "STR" (memStmt .store) := ⟨rfl, rfl, fun _ => rfl⟩

/-- The mnemonic that a condition is printed with. -/
def branchMnemonic : Cond → String
  | .eq => "BEQ" | .ne => "BNE" | .cs => "BCS" | .cc => "BCC" | .mi => "BMI" | .pl => "BPL" | .vs => "BVS" | .vc => "BVC"
  | .hi => "BHI" | .ls => "BLS" | .ge => "BGE" | .lt => "BLT" | .gt => "BGT" | .le => "BLE" | .al => "B"

theorem mnemonicOf_branch (c : Cond) : MnemonicOf (branchMnemonic c) (branchStmt c) := by
  cases c <;> exact ⟨rfl, rfl, fun _ => rfl⟩

theorem printInstr_branchInstr (c : Cond) (t : Imm20) :
    printInstr (branchInstr c t) = printStmt (branchMnemonic c) [printTarget t] := by
  cases c <;> rfl

section Print
variable {m : String} {f : List Operand → Option Stmt} (hm : MnemonicOf m f)
variable {a b c : List Char} {ta tb tc : List Token}
include hm

theorem MnemonicOf.lexes : Lexes m.toList [.ident m.toList] :=
  lexes_word (List.all_eq_true.1 hm.word_chars) hm.one_token

theorem lexes_printStmt_none : Lexes (printStmt m []) [.ident m.toList] := hm.lexes

theorem lexes_printStmt_one (ha : Lexes a ta) : Lexes (printStmt m [a]) (.ident m.toList :: ta) := by
  rw [printStmt, List.append_assoc]
  exact hm.lexes.append rfl (.separator (ts := []) rfl ha)

theorem lexes_printStmt_two (ha : Lexes a ta) (hb : Lexes b tb) :
    Lexes (printStmt m [a, b]) (.ident m.toList :: (ta ++ .comma :: tb)) := by
  rw [printStmt, List.append_assoc]
  exact (lexes_printStmt_one hm ha).append rfl (lexes_comma hb)

theorem lexes_printStmt_three (ha : Lexes a ta) (hb : Lexes b tb) (hc : Lexes c tc) :
    Lexes (printStmt m [a, b, c]) (.ident m.toList :: (ta ++ .comma :: tb) ++ .comma :: tc) := by
  rw [printStmt, List.append_assoc]
  exact (lexes_printStmt_two hm ha hb).append rfl (lexes_comma hc)

end Print

/-! ## The statement read from its text (R59) -/

/-- The text is a mnemonic with operands, spelled without a label, that are the statement. -/
def ReadsAs (text : List Char) (st : Stmt) : Prop :=
  ∃ m ts, Lexes text (.ident m :: ts) ∧ ts.head? ≠ some .colon ∧ instructionPart (.ident m :: ts) = some (some st)

theorem instructionPart_of_operands {m : List Char} {ts : List Token} {os : List Operand} {st : Stmt}
    (hos : operands ts = some os) (hst : stmtOf m os = some st) :
    instructionPart (.ident m :: ts) = some (some st) := by
  simp only [instructionPart, hos, hst, Option.map_some]

section Operands
variable {m : String} {f : List Operand → Option Stmt} (hm : MnemonicOf m f) {st : Stmt}
include hm

/-- The tokens that a text spells are the mnemonic and its operands. -/
theorem readsAs_of_operands {text : List Char} {ts : List Token} {os : List Operand}
    (htext : Lexes text (.ident m.toList :: ts)) (hcolon : ts.head? ≠ some .colon) (hos : operands ts = some os)
    (h : f os = some st) : ReadsAs text st :=
  ⟨m.toList, ts, htext, hcolon, instructionPart_of_operands hos ((hm.stmtOf_eq os).trans h)⟩

theorem readsAs_none (h : f [] = some st) : ReadsAs (printStmt m []) st :=
  readsAs_of_operands hm (lexes_printStmt_none hm) nofun rfl h

theorem readsAs_imm {w : List Char} {v : Int} (hw : Lexes w [.hash, .num v]) (h : f [.imm v] = some st) :
    ReadsAs (printStmt m [w]) st :=
  readsAs_of_operands hm (lexes_printStmt_one hm hw) nofun rfl h

theorem readsAs_reg_imm (d : RegNum) (n : Nat) (h : f [.name (printReg d), .imm n] = some st) :
    ReadsAs (printStmt m [printReg d, printImm n]) st :=
  readsAs_of_operands hm (lexes_printStmt_two hm (lexes_printReg d) (lexes_printImm n)) nofun rfl h

theorem readsAs_reg_reg (d n : RegNum) (h : f [.name (printReg d), .name (printReg n)] = some st) :
    ReadsAs (printStmt m [printReg d, printReg n]) st :=
  readsAs_of_operands hm (lexes_printStmt_two hm (lexes_printReg d) (lexes_printReg n)) nofun rfl h

theorem readsAs_reg_abs (t : RegNum) (a : Imm20) (h : f [.name (printReg t), .memAbs a.toNat] = some st) :
    ReadsAs (printStmt m [printReg t, printAbs a]) st :=
  readsAs_of_operands hm (lexes_printStmt_two hm (lexes_printReg t) (lexes_printAbs a)) nofun rfl h

theorem readsAs_reg_off (t n : RegNum) (off : Imm16)
    (h : f [.name (printReg t), .memOff (printReg n) off.toInt] = some st) :
    ReadsAs (printStmt m [printReg t, printOff n off]) st :=
  readsAs_of_operands hm (lexes_printStmt_two hm (lexes_printReg t) (lexes_printOff n off)) nofun rfl h

theorem readsAs_reg_reg_reg (d n k : RegNum)
    (h : f [.name (printReg d), .name (printReg n), .name (printReg k)] = some st) :
    ReadsAs (printStmt m [printReg d, printReg n, printReg k]) st :=
  readsAs_of_operands hm (lexes_printStmt_three hm (lexes_printReg d) (lexes_printReg n) (lexes_printReg k)) nofun rfl h

theorem readsAs_reg_reg_imm (d n : RegNum) (k : Nat)
    (h : f [.name (printReg d), .name (printReg n), .imm k] = some st) :
    ReadsAs (printStmt m [printReg d, printReg n, printImm k]) st :=
  readsAs_of_operands hm (lexes_printStmt_three hm (lexes_printReg d) (lexes_printReg n) (lexes_printImm k)) nofun rfl h

end Operands

theorem readsAs_branchInstr (c : Cond) (t : Imm20) :
    ReadsAs (printInstr (branchInstr c t)) (.branch c (.addr t.toNat)) := by
  rw [printInstr_branchInstr]
  exact readsAs_imm (mnemonicOf_branch c) (lexes_printTarget t) rfl

/-- The canonical text of an instruction is read as the instruction's statement. -/
theorem readsAs_printInstr (i : Instr) : ReadsAs (printInstr i) (stmtOfInstr i) := by
  cases i with
  | hlt => exact readsAs_none mnemonicOf_hlt rfl
  | movImm d imm => exact readsAs_reg_imm mnemonicOf_mov d imm.toNat (by simp [movStmt, stmtOfInstr])
  | movReg d m => exact readsAs_reg_reg mnemonicOf_mov d m (by simp [movStmt, stmtOfInstr])
  | addReg d n m => exact readsAs_reg_reg_reg mnemonicOf_add d n m (by simp [aluStmt, stmtOfInstr])
  | addImm d n imm => exact readsAs_reg_reg_imm mnemonicOf_add d n imm.toNat (by simp [aluStmt, stmtOfInstr])
  | subReg d n m => exact readsAs_reg_reg_reg mnemonicOf_sub d n m (by simp [aluStmt, stmtOfInstr])
  | subImm d n imm => exact readsAs_reg_reg_imm mnemonicOf_sub d n imm.toNat (by simp [aluStmt, stmtOfInstr])
  | cmpReg n m => exact readsAs_reg_reg mnemonicOf_cmp n m (by simp [cmpStmt, stmtOfInstr])
  | cmpImm n imm => exact readsAs_reg_imm mnemonicOf_cmp n imm.toNat (by simp [cmpStmt, stmtOfInstr])
  | ldrAbs t abs => exact readsAs_reg_abs mnemonicOf_ldr t abs (by simp [memStmt, stmtOfInstr])
  | ldrOff t n off => exact readsAs_reg_off mnemonicOf_ldr t n off (by simp [memStmt, stmtOfInstr])
  | strAbs t abs => exact readsAs_reg_abs mnemonicOf_str t abs (by simp [memStmt, stmtOfInstr])
  | strOff t n off => exact readsAs_reg_off mnemonicOf_str t n off (by simp [memStmt, stmtOfInstr])
  | beq t => exact readsAs_branchInstr .eq t
  | bne t => exact readsAs_branchInstr .ne t
  | bcs t => exact readsAs_branchInstr .cs t
  | bcc t => exact readsAs_branchInstr .cc t
  | bmi t => exact readsAs_branchInstr .mi t
  | bpl t => exact readsAs_branchInstr .pl t
  | bvs t => exact readsAs_branchInstr .vs t
  | bvc t => exact readsAs_branchInstr .vc t
  | bhi t => exact readsAs_branchInstr .hi t
  | bls t => exact readsAs_branchInstr .ls t
  | bge t => exact readsAs_branchInstr .ge t
  | blt t => exact readsAs_branchInstr .lt t
  | bgt t => exact readsAs_branchInstr .gt t
  | ble t => exact readsAs_branchInstr .le t
  | b t => exact readsAs_branchInstr .al t

/-! ## The one-word program (R60, R61) -/

theorem splitLines_of_no_newline {cs : List Char} (h : '\n' ∉ cs) (line : List Char) :
    splitLines line cs = [line ++ cs] := by
  induction cs generalizing line with
  | nil => rw [splitLines, List.append_nil]
  | cons c cs ih =>
    obtain ⟨hc, hcs⟩ := not_or.1 (mt List.mem_cons.2 h)
    rw [splitLines, if_neg (Ne.symm hc), ih hcs, List.append_assoc, List.singleton_append]

/-- An identifier that no colon follows is no label. -/
theorem splitLabel_of_no_colon {ps : List Placed} {m : List Char} {ts : List Token}
    (hps : ps.map Placed.token = .ident m :: ts) (hcolon : ts.head? ≠ some .colon) : splitLabel ps = (none, ps) := by
  unfold splitLabel
  split
  · obtain ⟨_, rfl⟩ := List.cons.inj hps
    exact absurd rfl hcolon
  · rfl

theorem ReadsAs.parseLine {text : List Char} {st : Stmt} (h : ReadsAs text st) :
    ∃ col, Machine.parseLine text = .ok ⟨col, none, some st⟩ := by
  obtain ⟨m, ts, hlex, hcolon, hpart⟩ := h
  obtain ⟨ps, hps, htok⟩ := hlex.lexLine 1
  refine ⟨firstColumn ps, ?_⟩
  simp only [Machine.parseLine, hps, lineOfTokens, splitLabel_of_no_colon htok hcolon, htok, hpart]

theorem ReadsAs.pass1 {text : List Char} {st : Stmt} (h : ReadsAs text st) :
    Machine.pass1 ⟨[], []⟩ 1 (splitLines [] text) = .ok ⟨[], [st]⟩ := by
  obtain ⟨col, hparse⟩ := h.parseLine
  obtain ⟨m, ts, hlex, _⟩ := h
  rw [splitLines_of_no_newline hlex.no_newline, List.nil_append]
  simp only [Machine.pass1, hparse, Pass1.addLine, List.nil_append, Option.toList_some]

/-- A statement that has an instruction names no label. -/
theorem resolve_of_toInstr {st : Stmt} {i : Instr} (ls : Labels) (h : Stmt.toInstr st = some i) :
    Stmt.resolve ls st = .ok st := by
  rw [eq_stmtOfInstr_of_toInstr h]
  cases i <;> rfl

theorem ReadsAs.assemble {text : List Char} {st : Stmt} {i : Instr} (h : ReadsAs text st)
    (hi : Stmt.toInstr st = some i) : Machine.assemble text = .ok [encode i] := by
  simp [Machine.assemble, h.pass1, resolveAll, resolve_of_toInstr _ hi, encodeProgram, pass2, hi]

/-- Settles O59: the text of the decoded instruction is read as its statement, whose one word is the word decoded. -/
theorem disassemblyAssemblesToSameWord : Obligations.DisassemblyAssemblesToSameWord := by
  intro w text h
  obtain ⟨i, hi, rfl⟩ := Option.map_eq_some_iff.1 h
  rw [(readsAs_printInstr i).assemble (toInstr_stmtOfInstr i), encode_of_decode hi]

end Sys2Proof.Machine
end

section
/-! SUPPORT. What assembling a source text can answer: words, one for each statement, or the error of the pass that failed
(spec/30_encoding.md R60, R61; log 13). -/

namespace Sys2Proof.Machine

/-! ## Pass 2 (R61, R63) -/

theorem pass2_ok {k : Nat} {sts : List Stmt} {ws : List Word} (h : pass2 k sts = .ok ws) :
    ws.length = sts.length ∧ ∀ w ∈ ws, validWord w = true := by
  induction sts generalizing k ws with
  | nil =>
    cases h
    exact ⟨rfl, nofun⟩
  | cons st rest ih =>
    cases hi : Stmt.toInstr st with
    | none => simp [pass2, hi] at h
    | some i =>
      cases hrest : pass2 (k + 1) rest with
      | error e => simp [pass2, hi, hrest] at h
      | ok vs =>
        obtain rfl : encode i :: vs = ws := by simpa [pass2, hi, hrest] using h
        obtain ⟨hlen, hvalid⟩ := ih hrest
        refine ⟨by rw [List.length_cons, hlen, List.length_cons], fun w hw => ?_⟩
        rcases List.mem_cons.1 hw with rfl | hw
        · exact validWord_encode i
        · exact hvalid w hw

/-- Pass 2 fails only with an `EncodingError`. -/
theorem pass2_error {k : Nat} {sts : List Stmt} {e : AsmError} (h : pass2 k sts = .error e) :
    ∃ n, e = .encodingError n := by
  induction sts generalizing k with
  | nil => cases h
  | cons st rest ih =>
    cases hi : Stmt.toInstr st with
    | none => exact ⟨k, by simpa [pass2, hi, eq_comm] using h⟩
    | some i =>
      cases hrest : pass2 (k + 1) rest with
      | error e' =>
        obtain rfl : e' = e := by simpa [pass2, hi, hrest] using h
        exact ih hrest
      | ok vs => simp [pass2, hi, hrest] at h

theorem encodeProgram_ok {sts : List Stmt} {ws : List Word} (h : encodeProgram sts = .ok ws) :
    ws.length ≤ 1024 ∧ ws.length = sts.length ∧ ∀ w ∈ ws, validWord w = true := by
  unfold encodeProgram at h
  split at h
  case isTrue hlen =>
    obtain ⟨heq, hvalid⟩ := pass2_ok h
    exact ⟨heq ▸ hlen, heq, hvalid⟩
  case isFalse => cases h

theorem encodeProgram_error {sts : List Stmt} {e : AsmError} (h : encodeProgram sts = .error e) :
    ∃ n, e = .encodingError n := by
  unfold encodeProgram at h
  split at h
  · exact pass2_error h
  · cases h
    exact ⟨_, rfl⟩

/-! ## The labels (R60, R61) -/

/-- Some branch of the program names this label, which is not defined. -/
def Undefined (ls : Labels) (sts : List Stmt) (x : List Char) : Prop :=
  (∃ c, .branch c (.label x) ∈ sts) ∧ ls.find x = none

theorem Undefined.cons {ls : Labels} {sts : List Stmt} {x : List Char} (st : Stmt) (h : Undefined ls sts x) :
    Undefined ls (st :: sts) x := by
  obtain ⟨⟨c, hc⟩, hx⟩ := h
  exact ⟨⟨c, List.mem_cons_of_mem st hc⟩, hx⟩

/-- A statement is not resolved exactly where it is a branch to a label that is not defined. -/
theorem resolve_error_iff (ls : Labels) (st : Stmt) (x : List Char) :
    Stmt.resolve ls st = .error x ↔ (∃ c, st = .branch c (.label x)) ∧ ls.find x = none := by
  cases st with
  | branch c target =>
    cases target with
    | addr v => simp [Stmt.resolve]
    | label y =>
      have hiff : Stmt.resolve ls (.branch c (.label y)) = .error x ↔ y = x ∧ ls.find y = none := by
        cases hy : ls.find y <;> simp [Stmt.resolve, hy]
      rw [hiff]
      constructor
      · rintro ⟨rfl, hy⟩
        exact ⟨⟨c, rfl⟩, hy⟩
      · rintro ⟨⟨c', hst⟩, hx⟩
        cases hst
        exact ⟨rfl, hx⟩
  | _ => simp [Stmt.resolve]

theorem resolveAll_ok_length {ls : Labels} {sts out : List Stmt} (h : resolveAll ls sts = .ok out) :
    out.length = sts.length := by
  induction sts generalizing out with
  | nil =>
    cases h
    rfl
  | cons st rest ih =>
    cases hst : Stmt.resolve ls st with
    | error x => simp [resolveAll, hst] at h
    | ok st' =>
      cases hrest : resolveAll ls rest with
      | error e => simp [resolveAll, hst, hrest] at h
      | ok out' =>
        obtain rfl : st' :: out' = out := by simpa [resolveAll, hst, hrest] using h
        rw [List.length_cons, List.length_cons, ih hrest]

theorem resolveAll_error {ls : Labels} {sts : List Stmt} {e : AsmError} (h : resolveAll ls sts = .error e) :
    ∃ y, e = .unresolvedSymbol y ∧ Undefined ls sts y := by
  induction sts with
  | nil => cases h
  | cons st rest ih =>
    cases hst : Stmt.resolve ls st with
    | error x =>
      obtain ⟨⟨c, rfl⟩, hx⟩ := (resolve_error_iff ls st x).1 hst
      exact ⟨x, by simpa [resolveAll, hst, eq_comm] using h, ⟨c, List.mem_cons_self⟩, hx⟩
    | ok st' =>
      cases hrest : resolveAll ls rest with
      | error e' =>
        obtain rfl : e' = e := by simpa [resolveAll, hst, hrest] using h
        obtain ⟨y, hy, hundef⟩ := ih hrest
        exact ⟨y, hy, hundef.cons st⟩
      | ok out => simp [resolveAll, hst, hrest] at h

theorem resolveAll_of_undefined {ls : Labels} {sts : List Stmt} {x : List Char} (h : Undefined ls sts x) :
    ∃ e, resolveAll ls sts = .error e := by
  obtain ⟨⟨c, hc⟩, hx⟩ := h
  induction sts with
  | nil => cases hc
  | cons st rest ih =>
    cases hst : Stmt.resolve ls st with
    | error y => exact ⟨.unresolvedSymbol y, by simp [resolveAll, hst]⟩
    | ok st' =>
      have hne : .branch c (.label x) ≠ st := by
        rintro rfl
        cases hst.symm.trans ((resolve_error_iff ls _ x).2 ⟨⟨c, rfl⟩, hx⟩)
      obtain ⟨e, he⟩ := ih ((List.mem_cons.1 hc).resolve_left hne)
      exact ⟨e, by simp [resolveAll, hst, he]⟩

/-! ## The columns of a line (R61) -/

/-- The columns of what was lexed, or of the error, lie from `lo` up to, but not at, `hi`. -/
def ColumnsIn (lo hi : Nat) : Except Nat (List Placed) → Prop
  | .error k => lo ≤ k ∧ k < hi
  | .ok ps => ∀ p ∈ ps, lo ≤ p.col ∧ p.col < hi

section Columns
variable {lo hi : Nat}

theorem ColumnsIn.mono {x : Except Nat (List Placed)} {lo' hi' : Nat} (h : ColumnsIn lo hi x) (hlo : lo' ≤ lo)
    (hhi : hi ≤ hi') : ColumnsIn lo' hi' x := by
  cases x with
  | error k => exact ⟨hlo.trans h.1, lt_of_lt_of_le h.2 hhi⟩
  | ok ps => exact fun p hp => ⟨hlo.trans (h p hp).1, lt_of_lt_of_le (h p hp).2 hhi⟩

theorem columnsIn_placeAt {col : Nat} (ts : Option (List Token)) (hlo : lo ≤ col) (hhi : col < hi) :
    ColumnsIn lo hi (placeAt col ts) := by
  cases ts with
  | none => exact ⟨hlo, hhi⟩
  | some ts =>
    intro p hp
    obtain ⟨t, _, rfl⟩ := List.mem_map.1 hp
    exact ⟨hlo, hhi⟩

theorem columnsIn_joinPlaced {x y : Except Nat (List Placed)} (hx : ColumnsIn lo hi x) (hy : ColumnsIn lo hi y) :
    ColumnsIn lo hi (joinPlaced x y) := by
  cases x with
  | error k => exact hx
  | ok ps =>
    cases y with
    | error k => exact hy
    | ok qs => exact fun p hp => (List.mem_append.1 hp).elim (hx p) (hy p)

/-- A word begins as many columns back as it is long; no word at all has no token and no error. -/
theorem columnsIn_word {col : Nat} (word : List Char) (hcol : word.length < col) (hlo : lo ≤ col - word.length)
    (hhi : col ≤ hi) : ColumnsIn lo hi (placeAt (col - word.length) (wordTokens word)) := by
  cases word with
  | nil => exact nofun
  | cons c cs => exact columnsIn_placeAt _ hlo (by simp only [List.length_cons] at hcol ⊢; omega)

end Columns

/-- The tokens and the error of a line stand at columns of its characters. -/
theorem columnsIn_lexLine (cs : List Char) (col : Nat) (word : List Char) (hcol : word.length < col) :
    ColumnsIn (col - word.length) (col + cs.length) (lexLine col word cs) := by
  induction cs generalizing col word with
  | nil => exact columnsIn_word word hcol le_rfl le_rfl
  | cons c cs ih =>
    rw [lexLine, List.length_cons]
    split
    · have h := ih (col + 1) (word ++ [c]) (by simp only [List.length_append, List.length_singleton]; omega)
      simp only [List.length_append, List.length_singleton] at h
      exact h.mono (by omega) (by omega)
    · refine columnsIn_joinPlaced (columnsIn_word word hcol le_rfl (by omega)) ?_
      split
      · exact nofun
      · have hrest := ih (col + 1) [] (by simp)
        rw [List.length_nil] at hrest
        exact columnsIn_joinPlaced (columnsIn_placeAt _ (by omega) (by omega)) (hrest.mono (by omega) (by omega))

/-- A column of the line, counted from 1. -/
abbrev ColumnOf (cs : List Char) (k : Nat) : Prop := 1 ≤ k ∧ k ≤ cs.length

theorem lexLine_column (cs : List Char) :
    (∀ k, lexLine 1 [] cs = .error k → ColumnOf cs k) ∧
    ∀ ps, lexLine 1 [] cs = .ok ps → ∀ p ∈ ps, ColumnOf cs p.col := by
  have h : ColumnsIn 1 (1 + cs.length) (lexLine 1 [] cs) := columnsIn_lexLine cs 1 [] Nat.one_pos
  constructor
  · intro k hk
    rw [hk] at h
    exact ⟨h.1, Nat.lt_one_add_iff.1 h.2⟩
  · intro ps hps p hp
    rw [hps] at h
    exact ⟨(h p hp).1, Nat.lt_one_add_iff.1 (h p hp).2⟩

/-! ## The errors of a line (R61) -/

/-- What stands behind the label are tokens of the line, and where there is a label the line has a token. -/
theorem splitLabel_spec (ps : List Placed) :
    (∀ p ∈ (splitLabel ps).2, p ∈ ps) ∧ ((splitLabel ps).1 ≠ none → ps ≠ []) := by
  unfold splitLabel
  split
  · exact ⟨fun p hp => List.mem_cons_of_mem _ (List.mem_cons_of_mem _ hp), fun _ => List.cons_ne_nil _ _⟩
  · exact ⟨fun p hp => hp, fun h => absurd rfl h⟩

theorem firstColumn_mem {ps : List Placed} (h : ps ≠ []) : ∃ p ∈ ps, firstColumn ps = p.col := by
  cases ps with
  | nil => exact absurd rfl h
  | cons p ps => exact ⟨p, List.mem_cons_self, rfl⟩

/-- A line whose tokens do not fit has a token where its instruction part begins: no tokens would fit. -/
theorem lineOfTokens_error {ps : List Placed} {k : Nat} (h : lineOfTokens ps = .error k) : ∃ p ∈ ps, k = p.col := by
  unfold lineOfTokens at h
  split at h
  case h_1 => cases h
  case h_2 hnone =>
    have hne : (splitLabel ps).2 ≠ [] := by
      intro hnil
      rw [hnil] at hnone
      cases hnone
    obtain ⟨p, hp, hcol⟩ := firstColumn_mem hne
    cases h
    exact ⟨p, (splitLabel_spec ps).1 p hp, hcol⟩

theorem lineOfTokens_ok {ps : List Placed} {l : Line} (h : lineOfTokens ps = .ok l) (hl : l.label ≠ none) :
    ∃ p ∈ ps, l.col = p.col := by
  unfold lineOfTokens at h
  split at h
  case h_1 =>
    cases h
    exact firstColumn_mem ((splitLabel_spec ps).2 hl)
  case h_2 => cases h

theorem parseLine_error {cs : List Char} {k : Nat} (h : parseLine cs = .error k) : ColumnOf cs k := by
  obtain ⟨herror, hok⟩ := lexLine_column cs
  unfold parseLine at h
  split at h
  case h_1 k' hk =>
    cases h
    exact herror _ hk
  case h_2 ps hps =>
    obtain ⟨p, hp, rfl⟩ := lineOfTokens_error h
    exact hok ps hps p hp

theorem parseLine_label {cs : List Char} {l : Line} (h : parseLine cs = .ok l) (hl : l.label ≠ none) :
    ColumnOf cs l.col := by
  unfold parseLine at h
  split at h
  case h_1 => cases h
  case h_2 ps hps =>
    obtain ⟨p, hp, hcol⟩ := lineOfTokens_ok h hl
    exact hcol ▸ (lexLine_column cs).2 ps hps p hp

/-! ## Pass 1 (R60, R61) -/

/-- Taking in a line fails only where it defines a label again, with the line's column. -/
theorem addLine_error {p : Pass1} {n : Nat} {l : Line} {e : AsmError} (h : p.addLine n l = .error e) :
    l.label ≠ none ∧ e = .syntaxError n l.col := by
  unfold Pass1.addLine at h
  split at h
  case h_1 => cases h
  case h_2 x hx =>
    split at h
    · cases h
      exact ⟨by simp [hx], rfl⟩
    · cases h

/-- Pass 1 fails only with a `SyntaxError`, at a line of the text and a column of that line. -/
theorem pass1_error {p : Pass1} {n : Nat} {lines : List (List Char)} {e : AsmError} (h : pass1 p n lines = .error e) :
    ∃ j cs k, e = .syntaxError (n + j) k ∧ lines[j]? = some cs ∧ ColumnOf cs k := by
  induction lines generalizing p n with
  | nil => cases h
  | cons cs rest ih =>
    cases hparse : parseLine cs with
    | error k =>
      refine ⟨0, cs, k, ?_, rfl, parseLine_error hparse⟩
      simpa [pass1, hparse, eq_comm] using h
    | ok l =>
      cases hadd : p.addLine n l with
      | error e' =>
        obtain ⟨hl, rfl⟩ := addLine_error hadd
        refine ⟨0, cs, l.col, ?_, rfl, parseLine_label hparse hl⟩
        simpa [pass1, hparse, hadd, eq_comm] using h
      | ok p' =>
        have hrest : pass1 p' (n + 1) rest = .error e := by simpa [pass1, hparse, hadd] using h
        obtain ⟨j, cs', k, rfl, hline, hcol⟩ := ih hrest
        exact ⟨j + 1, cs', k, by rw [Nat.add_right_comm, Nat.add_assoc], hline, hcol⟩

/-! ## The whole assembler (R60, R61) -/

/-- The three stages of assembling, each reached where the one before answered. -/
theorem assemble_cases (src : List Char) :
    (∃ e, pass1 ⟨[], []⟩ 1 (splitLines [] src) = .error e ∧ assemble src = .error e) ∨
    ∃ p, pass1 ⟨[], []⟩ 1 (splitLines [] src) = .ok p ∧
      ((∃ e, resolveAll p.labels p.stmts = .error e ∧ assemble src = .error e) ∨
        ∃ sts, resolveAll p.labels p.stmts = .ok sts ∧ assemble src = encodeProgram sts) := by
  cases hp : pass1 ⟨[], []⟩ 1 (splitLines [] src) with
  | error e => exact .inl ⟨e, rfl, by simp only [assemble, hp]⟩
  | ok p =>
    cases hr : resolveAll p.labels p.stmts with
    | error e => exact .inr ⟨p, rfl, .inl ⟨e, hr, by simp only [assemble, hp, hr]⟩⟩
    | ok sts => exact .inr ⟨p, rfl, .inr ⟨sts, hr, by simp only [assemble, hp, hr]⟩⟩

/-- Words come out where all three stages answered. -/
theorem assemble_ok {src : List Char} {ws : List Word} (h : assemble src = .ok ws) :
    ws.length ≤ 1024 ∧ (∀ w ∈ ws, validWord w = true) ∧
      ∃ p, pass1 ⟨[], []⟩ 1 (splitLines [] src) = .ok p ∧ ws.length = p.stmts.length := by
  rcases assemble_cases src with ⟨e, _, hx⟩ | ⟨p, hp, ⟨e, _, hx⟩ | ⟨sts, hr, hx⟩⟩
  · cases hx.symm.trans h
  · cases hx.symm.trans h
  · obtain ⟨hmax, hlen, hvalid⟩ := encodeProgram_ok (hx.symm.trans h)
    exact ⟨hmax, hvalid, p, hp, hlen.trans (resolveAll_ok_length hr)⟩

theorem assemble_undefined {src : List Char} {p : Pass1} {x : List Char}
    (hp : pass1 ⟨[], []⟩ 1 (splitLines [] src) = .ok p) (h : Undefined p.labels p.stmts x) :
    ∃ y, assemble src = .error (.unresolvedSymbol y) ∧ Undefined p.labels p.stmts y := by
  obtain ⟨e, he⟩ := resolveAll_of_undefined h
  rcases assemble_cases src with ⟨e', hp', _⟩ | ⟨p', hp', ⟨e', hr, hx⟩ | ⟨sts, hr, _⟩⟩ <;> cases hp.symm.trans hp'
  · obtain ⟨y, rfl, hy⟩ := resolveAll_error hr
    exact ⟨y, hx, hy⟩
  · cases he.symm.trans hr

theorem assemble_syntaxError {src : List Char} {line column : Nat}
    (h : assemble src = .error (.syntaxError line column)) :
    ∃ cs, 1 ≤ line ∧ (splitLines [] src)[line - 1]? = some cs ∧ ColumnOf cs column := by
  rcases assemble_cases src with ⟨e, hp, hx⟩ | ⟨p, _, ⟨e, hr, hx⟩ | ⟨sts, _, hx⟩⟩
  · cases hx.symm.trans h
    obtain ⟨j, cs, k, he, hline, hcol⟩ := pass1_error hp
    cases he
    exact ⟨cs, Nat.le_add_right 1 j, by rwa [Nat.add_sub_cancel_left], hcol⟩
  · cases hx.symm.trans h
    obtain ⟨y, hy, _⟩ := resolveAll_error hr
    cases hy
  · obtain ⟨n, hn⟩ := encodeProgram_error (hx.symm.trans h)
    cases hn

/-- Settles O60: the words of a program that assembles, and the errors of the label pass and of pass 1. -/
theorem assembledProgramsAreValid : Obligations.AssembledProgramsAreValid := by
  refine ⟨fun src ws => assemble_ok, fun src p c x hp hc hx => ?undefined, fun src line column => assemble_syntaxError⟩
  case undefined =>
    obtain ⟨y, hy, ⟨c', hc'⟩, hfind⟩ := assemble_undefined hp ⟨⟨c, hc⟩, hx⟩
    exact ⟨y, c', hy, hc', hfind⟩

end Sys2Proof.Machine
end
